-- ==== Sys2Proof/Word.lean ====
section
/-! DEFINITION. The word types of the message fragmentation engine (MFE) and the raw frame that crosses its driver port.
Every quantity is unsigned (spec/00_scope.md R15). -/

namespace Sys2Proof

/-- One byte of a byte space (20_memory.md R50). -/
abbrev Byte := BitVec 8

/-- The 32-bit frame header, one unsigned number (20_memory.md R56, 30_encoding.md R71). -/
abbrev Header := BitVec 32

/-- The 48-bit command word (30_encoding.md R80). -/
abbrev CmdWord := BitVec 48

/-- A raw frame (30_encoding.md R76): a header and the data bytes, the first byte first (the byte space `FD` of
20_memory.md R54), at most as many as a 4-bit data length can tell. Its third component, the data length, is
`RawFrame.dlc`: a frame carries exactly `dlc` data bytes, so the number is not stored a second time (log 12). -/
structure RawFrame where
  h    : Header
  data : List Byte
  fits : data.length < 2 ^ 4
  deriving DecidableEq, Repr

/-- The 4-bit data length of a raw frame (30_encoding.md R76). -/
def RawFrame.dlc (f : RawFrame) : BitVec 4 := BitVec.ofNatLT f.data.length f.fits

end Sys2Proof
end

