-- ==== Sys2Proof/Syntax.lean ====
section
/-! DEFINITION. The ten host commands (30_encoding.md R81), one constructor per row of spec/opcode_table.json, each with
its operands at the widths of the command word. -/

namespace Sys2Proof

/-- A host command with its operands (30_encoding.md R81). -/
inductive Instr where
  /-- `HDR_ENC` (40_header_codec.md R100). -/
  | hdrEnc (id count idx dest src : BitVec 8)
  /-- `HDR_DEC` (40_header_codec.md R101). -/
  | hdrDec (word : Header)
  /-- `SEND` (41_fragmentation.md R110). -/
  | send (dest len : BitVec 8) (noack : Bool)
  /-- `POLL` (42_reassembly.md R130). -/
  | poll
  /-- `RECV` (42_reassembly.md R140). -/
  | recv
  /-- `HAL_RECV` (43_validator.md R160). -/
  | halRecv
  /-- `INIT` (44_system.md R180). -/
  | init
  /-- `SET_ADDR` (44_system.md R181). -/
  | setAddr (addr : BitVec 8)
  /-- `GET_ADDR` (44_system.md R182). -/
  | getAddr
  /-- `RD_STAT` (44_system.md R183). -/
  | rdStat (idx : BitVec 8)
  deriving DecidableEq, Repr

end Sys2Proof
end

