-- ==== Sys2Proof/Decode.lean ====
section
/-! DEFINITION. The command word (30_encoding.md R80 to R83): the decoder, total on every 48-bit word, which rejects a
reserved opcode by name, and the encoder, which writes unused operand bits as 0 (R83). -/

namespace Sys2Proof

/-- What the decoder reads from a command word: a command, or a reserved opcode (30_encoding.md R82). -/
inductive Decoded where
  | command (i : Instr)
  | reservedOpcode (op : BitVec 8)
  deriving DecidableEq, Repr

/-- The opcode, bits 47:40 (30_encoding.md R80). -/
def CmdWord.op (cw : CmdWord) : BitVec 8 := cw.extractLsb' 40 8

/-- Operand 4, bits 39:32. -/
def CmdWord.a4 (cw : CmdWord) : BitVec 8 := cw.extractLsb' 32 8

/-- Operand 3, bits 31:24. -/
def CmdWord.a3 (cw : CmdWord) : BitVec 8 := cw.extractLsb' 24 8

/-- Operand 2, bits 23:16. -/
def CmdWord.a2 (cw : CmdWord) : BitVec 8 := cw.extractLsb' 16 8

/-- Operand 1, bits 15:8. -/
def CmdWord.a1 (cw : CmdWord) : BitVec 8 := cw.extractLsb' 8 8

/-- Operand 0, bits 7:0. -/
def CmdWord.a0 (cw : CmdWord) : BitVec 8 := cw.extractLsb' 0 8

/-- Decode a command word by its opcode (30_encoding.md R81); operand bits a command does not use are ignored (R83). -/
def decode (cw : CmdWord) : Decoded :=
  let op := CmdWord.op cw
  if op = 0x01 then
    .command (.hdrEnc (CmdWord.a4 cw) (CmdWord.a3 cw) (CmdWord.a2 cw) (CmdWord.a1 cw) (CmdWord.a0 cw))
  else if op = 0x02 then .command (.hdrDec (cw.extractLsb' 0 32))
  else if op = 0x03 then .command (.send (CmdWord.a0 cw) (CmdWord.a1 cw) (cw.getLsbD 16))
  else if op = 0x04 then .command .poll
  else if op = 0x05 then .command .recv
  else if op = 0x06 then .command .halRecv
  else if op = 0x07 then .command .init
  else if op = 0x08 then .command (.setAddr (CmdWord.a0 cw))
  else if op = 0x09 then .command .getAddr
  else if op = 0x0A then .command (.rdStat (CmdWord.a0 cw))
  else .reservedOpcode op

/-- A command word from its six byte fields (30_encoding.md R80). -/
def CmdWord.ofFields (op a4 a3 a2 a1 a0 : BitVec 8) : CmdWord :=
  (op.setWidth 48 <<< 40) ||| (a4.setWidth 48 <<< 32) ||| (a3.setWidth 48 <<< 24) |||
    (a2.setWidth 48 <<< 16) ||| (a1.setWidth 48 <<< 8) ||| a0.setWidth 48

/-- The canonical command word of a command: unused operand bits are 0 (30_encoding.md R81, R83). -/
def encode : Instr → CmdWord
  | .hdrEnc id count idx dest src => CmdWord.ofFields 0x01 id count idx dest src
  | .hdrDec word =>
    CmdWord.ofFields 0x02 0 (word.extractLsb' 24 8) (word.extractLsb' 16 8) (word.extractLsb' 8 8) (word.extractLsb' 0 8)
  | .send dest len noack => CmdWord.ofFields 0x03 0 0 (if noack then 1 else 0) len dest
  | .poll => CmdWord.ofFields 0x04 0 0 0 0 0
  | .recv => CmdWord.ofFields 0x05 0 0 0 0 0
  | .halRecv => CmdWord.ofFields 0x06 0 0 0 0 0
  | .init => CmdWord.ofFields 0x07 0 0 0 0 0
  | .setAddr addr => CmdWord.ofFields 0x08 0 0 0 0 addr
  | .getAddr => CmdWord.ofFields 0x09 0 0 0 0 0
  | .rdStat idx => CmdWord.ofFields 0x0A 0 0 0 0 idx

/-- The command word that a number of `nbits` bits stands for, numbered as spec/opcode_table.json numbers it: a command
is ONE word of 48 bits, so its bits are the number's own and the bits above `nbits` are 0 (log 14). -/
def tableWord (nbits w : Nat) : CmdWord := BitVec.ofNat 48 (w % 2 ^ nbits)

/-- The command the decoder reads from a table word; none where it refuses. -/
def decodeTableWord (nbits w : Nat) : Option Instr :=
  match decode (tableWord nbits w) with
  | .command i => some i
  | .reservedOpcode _ => none

end Sys2Proof
end

