-- ==== Sys2Proof/Config.lean ====
section
/-! DEFINITION. What one instance of the MFE fixes (00_scope.md R7 to R14, 30_encoding.md R79), and the free values.
The spec leaves most of the parameters open, so the instance the machine is built with, `Config.mfe`, is OPAQUE: every
claim about the machine holds for every legal value of every parameter (log 1). `Config.reference` is the instance of
the spec's worked examples (95_test_vectors.md); only tests use it. -/

namespace Sys2Proof

/-- The parameters of one instance (00_scope.md R7 to R14). The ranges the spec gives are in the types. -/
structure Config where
  /-- `MAX_MSG - CHUNK`: `MAX_MSG` is between `CHUNK` and `15 * CHUNK` (00_scope.md R9). -/
  maxMsgExtra : Fin 113
  /-- `POOL_N - 1`: `POOL_N` is between 1 and 255 (00_scope.md R8). -/
  poolExtra : Fin 255
  /-- `FRAMING` (00_scope.md R11, 30_encoding.md R75). -/
  framing : BitVec 2
  /-- `PROTOCOL_VERSION` (30_encoding.md R79): an integer, and quantities are unsigned (00_scope.md R15). -/
  protocolVersion : Nat
  /-- `MSG_MIN_LEN - 1`: `MSG_MIN_LEN` is at least 1 (30_encoding.md R79). -/
  msgMinLenExtra : Nat
  /-- `ver_of` as a function of the first `MSG_MIN_LEN` bytes (30_encoding.md R79). -/
  verOfPrefix : List Byte → Nat
  /-- `declared_len_of` as a function of the first `MSG_MIN_LEN` bytes (30_encoding.md R79). -/
  declaredLenOfPrefix : List Byte → Nat
  /-- `NODE_ADDR_RESET` (00_scope.md R14). -/
  nodeAddrReset : BitVec 8
  deriving Inhabited

namespace Config

/-- `CHUNK`, 8 for this hardware (00_scope.md R7). -/
def chunk : Nat := 8

/-- `BROADCAST` (00_scope.md R10). The MFE gives it no special treatment (30_encoding.md R89), so no meaning uses it. -/
def broadcast : BitVec 8 := 255

/-- `MAX_MSG` (00_scope.md R9). -/
def maxMsg (c : Config) : Nat := chunk + c.maxMsgExtra.val

/-- `POOL_N` (00_scope.md R8). -/
def poolN (c : Config) : Nat := 1 + c.poolExtra.val

/-- `MSG_MIN_LEN` (30_encoding.md R79). -/
def msgMinLen (c : Config) : Nat := 1 + c.msgMinLenExtra

/-- `ver_of(m)`: it reads only the first `MSG_MIN_LEN` bytes (30_encoding.md R79). -/
def verOf (c : Config) (m : List Byte) : Nat := c.verOfPrefix (m.take c.msgMinLen)

/-- `declared_len_of(m)`: it reads only the first `MSG_MIN_LEN` bytes (30_encoding.md R79). -/
def declaredLenOf (c : Config) (m : List Byte) : Nat := c.declaredLenOfPrefix (m.take c.msgMinLen)

/-- The instance the machine is built with. Nothing is known of it but the ranges in the types (log 1). -/
opaque mfe : Config

/-- FREE VALUE: the driver's answer to a RAW_INIT that no script of `Driver` answers (60_exceptions.md R223; log 5). -/
opaque freeRawInit : Nat → Bool

/-- FREE VALUE: the driver's answer to a RAW_AVAIL that no script of `Driver` answers, with the frame that RAW_RECV then
returns (60_exceptions.md R223; log 5). -/
opaque freeRawRx : Nat → Option RawFrame

/-- FREE VALUE: what `RD_STAT` returns for a `PROTOCOL_VERSION` that does not fit bits 7:0 (10_state.md R36; log 2). -/
opaque freeVersionRead : Nat → BitVec 32

/-- The instance of the spec's worked examples (95_test_vectors.md, head; 30_encoding.md R79). For tests only. -/
def reference : Config where
  maxMsgExtra := 24
  poolExtra := 7
  framing := 0b10
  protocolVersion := 2
  msgMinLenExtra := 3
  verOfPrefix := fun m => ((m.getD 3 0) &&& 0x03).toNat
  declaredLenOfPrefix := fun m => 7 + ((m.getD 3 0) >>> 3).toNat
  nodeAddrReset := 0

end Config

end Sys2Proof
end

