-- ==== Sys2Proof/Machine/State.lean ====
section
/-! DEFINITION. The state of the MFE (10_state.md R20, R32; the host's byte spaces TXB and RXB of 20_memory.md R50), the
environment's part and the outputs as plain data, and the state after reset (10_state.md R39). -/

namespace Sys2Proof.Machine

/-- One byte space (20_memory.md R50): the bytes that differ from what an unwritten byte reads as, by rising index. -/
structure Memory where
  cells : List Host.Cell
  deriving DecidableEq, Repr

/-- What a byte that nothing has written reads as (log 8). DESIGN CHOICE: the spec gives the buffers no reset contents. -/
def Memory.unlisted : Byte := 0

/-- A byte space in which nothing has been written. -/
def Memory.blank : Memory := ⟨[]⟩

/-- One slot of the Slot Pool (10_state.md R22). -/
structure Slot where
  locked  : Bool
  ready   : Bool
  src     : BitVec 8
  msgId   : BitVec 3
  nextIdx : BitVec 5
  len     : BitVec 7
  age     : BitVec 8
  /-- `SB(i)` (10_state.md R27, 20_memory.md R51). -/
  buf     : Memory
  deriving DecidableEq, Repr

/-- The transmit sequencer (10_state.md R32). -/
structure Tx where
  busy  : Bool
  dest  : BitVec 8
  id    : BitVec 3
  count : BitVec 4
  idx   : BitVec 4
  len   : BitVec 7
  /-- `TXL`, the latched payload (20_memory.md R52). -/
  latch : Memory
  deriving DecidableEq, Repr

/-- The status codes (60_exceptions.md R201). -/
inductive Status where
  | ok | empty | pending | complete
  | dropUnmatched | dropNoSlot | dropOverflow | dropBadDlc
  | errVersion | errLength
  | sendFail | badLen | initFail | busy | badCmd
  deriving DecidableEq, Repr

/-- The result record of a command (30_encoding.md R84). The bytes of RXB it speaks of are in `State.rxb`. -/
structure Result where
  status  : Status
  flag    : Bool
  evicted : Bool
  n       : BitVec 8
  val     : BitVec 32
  deriving DecidableEq, Repr

/-- What happens to the MFE from outside, in the order in which it happens (00_scope.md R17; log 4). -/
inductive Input where
  /-- The host presents a command word (30_encoding.md R80). -/
  | command (cw : CmdWord)
  /-- The driver answers the offered frame (41_fragmentation.md R119). -/
  | txConfirm (ok : Bool)
  /-- The host writes one byte of TXB (20_memory.md R52). -/
  | hostWrite (addr : Nat) (b : Byte)
  /-- The reset input (10_state.md R38, 70_reset_and_hazards.md R230). -/
  | reset
  deriving DecidableEq, Repr

/-- A transaction of the driver port, or the answer to one (60_exceptions.md R223). -/
inductive PortEvent where
  /-- RAW_INIT and its answer. -/
  | rawInit (ok : Bool)
  /-- RAW_AVAIL and its answer. -/
  | rawAvail (avail : Bool)
  /-- RAW_RECV and the frame it returned. -/
  | rawRecv (f : RawFrame)
  /-- RAW_SEND: the frame offered to the driver. -/
  | rawSend (f : RawFrame)
  /-- The driver's answer to the frame last offered. -/
  | sendAnswer (ok : Bool)
  deriving DecidableEq, Repr

/-- The driver's next answers, where they are scripted, and the counter that its unscripted answers (free values) are
applied to (60_exceptions.md R223, 93_implementation_defined.md U27; log 4, log 5). Not state of the MFE: the model's
own record of its environment. -/
structure Driver where
  initAnswers : List Bool
  rxAnswers   : List (Option RawFrame)
  asked       : Nat
  deriving DecidableEq, Repr

/-- The state of the machine. `inputs`, `driver`, `results` and `port` are the model's own fields: what the environment
does next, and what the MFE has put out (log 4, log 5, log 13). -/
structure State where
  /-- The Slot Pool (10_state.md R21): `POOL_N` slots, by index. -/
  pool          : List Slot
  /-- `MSG_ID_CTR` (10_state.md R28). -/
  msgIdCtr      : BitVec 3
  /-- `NODE_ADDR` (10_state.md R29). -/
  nodeAddr      : BitVec 8
  /-- `ERR_VERSION_CNT` (10_state.md R30). -/
  errVersionCnt : BitVec 8
  /-- `ERR_LENGTH_CNT` (10_state.md R31). -/
  errLengthCnt  : BitVec 8
  /-- `tx` and `TXL` (10_state.md R32). -/
  tx            : Tx
  /-- `TXB` (20_memory.md R52). -/
  txb           : Memory
  /-- `RXB` (20_memory.md R53). -/
  rxb           : Memory
  /-- The inputs that have not happened yet, the next one first. -/
  inputs        : List Input
  /-- The driver's next answers. -/
  driver        : Driver
  /-- The result records returned to the host, oldest first (30_encoding.md R84). -/
  results       : List Result
  /-- The driver-port transactions made, oldest first (60_exceptions.md R223). -/
  port          : List PortEvent
  deriving DecidableEq, Repr

/-- Why the machine can stop. No COMMAND stops it (60_exceptions.md R200): both are raised by `step` itself, for an input
that the spec gives no transition. -/
inductive Fault where
  /-- Raised by `step` on a TX_CONFIRM while no frame is offered (41_fragmentation.md R119: "require tx.busy = 1").
  Safe: the model stops where the spec has no transition (log 6). -/
  | confirmWithoutOffer
  /-- Raised by `step` when the host writes TXB at or beyond `MAX_MSG`, a byte that does not exist (20_memory.md R50).
  Safe: the model stops where the spec has no byte (log 7). -/
  | txbAddress
  deriving DecidableEq, Repr

/-- Why the machine can refuse an instruction. -/
inductive Refusal where
  /-- For an arm of `exec` that has no meaning yet. No arm of this model raises it. Safe. -/
  | notModelled (mnemonic : String)
  deriving DecidableEq, Repr

/-- A FREE slot (10_state.md R23, R39) with nothing written in its buffer. -/
def Slot.free : Slot where
  locked := false
  ready := false
  src := 0
  msgId := 0
  nextIdx := 0
  len := 0
  age := 0
  buf := .blank

/-- The idle sequencer. `busy` is the spec's reset value (10_state.md R39); the rest is unspecified while `busy` is 0 and
the model names 0 (DESIGN CHOICE, log 9). -/
def Tx.idle : Tx where
  busy := false
  dest := 0
  id := 0
  count := 0
  idx := 0
  len := 0
  latch := .blank

namespace State

/-- The state of an instance right after reset (10_state.md R39). -/
def resetOf (c : Config) : State where
  pool := List.replicate c.poolN .free
  msgIdCtr := 0
  nodeAddr := c.nodeAddrReset
  errVersionCnt := 0
  errLengthCnt := 0
  tx := .idle
  txb := .blank
  rxb := .blank
  inputs := []
  driver := ⟨[], [], 0⟩
  results := []
  port := []

/-- The machine right after reset (10_state.md R38, R39). -/
def reset : State := resetOf Config.mfe

/-- Write the Slot Pool. -/
def setPool (s : State) (v : List Slot) : State := { s with pool := v }

/-- Write `MSG_ID_CTR`. -/
def setMsgIdCtr (s : State) (v : BitVec 3) : State := { s with msgIdCtr := v }

/-- Write `NODE_ADDR`. -/
def setNodeAddr (s : State) (v : BitVec 8) : State := { s with nodeAddr := v }

/-- Write `ERR_VERSION_CNT`. -/
def setErrVersionCnt (s : State) (v : BitVec 8) : State := { s with errVersionCnt := v }

/-- Write `ERR_LENGTH_CNT`. -/
def setErrLengthCnt (s : State) (v : BitVec 8) : State := { s with errLengthCnt := v }

/-- Write the transmit sequencer. -/
def setTx (s : State) (v : Tx) : State := { s with tx := v }

/-- Write TXB. -/
def setTxb (s : State) (v : Memory) : State := { s with txb := v }

/-- Write RXB. -/
def setRxb (s : State) (v : Memory) : State := { s with rxb := v }

/-- Set the inputs that are still to come. -/
def setInputs (s : State) (v : List Input) : State := { s with inputs := v }

/-- Set the driver's next answers. -/
def setDriver (s : State) (v : Driver) : State := { s with driver := v }

/-- Return a result record to the host. -/
def addResult (s : State) (r : Result) : State := { s with results := s.results ++ [r] }

/-- Record a driver-port transaction. -/
def addPort (s : State) (e : PortEvent) : State := { s with port := s.port ++ [e] }

end State

end Sys2Proof.Machine
end

