-- ==== Sys2Proof/Machine/Flags.lean ====
section
/-! DEFINITION. The numbers of the status codes, the result record's `flag` bit, and the saturating increments. -/

namespace Sys2Proof.Machine

/-- The 8-bit code of a status (60_exceptions.md R201). -/
def Status.code : Status → BitVec 8
  | .ok => 0x00
  | .empty => 0x01
  | .pending => 0x02
  | .complete => 0x03
  | .dropUnmatched => 0x10
  | .dropNoSlot => 0x11
  | .dropOverflow => 0x12
  | .dropBadDlc => 0x13
  | .errVersion => 0x20
  | .errLength => 0x21
  | .sendFail => 0x30
  | .badLen => 0x31
  | .initFail => 0x32
  | .busy => 0x3E
  | .badCmd => 0x3F

/-- The `flag` bit of a result: 1 exactly when the status is `OK` or `COMPLETE` (30_encoding.md R84). -/
def flagOf (st : Status) : Bool := st == .ok || st == .complete

/-- A result record: its `flag` follows from its status, every other field is 0 unless given (30_encoding.md R84). -/
def resultOf (st : Status) (evicted : Bool := false) (n : BitVec 8 := 0) (val : BitVec 32 := 0) : Result where
  status := st
  flag := flagOf st
  evicted := evicted
  n := n
  val := val

/-- `sat_inc_8` (00_scope.md R15, 30_encoding.md R90). -/
def satInc8 (v : BitVec 8) : BitVec 8 := if v = 255 then 255 else v + 1

end Sys2Proof.Machine
end

