-- ==== Sys2Proof/Machine/Ops.lean ====
section
/-! DEFINITION. The operations every command is written over: byte spaces, how a command ends, the busy gate, the Slot
Pool's scans and its reset, and the driver port. -/

namespace Sys2Proof.Machine

/-! ### Byte spaces (20_memory.md R50, R58) -/

namespace Memory

/-- The byte a list of cells holds at an index. -/
def lookup : List Host.Cell → Nat → Byte
  | [], _ => unlisted
  | (k, b) :: rest, a => if k = a then b else lookup rest a

/-- Put a cell in its place in a list of rising indices. -/
def insertCell : List Host.Cell → Nat → Byte → List Host.Cell
  | [], a, b => [(a, b)]
  | (k, v) :: rest, a, b => if a < k then (a, b) :: (k, v) :: rest else (k, v) :: insertCell rest a b

/-- Take an index out of a list of cells. -/
def eraseCell (cells : List Host.Cell) (a : Nat) : List Host.Cell := cells.filter (fun c => c.1 ≠ a)

/-- Read one byte. -/
def read (m : Memory) (a : Nat) : Byte := lookup m.cells a

/-- Write one byte; the canonical form is kept, so writing what an unwritten byte reads as removes the cell. -/
def write (m : Memory) (a : Nat) (b : Byte) : Memory :=
  if b = unlisted then ⟨eraseCell m.cells a⟩ else ⟨insertCell (eraseCell m.cells a) a b⟩

/-- `MemRead(space, addr, n)`, lowest index first (00_scope.md R16). -/
def readN (m : Memory) (a : Nat) : Nat → List Byte
  | 0 => []
  | n + 1 => m.read a :: m.readN (a + 1) n

/-- `MemWrite(space, addr, n, v)` of all the bytes of `v` (00_scope.md R16). -/
def writeN (m : Memory) (a : Nat) : List Byte → Memory
  | [] => m
  | b :: rest => (m.write a b).writeN (a + 1) rest

/-- The canonical form: indices strictly rising, no cell equal to what an unwritten byte reads as. -/
def wf (m : Memory) : Bool :=
  decide (m.cells.Pairwise (fun x y => x.1 < y.1)) && m.cells.all (fun c => c.2 ≠ unlisted)

/-- Every cell lies below an index: the space has that many bytes (20_memory.md R50). -/
def within (m : Memory) (size : Nat) : Bool := m.cells.all (fun c => c.1 < size)

end Memory

/-! ### How a command ends (60_exceptions.md R200, R216, R217)

"Trap entry" and "trap return" of 00_scope.md R6: a command that ends with any status returns its result record and does
nothing else, and the MFE then takes the next command. -/

/-- `return (status, flag, ...)` (00_scope.md R16): the command ends with this result record. -/
def reply (r : Result) (s : State) : State := s.addResult r

/-- `raise <STATUS>(n)` (00_scope.md R16): the command ends with a status that is no success. -/
def raise (st : Status) (s : State) (n : BitVec 8 := 0) : State := reply (resultOf st (n := n)) s

/-- The busy gate, the first test of every command (44_system.md R186). -/
def gate (body : State → State) (s : State) : State := if s.tx.busy then raise .busy s else body s

/-! ### The Slot Pool (10_state.md R23, R25; 42_reassembly.md R131) -/

/-- FREE: `locked = 0` (42_reassembly.md R132). -/
def Slot.isFree (x : Slot) : Bool := !x.locked

/-- FILLING: `locked = 1, ready = 0` (10_state.md R23). -/
def Slot.isFilling (x : Slot) : Bool := x.locked && !x.ready

/-- READY: `ready = 1` (42_reassembly.md R140). -/
def Slot.isReady (x : Slot) : Bool := x.ready

/-- `clean(i)` on one slot: the seven scalars go to 0, the buffer is not written (10_state.md R25). -/
def Slot.clean (x : Slot) : Slot where
  locked := false
  ready := false
  src := 0
  msgId := 0
  nextIdx := 0
  len := 0
  age := 0
  buf := x.buf

/-- `first i in 0..POOL_N-1 with P(i)` (00_scope.md R16). -/
def firstSlot (p : Slot → Bool) (pool : List Slot) : Option Nat := pool.findIdx? p

/-! ### The driver port (60_exceptions.md R223) -/

/-- The driver's answer to RAW_INIT now: the scripted one, else a free value. -/
def State.initAnswer (s : State) : Bool :=
  match s.driver.initAnswers with
  | a :: _ => a
  | [] => Config.freeRawInit s.driver.asked

/-- The driver after it has answered RAW_INIT. -/
def Driver.afterInit (d : Driver) : Driver :=
  match d.initAnswers with
  | _ :: rest => { d with initAnswers := rest }
  | [] => { d with asked := d.asked + 1 }

/-- The driver's answer to RAW_AVAIL now, with the frame that RAW_RECV then returns: the scripted one, else a free
value. -/
def State.rxAnswer (s : State) : Option RawFrame :=
  match s.driver.rxAnswers with
  | a :: _ => a
  | [] => Config.freeRawRx s.driver.asked

/-- The driver after it has answered RAW_AVAIL and, if it had a frame, given it up to RAW_RECV. -/
def Driver.afterRx (d : Driver) : Driver :=
  match d.rxAnswers with
  | _ :: rest => { d with rxAnswers := rest }
  | [] => { d with asked := d.asked + 1 }

/-- The transaction RAW_INIT. -/
def rawInit (s : State) : State := (s.setDriver s.driver.afterInit).addPort (.rawInit s.initAnswer)

/-- The transaction RAW_AVAIL, and RAW_RECV after it when the answer is true (20_memory.md R61, clause 5). -/
def rawRx (s : State) : State :=
  match s.rxAnswer with
  | none => (s.setDriver s.driver.afterRx).addPort (.rawAvail false)
  | some f => ((s.setDriver s.driver.afterRx).addPort (.rawAvail true)).addPort (.rawRecv f)

end Sys2Proof.Machine
end

