-- ==== Sys2Proof/Machine/Operands.lean ====
section
/-! DEFINITION. The operand forms: the frame header's fields (30_encoding.md R71 to R75), how a message is cut into
frames (R78), and the status registers (10_state.md R36). -/

/-- A frame the MFE makes: a header and the bytes of one chunk. A chunk has at most `CHUNK` bytes (30_encoding.md R78), so
the cut at the 15 bytes that `dlc` can tell never takes a byte away (log 12). -/
def Sys2Proof.RawFrame.ofBytes (h : Sys2Proof.Header) (bytes : List Sys2Proof.Byte) : Sys2Proof.RawFrame :=
  ⟨h, bytes.take 15, Nat.lt_of_le_of_lt (List.length_take_le 15 bytes) (by decide)⟩

namespace Sys2Proof.Machine

/-- The fields of a header that the MFE reads (30_encoding.md R73). -/
structure HeaderFields where
  src   : BitVec 8
  dest  : BitVec 8
  idx   : BitVec 4
  count : BitVec 4
  id    : BitVec 3
  deriving DecidableEq, Repr

/-- `hdr_enc`: every operand is masked to its field width (30_encoding.md R72, 40_header_codec.md R100). -/
def hdrEnc (c : Config) (messageId fragmentCount fragmentIndex dest src : BitVec 8) : Header :=
  (c.framing.setWidth 32 <<< 30) ||| ((messageId &&& 0x07).setWidth 32 <<< 24) |||
    ((fragmentCount &&& 0x0F).setWidth 32 <<< 20) ||| ((fragmentIndex &&& 0x0F).setWidth 32 <<< 16) |||
    (dest.setWidth 32 <<< 8) ||| src.setWidth 32

/-- `hdr_dec`: bits 31:27 are not looked at (30_encoding.md R73, 40_header_codec.md R101). -/
def hdrDec (h : Header) : HeaderFields where
  src := h.extractLsb' 0 8
  dest := h.extractLsb' 8 8
  idx := h.extractLsb' 16 4
  count := h.extractLsb' 20 4
  id := h.extractLsb' 24 3

/-- `ceil_div(a, b)` for `b >= 1` (00_scope.md R15). -/
def ceilDiv (a b : Nat) : Nat := (a + b - 1) / b

/-- `frag_count(len)` (30_encoding.md R78). -/
def fragCount (len : Nat) : Nat := ceilDiv len Config.chunk

/-- `chunk_len(len, idx)` (30_encoding.md R78). -/
def chunkLen (len idx : Nat) : Nat :=
  if idx < fragCount len - 1 then Config.chunk else len - Config.chunk * (fragCount len - 1)

/-- `chunk_off(idx)` (30_encoding.md R78). -/
def chunkOff (idx : Nat) : Nat := idx * Config.chunk

/-- What `PROTOCOL_VERSION` reads as through `RD_STAT` (10_state.md R36): itself, when it fits the register's bits 7:0; a
free value otherwise, since the spec then states none (log 2). -/
def versionRegister (c : Config) : BitVec 32 :=
  if c.protocolVersion < 2 ^ 8 then BitVec.ofNat 32 c.protocolVersion
  else Config.freeVersionRead c.protocolVersion

/-- How many slots satisfy a test, as an 8-bit number (10_state.md R36; at most `POOL_N <= 255`, log 16). -/
def slotCount (p : Slot → Bool) (pool : List Slot) : BitVec 8 := BitVec.ofNat 8 (pool.countP p)

/-- `status_register(idx)`, zero-extended; none for a reserved index (10_state.md R36, 44_system.md R183). -/
def statusRegister (c : Config) (idx : BitVec 8) (s : State) : Option (BitVec 32) :=
  match idx.toNat with
  | 0 => some (s.nodeAddr.setWidth 32)
  | 1 => some (s.msgIdCtr.setWidth 32)
  | 2 => some (s.errVersionCnt.setWidth 32)
  | 3 => some (s.errLengthCnt.setWidth 32)
  | 4 => some ((slotCount Slot.isFree s.pool).setWidth 32)
  | 5 => some ((slotCount Slot.isFilling s.pool).setWidth 32)
  | 6 => some ((slotCount Slot.isReady s.pool).setWidth 32)
  | 7 => some (BitVec.ofNat 32 Config.chunk)
  | 8 => some (BitVec.ofNat 32 c.poolN)
  | 9 => some (BitVec.ofNat 32 c.maxMsg)
  | 10 => some (versionRegister c)
  | _ => none

end Sys2Proof.Machine
end

