-- ==== Sys2Proof/Machine/Codec.lean ====
section
/-! DEFINITION. The Header Codec's commands (40_header_codec.md). A meaning is `.next` of a command of one instance
(`...On c`), so that it is the same command in every instance; none of them stops (60_exceptions.md R200). -/

namespace Sys2Proof.Machine

/-- `HDR_ENC` (40_header_codec.md R100). -/
def hdrEncOn (c : Config) (id count idx dest src : BitVec 8) : State → State :=
  gate (reply (resultOf .ok (val := hdrEnc c id count idx dest src)))

/-- `HDR_DEC` (40_header_codec.md R101): the fields, packed as `h & 0x07FFFFFF` (30_encoding.md R84). -/
def hdrDecOn (word : Header) : State → State :=
  gate (reply (resultOf .ok (val := word &&& 0x07FFFFFF)))

/-- The meaning of `HDR_ENC`. -/
def execHdrEnc (id count idx dest src : BitVec 8) (s : State) : Host.Outcome State Fault Refusal :=
  .next (hdrEncOn Config.mfe id count idx dest src s)

/-- The meaning of `HDR_DEC`. -/
def execHdrDec (word : Header) (s : State) : Host.Outcome State Fault Refusal := .next (hdrDecOn word s)

end Sys2Proof.Machine
end

