-- ==== Sys2Proof/Machine/Fragmentation.lean ====
section
/-! DEFINITION. The Fragmentation Engine (41_fragmentation.md): `SEND` in the step form of R118 and R119 (log 3), and the
atomic form of R110, which the machine does not use and R120 says agrees with it. -/

namespace Sys2Proof.Machine

/-- Fragment `idx` of a message of `len` bytes held in a byte space (41_fragmentation.md R114, R115, R121). -/
def fragment (c : Config) (id : BitVec 3) (dest nodeAddr : BitVec 8) (payload : Memory) (len idx : Nat) : RawFrame :=
  .ofBytes (hdrEnc c (id.setWidth 8) (BitVec.ofNat 8 (fragCount len)) (BitVec.ofNat 8 idx) dest nodeAddr)
    (payload.readN (chunkOff idx) (chunkLen len idx))

/-- `offered(tx)`: the frame now offered to the driver (41_fragmentation.md R118). -/
def offered (c : Config) (s : State) : RawFrame :=
  .ofBytes (hdrEnc c (s.tx.id.setWidth 8) (s.tx.count.setWidth 8) (s.tx.idx.setWidth 8) s.tx.dest s.nodeAddr)
    (s.tx.latch.readN (chunkOff s.tx.idx.toNat) (chunkLen s.tx.len.toNat s.tx.idx.toNat))

/-- RAW_SEND of the offered frame. -/
def offer (c : Config) (s : State) : State := s.addPort (.rawSend (offered c s))

/-- `SEND_ACCEPT` (41_fragmentation.md R118): latch the payload, allocate the id (R112), offer fragment 0. -/
def sendAccept (c : Config) (dest len : BitVec 8) (s : State) : State :=
  offer c
    ((s.setMsgIdCtr (s.msgIdCtr + 1)).setTx
      { busy := true
        dest := dest
        id := s.msgIdCtr + 1
        count := BitVec.ofNat 4 (fragCount len.toNat)
        idx := 0
        len := len.setWidth 7
        latch := s.tx.latch.writeN 0 (s.txb.readN 0 len.toNat) })

/-- `SEND`, the host's step: acceptance, or the refusal of 41_fragmentation.md R111. `noack` is ignored (R122). -/
def sendOn (c : Config) (dest len : BitVec 8) (_noack : Bool) : State → State :=
  gate fun s => if len.toNat = 0 ∨ c.maxMsg < len.toNat then raise .badLen s else sendAccept c dest len s

/-- The sequencer when the command it served has ended (41_fragmentation.md R119; the other registers then have no
meaning and keep their values, log 10). -/
def Tx.ended (t : Tx) : Tx := { t with busy := false }

/-- `TX_CONFIRM(ok)`, the driver's step while a frame is offered (41_fragmentation.md R119). -/
def txConfirm (c : Config) (ok : Bool) (s : State) : State :=
  let s := s.addPort (.sendAnswer ok)
  if !ok then raise .sendFail (s.setTx s.tx.ended) (n := s.tx.idx.setWidth 8)
  else if s.tx.idx.toNat + 1 = s.tx.count.toNat then
    reply (resultOf .ok (n := s.tx.count.setWidth 8)) (s.setTx s.tx.ended)
  else offer c (s.setTx { s.tx with idx := s.tx.idx + 1 })

/-- The meaning of `SEND`. -/
def execSend (dest len : BitVec 8) (noack : Bool) (s : State) : Host.Outcome State Fault Refusal :=
  .next (sendOn Config.mfe dest len noack s)

/-! ### The atomic form (41_fragmentation.md R110) -/

/-- The loop of R110 over the fragments from `idx` on, `left` of them, with the driver's answers: its transactions and,
unless the driver stops answering, how the command ends. -/
def sendLoop (frame : Nat → RawFrame) : (left idx : Nat) → List Bool → List PortEvent × Option (Status × Nat)
  | 0, idx, _ => ([], some (.ok, idx))
  | _ + 1, idx, [] => ([.rawSend (frame idx)], none)
  | left + 1, idx, ok :: answers =>
    if ok then
      let r := sendLoop frame left (idx + 1) answers
      (.rawSend (frame idx) :: .sendAnswer true :: r.1, r.2)
    else ([.rawSend (frame idx), .sendAnswer false], some (.sendFail, idx))

/-- `SEND` as one transition with the driver's answers as an input (41_fragmentation.md R110). When the driver stops
answering the command does not end and `tx.busy` stays 1. -/
def sendAtomic (c : Config) (dest len : BitVec 8) (answers : List Bool) : State → State :=
  gate fun s =>
    if len.toNat = 0 ∨ c.maxMsg < len.toNat then raise .badLen s
    else
      let latch := s.tx.latch.writeN 0 (s.txb.readN 0 len.toNat)
      let id := s.msgIdCtr + 1
      let r := sendLoop (fragment c id dest s.nodeAddr latch len.toNat) (fragCount len.toNat) 0 answers
      let s1 := { s with
        msgIdCtr := id
        port := s.port ++ r.1
        tx := { s.tx with latch := latch, busy := r.2.isNone } }
      match r.2 with
      | none => s1
      | some (st, n) => reply (resultOf st (n := BitVec.ofNat 8 n)) s1

end Sys2Proof.Machine
end

