-- ==== Sys2Proof/Machine/Reassembly.lean ====
section
/-! DEFINITION. The Reassembly Engine, the slot allocator and the eviction controller (42_reassembly.md): `POLL` and
`RECV`. -/

namespace Sys2Proof.Machine

/-! ### The parts of a round (42_reassembly.md R132 to R138) -/

/-- The slot a fragment 0 is given: locked, empty, with the frame's source and id (42_reassembly.md R132). The buffer is
not written. -/
def Slot.claim (f : HeaderFields) (x : Slot) : Slot where
  locked := true
  ready := false
  src := f.src
  msgId := f.id
  nextIdx := 0
  len := 0
  age := 0
  buf := x.buf

/-- A slot that takes a continuation with these header fields (42_reassembly.md R134). -/
def Slot.matches (f : HeaderFields) (x : Slot) : Bool :=
  x.isFilling && x.src == f.src && x.msgId == f.id && x.nextIdx == f.idx.setWidth 5

/-- The greatest age among the FILLING slots, 0 if there is none (42_reassembly.md R131, `evict_candidate`). -/
def maxFillingAge : List Slot → Nat
  | [] => 0
  | x :: rest => if x.isFilling then max x.age.toNat (maxFillingAge rest) else maxFillingAge rest

/-- `evict_candidate()`: of the FILLING slots the oldest, the lowest index on a tie (42_reassembly.md R131, R133). -/
def evictCandidate (pool : List Slot) : Option Nat :=
  firstSlot (fun x => x.isFilling && x.age.toNat == maxFillingAge pool) pool

/-- What the first half of a round decides: the frame is dropped, or slot `i` of this pool takes it. -/
inductive Choice where
  | drop (st : Status)
  | take (i : Nat) (pool : List Slot) (evicted : Bool)
  deriving DecidableEq, Repr

/-- Allocation on a fragment 0 (42_reassembly.md R131, R132, R133). -/
def allocate (f : HeaderFields) (pool : List Slot) : Choice :=
  match firstSlot Slot.isFree pool with
  | some i => .take i (pool.modify i (Slot.claim f)) false
  | none =>
    match evictCandidate pool with
    | none => .drop .dropNoSlot
    | some v => .take v ((pool.modify v Slot.clean).modify v (Slot.claim f)) true

/-- Matching a continuation, and the capacity check (42_reassembly.md R131, R134, R135). -/
def continuation (c : Config) (f : HeaderFields) (dlc : BitVec 4) (pool : List Slot) : Choice :=
  match firstSlot (Slot.matches f) pool with
  | none => .drop .dropUnmatched
  | some i =>
    match pool[i]? with
    | none => .drop .dropUnmatched
    | some x => if c.maxMsg < x.len.toNat + dlc.toNat then .drop .dropOverflow else .take i pool false

/-- The first half of a round (42_reassembly.md R131, R142). -/
def select (c : Config) (f : RawFrame) (pool : List Slot) : Choice :=
  let hdr := hdrDec f.h
  if Config.chunk < f.dlc.toNat then .drop .dropBadDlc
  else if hdr.idx = 0 then allocate hdr pool
  else continuation c hdr f.dlc pool

/-- Append and advance (42_reassembly.md R136), then completion by the count of this very frame (R137). -/
def Slot.advance (count : BitVec 4) (data : List Byte) (x : Slot) : Slot :=
  let next := x.nextIdx + 1
  { x with
    buf := x.buf.writeN x.len.toNat data
    len := x.len + BitVec.ofNat 7 data.length
    nextIdx := next
    age := 0
    ready := x.ready || next == count.setWidth 5 }

/-- One slot at the end of a round that did not advance it: a FILLING slot ages, saturating (42_reassembly.md R138). -/
def Slot.aged (x : Slot) : Slot := if x.isFilling then { x with age := satInc8 x.age } else x

/-- Aging (42_reassembly.md R138): every FILLING slot but the selected one. `j` is the index of the list's head. -/
def ageFrom (sel : Option Nat) : (j : Nat) → List Slot → List Slot
  | _, [] => []
  | j, x :: rest => (if sel = some j then x else x.aged) :: ageFrom sel (j + 1) rest

/-- Aging of the whole pool (42_reassembly.md R138). -/
def ageOthers (sel : Option Nat) (pool : List Slot) : List Slot := ageFrom sel 0 pool

/-- Whether slot `i` became READY (42_reassembly.md R137). -/
def takenStatus (i : Nat) (pool : List Slot) : Status :=
  match pool[i]? with
  | some x => if x.ready then .complete else .pending
  | none => .pending

/-- What a round leaves: the pool, the status and the `evicted` bit. -/
structure Round where
  pool    : List Slot
  status  : Status
  evicted : Bool
  deriving DecidableEq, Repr

/-- `rx_frame(h, dlc, data)` (42_reassembly.md R131). -/
def rxFrame (c : Config) (f : RawFrame) (pool : List Slot) : Round :=
  match select c f pool with
  | .drop st => ⟨ageOthers none pool, st, false⟩
  | .take i p ev =>
    let p := p.modify i (Slot.advance (hdrDec f.h).count f.data)
    ⟨ageOthers (some i) p, takenStatus i p, ev⟩

/-! ### POLL -/

/-- `POLL` (42_reassembly.md R130). -/
def pollOn (c : Config) : State → State :=
  gate fun s =>
    match s.rxAnswer with
    | none => reply (resultOf .empty) (rawRx s)
    | some f =>
      let r := rxFrame c f s.pool
      reply (resultOf r.status (evicted := r.evicted)) ((rawRx s).setPool r.pool)

/-- The meaning of `POLL`. -/
def execPoll (s : State) : Host.Outcome State Fault Refusal := .next (pollOn Config.mfe s)

/-! ### RECV -/

/-- The message a slot holds: the `len` bytes of its buffer (42_reassembly.md R140). -/
def Slot.message (x : Slot) : List Byte := x.buf.readN 0 x.len.toNat

/-- `drain()` (42_reassembly.md R140): the message of the lowest READY slot, and the pool with that slot clean. -/
def drain (pool : List Slot) : Option (List Byte × List Slot) :=
  match firstSlot Slot.isReady pool with
  | none => none
  | some i => (pool[i]?).map fun x => (x.message, pool.modify i Slot.clean)

/-- `RECV` (42_reassembly.md R140). -/
def recvOn : State → State :=
  gate fun s =>
    match drain s.pool with
    | none => reply (resultOf .empty) s
    | some (m, pool) =>
      reply (resultOf .ok (n := BitVec.ofNat 8 m.length)) ((s.setPool pool).setRxb (s.rxb.writeN 0 m))

/-- The meaning of `RECV`. -/
def execRecv (s : State) : Host.Outcome State Fault Refusal := .next (recvOn s)

end Sys2Proof.Machine
end

