-- ==== Sys2Proof/Machine/System.lean ====
section
/-! DEFINITION. The system commands (44_system.md), the reserved opcodes, and the two things the outside does to the MFE
beside commands and confirmations: writing TXB and reset. -/

namespace Sys2Proof.Machine

/-- `INIT` (44_system.md R180): the engine state is re-initialised whatever the driver answers; `NODE_ADDR` is kept. -/
def initOn : State → State :=
  gate fun s =>
    let s1 := (((s.setPool (s.pool.map Slot.clean)).setMsgIdCtr 0).setErrVersionCnt 0).setErrLengthCnt 0
    if s1.initAnswer then reply (resultOf .ok) (rawInit s1) else raise .initFail (rawInit s1)

/-- `SET_ADDR` (44_system.md R181). -/
def setAddrOn (addr : BitVec 8) : State → State :=
  gate fun s => reply (resultOf .ok) (s.setNodeAddr addr)

/-- `GET_ADDR` (44_system.md R182). -/
def getAddrOn : State → State :=
  gate fun s => reply (resultOf .ok (val := s.nodeAddr.setWidth 32)) s

/-- `RD_STAT` (44_system.md R183). -/
def rdStatOn (c : Config) (idx : BitVec 8) : State → State :=
  gate fun s =>
    match statusRegister c idx s with
    | none => raise .badCmd s
    | some v => reply (resultOf .ok (val := v)) s

/-- The meaning of `INIT`. -/
def execInit (s : State) : Host.Outcome State Fault Refusal := .next (initOn s)

/-- The meaning of `SET_ADDR`. -/
def execSetAddr (addr : BitVec 8) (s : State) : Host.Outcome State Fault Refusal := .next (setAddrOn addr s)

/-- The meaning of `GET_ADDR`. -/
def execGetAddr (s : State) : Host.Outcome State Fault Refusal := .next (getAddrOn s)

/-- The meaning of `RD_STAT`. -/
def execRdStat (idx : BitVec 8) (s : State) : Host.Outcome State Fault Refusal := .next (rdStatOn Config.mfe idx s)

/-- A command word with a reserved opcode: `BAD_CMD`, or `BUSY` during a send (44_system.md R185). -/
def reservedOpcode : State → State := gate (raise .badCmd)

/-- The host writes one byte of TXB (20_memory.md R52). -/
def hostWriteTxb (a : Nat) (b : Byte) (s : State) : State := s.setTxb (s.txb.write a b)

/-- The reset input (70_reset_and_hazards.md R230, 10_state.md R39): the MFE's state is the reset state and a send in
flight is abandoned without a result. The host's TXB and RXB, the driver and what was put out before stay (log 11). -/
def hardReset (c : Config) (s : State) : State :=
  { State.resetOf c with
    txb := s.txb, rxb := s.rxb, inputs := s.inputs, driver := s.driver, results := s.results, port := s.port }

end Sys2Proof.Machine
end

