-- ==== Sys2Proof/Machine/Validator.lean ====
section
/-! DEFINITION. The frame validator (43_validator.md): `HAL_RECV`. -/

namespace Sys2Proof.Machine

/-- The validator's verdict (43_validator.md R161). -/
inductive Verdict where
  | accept (d : Nat)
  | rejectVersion
  | rejectLength
  deriving DecidableEq, Repr

/-- The length a message of declared length `d` has when its last fragment is padded to a full chunk (43_validator.md
R164). -/
def paddedLen (d : Nat) : Nat := ceilDiv d Config.chunk * Config.chunk

/-- `validate(n, m)` with `n` the number of bytes of `m` (43_validator.md R161). -/
def validate (c : Config) (m : List Byte) : Verdict :=
  if m.length < c.msgMinLen then .rejectLength
  else if c.verOf m ≠ c.protocolVersion then .rejectVersion
  else if m.length = c.declaredLenOf m then .accept (c.declaredLenOf m)
  else if m.length = paddedLen (c.declaredLenOf m) then .accept (c.declaredLenOf m)
  else .rejectLength

/-- `HAL_RECV` (43_validator.md R160). -/
def halRecvOn (c : Config) : State → State :=
  gate fun s =>
    match drain s.pool with
    | none => reply (resultOf .empty) s
    | some (m, pool) =>
      match validate c m with
      | .rejectVersion => raise .errVersion ((s.setPool pool).setErrVersionCnt (satInc8 s.errVersionCnt))
      | .rejectLength => raise .errLength ((s.setPool pool).setErrLengthCnt (satInc8 s.errLengthCnt))
      | .accept d =>
        reply (resultOf .ok (n := BitVec.ofNat 8 d)) ((s.setPool pool).setRxb (s.rxb.writeN 0 (m.take d)))

/-- The meaning of `HAL_RECV`. -/
def execHalRecv (s : State) : Host.Outcome State Fault Refusal := .next (halRecvOn Config.mfe s)

end Sys2Proof.Machine
end

