-- ==== Sys2Proof/Machine/Dispatch.lean ====
section
/-! DEFINITION. One arm per command: the meaning it calls. -/

namespace Sys2Proof.Machine

-- The ten commands of 30_encoding.md R81.
def exec (i : Instr) (s : State) : Host.Outcome State Fault Refusal :=
  match i with
  | .hdrEnc id count idx dest src => Sys2Proof.Machine.execHdrEnc id count idx dest src s
  | .hdrDec word => Sys2Proof.Machine.execHdrDec word s
  | .send dest len noack => Sys2Proof.Machine.execSend dest len noack s
  | .poll => Sys2Proof.Machine.execPoll s
  | .recv => Sys2Proof.Machine.execRecv s
  | .halRecv => Sys2Proof.Machine.execHalRecv s
  | .init => Sys2Proof.Machine.execInit s
  | .setAddr addr => Sys2Proof.Machine.execSetAddr addr s
  | .getAddr => Sys2Proof.Machine.execGetAddr s
  | .rdStat idx => Sys2Proof.Machine.execRdStat idx s

end Sys2Proof.Machine
end

