-- ==== Sys2Proof/Machine/Command.lean ====
section
/-! DEFINITION. Taking a command word whole at acceptance (20_memory.md R63): decode it and execute it, or refuse a
reserved opcode. -/

namespace Sys2Proof.Machine

/-- Run a command word. -/
def runCommand (cw : CmdWord) (s : State) : Host.Outcome State Fault Refusal :=
  match decode cw with
  | .command i => exec i s
  | .reservedOpcode _ => .next (reservedOpcode s)

/-- The driver answers the offered frame; there must be one (41_fragmentation.md R119; log 6). -/
def runConfirm (ok : Bool) (s : State) : Host.Outcome State Fault Refusal :=
  if s.tx.busy then .next (txConfirm Config.mfe ok s) else .fault .confirmWithoutOffer

/-- The host writes a byte of TXB; it must exist (20_memory.md R50; log 7). -/
def runHostWrite (a : Nat) (b : Byte) (s : State) : Host.Outcome State Fault Refusal :=
  if a < Config.mfe.maxMsg then .next (hostWriteTxb a b s) else .fault .txbAddress

/-- The next input happens. -/
def runInput (i : Input) (s : State) : Host.Outcome State Fault Refusal :=
  match i with
  | .command cw => runCommand cw s
  | .txConfirm ok => runConfirm ok s
  | .hostWrite a b => runHostWrite a b s
  | .reset => .next (hardReset Config.mfe s)

/-- Put a command word at the head of the inputs, so that it is the next thing to happen. -/
def presentCommand (cw : CmdWord) (s : State) : State := s.setInputs (.command cw :: s.inputs)

end Sys2Proof.Machine
end

