-- ==== Sys2Proof/Machine/Step.lean ====
section
/-! DEFINITION. One transition of the machine: the next input happens (00_scope.md R17, 20_memory.md R59). -/

namespace Sys2Proof.Machine

/-- One step: the oldest input that has not happened yet is taken and happens. When there is none the MFE waits: nothing
changes (log 4). -/
def step (s : State) : Host.Outcome State Fault Refusal :=
  match s.inputs with
  | [] => .next s
  | i :: rest => runInput i (s.setInputs rest)

/-- The state in which the host presents the command word that a table word stands for, before all other inputs
(log 14). -/
def State.withFetchWord (s : State) (nbits w : Nat) : State := presentCommand (tableWord nbits w) s

end Sys2Proof.Machine
end

