-- ==== Sys2Proof/Safety.lean ====
section
/-! DEFINITION. The terms in which claims speak of the machine: the invariant of 10_state.md R24 and what belongs to it,
the slot states (R23), and when two states look alike to the host and to the driver (R25, R32). -/

namespace Sys2Proof.Machine

/-! ### The invariant -/

/-- A byte space of the instance: in canonical form, and no byte at or beyond `MAX_MSG` (20_memory.md R50, R58). -/
structure Memory.Sized (c : Config) (m : Memory) : Prop where
  canonical : m.wf = true
  inside : m.within c.maxMsg = true

/-- The slot invariants (10_state.md R24, by its numbers). -/
structure Slot.Inv (c : Config) (x : Slot) : Prop where
  /-- (1) -/
  locked_of_ready : x.ready = true → x.locked = true
  /-- (2) -/
  zero_of_unlocked : x.locked = false → x.src = 0 ∧ x.msgId = 0 ∧ x.nextIdx = 0 ∧ x.len = 0 ∧ x.age = 0 ∧ x.ready = false
  /-- (3), first half -/
  len_le_max : x.len.toNat ≤ c.maxMsg
  /-- (3), second half -/
  len_le_chunks : x.len.toNat ≤ x.nextIdx.toNat * Config.chunk
  /-- (4) -/
  next_le : x.nextIdx.toNat ≤ 16
  /-- (5) -/
  next_pos : x.locked = true → 1 ≤ x.nextIdx.toNat
  /-- (6) -/
  next_of_ready : x.ready = true → x.nextIdx.toNat ≤ 15 ∧ x.age = 0
  /-- The slot's buffer has `MAX_MSG` bytes (10_state.md R27). -/
  buffer : x.buf.Sized c

/-- The sequencer of a send in flight holds an accepted message (10_state.md R32, R33; 41_fragmentation.md R111, R113). -/
structure Tx.Inv (c : Config) (t : Tx) : Prop where
  len_pos : t.busy = true → 1 ≤ t.len.toNat
  len_le_max : t.busy = true → t.len.toNat ≤ c.maxMsg
  count_eq : t.busy = true → t.count.toNat = fragCount t.len.toNat
  idx_lt : t.busy = true → t.idx.toNat < t.count.toNat
  /-- `TXL` has `MAX_MSG` bytes. -/
  buffer : t.latch.Sized c

/-- The invariant of the machine: `POOL_N` slots, each as 10_state.md R24 says, a sequencer that holds an accepted
message whose id is the counter's (R28), and byte spaces of `MAX_MSG` bytes. -/
structure State.Inv (s : State) : Prop where
  pool_length : s.pool.length = Config.mfe.poolN
  slots : ∀ x ∈ s.pool, x.Inv Config.mfe
  sequencer : s.tx.Inv Config.mfe
  id_of_busy : s.tx.busy = true → s.tx.id = s.msgIdCtr
  txb : s.txb.Sized Config.mfe
  rxb : s.rxb.Sized Config.mfe

/-! ### The slot states -/

/-- The three slot states, and the fourth combination of the two bits (10_state.md R23). -/
inductive Phase where
  | free | filling | ready | unreachable
  deriving DecidableEq, Repr

/-- The state a slot is in (10_state.md R23). -/
def Slot.phase (x : Slot) : Phase :=
  match x.locked, x.ready with
  | false, false => .free
  | true, false => .filling
  | true, true => .ready
  | false, true => .unreachable

/-- A slot that has nothing to do with a message any more: the seven scalars are 0 (10_state.md R25). -/
def Slot.isClean (x : Slot) : Prop :=
  x.locked = false ∧ x.ready = false ∧ x.src = 0 ∧ x.msgId = 0 ∧ x.nextIdx = 0 ∧ x.len = 0 ∧ x.age = 0

/-! ### What the outside can see -/

/-- Two slots that differ only in buffer bytes at or beyond `len` (10_state.md R25: "no rule ever reads a byte of `buf`
at or beyond `len`"). -/
structure Slot.LooksLike (x y : Slot) : Prop where
  locked : x.locked = y.locked
  ready : x.ready = y.ready
  src : x.src = y.src
  msgId : x.msgId = y.msgId
  nextIdx : x.nextIdx = y.nextIdx
  len : x.len = y.len
  age : x.age = y.age
  bytes : ∀ a, a < x.len.toNat → x.buf.read a = y.buf.read a

/-- Two sequencers that are both idle, or hold the same message (10_state.md R32: "When `tx.busy = 0` the other
registers have no meaning and no rule reads them"). -/
structure Tx.LooksLike (t u : Tx) : Prop where
  busy : t.busy = u.busy
  dest : t.busy = true → t.dest = u.dest
  id : t.busy = true → t.id = u.id
  count : t.busy = true → t.count = u.count
  idx : t.busy = true → t.idx = u.idx
  len : t.busy = true → t.len = u.len
  bytes : t.busy = true → ∀ a, a < t.len.toNat → t.latch.read a = u.latch.read a

/-- Two states that differ only in what the spec leaves unspecified and says no rule reads (10_state.md R25, R32, R39;
93_implementation_defined.md U18, U19). -/
structure State.LooksLike (s t : State) : Prop where
  pool : List.Forall₂ Slot.LooksLike s.pool t.pool
  msgIdCtr : s.msgIdCtr = t.msgIdCtr
  nodeAddr : s.nodeAddr = t.nodeAddr
  errVersionCnt : s.errVersionCnt = t.errVersionCnt
  errLengthCnt : s.errLengthCnt = t.errLengthCnt
  tx : s.tx.LooksLike t.tx
  txb : s.txb = t.txb
  rxb : s.rxb = t.rxb
  inputs : s.inputs = t.inputs
  driver : s.driver = t.driver
  results : s.results = t.results
  port : s.port = t.port

/-! ### Scans, and which command did it -/

/-- Slot `i` is `x`, satisfies `p`, and no slot of lower index does (00_scope.md R16, `first i ... with P(i)`). -/
def IsFirst (p : Slot → Bool) (pool : List Slot) (i : Nat) (x : Slot) : Prop :=
  pool[i]? = some x ∧ p x = true ∧ ∀ (j : Nat) (y : Slot), j < i → pool[j]? = some y → p y = false

/-- What `step` is about to take is a command word that decodes to `i`, and no send is in flight. -/
def Executes (s : State) (i : Instr) : Prop :=
  s.tx.busy = false ∧ ∃ cw rest, s.inputs = .command cw :: rest ∧ decode cw = .command i

/-- What `step` is about to take is the reset input. -/
def IsResetting (s : State) : Prop := ∃ rest, s.inputs = .reset :: rest

/-- The statuses a command can return beside `BUSY` (60_exceptions.md R201, column "returned by"; the result of an
accepted `SEND` is returned by a TX_CONFIRM). -/
def statusesOf : Instr → List Status
  | .hdrEnc _ _ _ _ _ => [.ok]
  | .hdrDec _ => [.ok]
  | .send _ _ _ => [.badLen]
  | .poll => [.empty, .pending, .complete, .dropUnmatched, .dropNoSlot, .dropOverflow, .dropBadDlc]
  | .recv => [.ok, .empty]
  | .halRecv => [.ok, .empty, .errVersion, .errLength]
  | .init => [.ok, .initFail]
  | .setAddr _ => [.ok]
  | .getAddr => [.ok]
  | .rdStat _ => [.ok, .badCmd]

/-- The bits of its command word that a command's row names (30_encoding.md R81, R83). -/
def namedBits : Instr → CmdWord
  | .hdrEnc _ _ _ _ _ => 0xFFFFFFFFFFFF
  | .hdrDec _ => 0xFF00FFFFFFFF
  | .send _ _ _ => 0xFF000001FFFF
  | .poll => 0xFF0000000000
  | .recv => 0xFF0000000000
  | .halRecv => 0xFF0000000000
  | .init => 0xFF0000000000
  | .setAddr _ => 0xFF00000000FF
  | .getAddr => 0xFF0000000000
  | .rdStat _ => 0xFF00000000FF

/-- What a slot may become in one step (42_reassembly.md R141): `x` is slot `i` before, `y` after. -/
def SlotTransition (s : State) (i : Nat) (x y : Slot) : Prop :=
  match x.phase, y.phase with
  | .free, .free => y.isClean
  | .free, .filling =>
    Executes s .poll ∧ ∃ f, s.rxAnswer = some f ∧ (hdrDec f.h).idx = 0 ∧ (hdrDec f.h).count ≠ 1 ∧
      IsFirst Slot.isFree s.pool i x
  | .free, .ready =>
    Executes s .poll ∧ ∃ f, s.rxAnswer = some f ∧ (hdrDec f.h).idx = 0 ∧ (hdrDec f.h).count = 1 ∧
      IsFirst Slot.isFree s.pool i x
  | .filling, .free => Executes s .init ∨ IsResetting s
  | .filling, .filling =>
    y = x ∨ (Executes s .poll ∧ ∃ f, s.rxAnswer = some f ∧
      (y = x.aged ∨
       (IsFirst (Slot.matches (hdrDec f.h)) s.pool i x ∧ (hdrDec f.h).idx ≠ 0 ∧
          y.nextIdx.toNat = x.nextIdx.toNat + 1 ∧ (hdrDec f.h).count.toNat ≠ x.nextIdx.toNat + 1) ∨
       ((hdrDec f.h).idx = 0 ∧ (hdrDec f.h).count ≠ 1 ∧ evictCandidate s.pool = some i ∧
          (∀ z ∈ s.pool, z.locked = true) ∧ y.src = (hdrDec f.h).src ∧ y.msgId = (hdrDec f.h).id ∧ y.nextIdx = 1)))
  | .filling, .ready =>
    Executes s .poll ∧ ∃ f, s.rxAnswer = some f ∧
      ((IsFirst (Slot.matches (hdrDec f.h)) s.pool i x ∧ (hdrDec f.h).idx ≠ 0 ∧
          (hdrDec f.h).count.toNat = x.nextIdx.toNat + 1) ∨
       ((hdrDec f.h).idx = 0 ∧ (hdrDec f.h).count = 1 ∧ evictCandidate s.pool = some i ∧
          (∀ z ∈ s.pool, z.locked = true) ∧ y.src = (hdrDec f.h).src ∧ y.msgId = (hdrDec f.h).id ∧ y.nextIdx = 1))
  | .ready, .free =>
    ((Executes s .recv ∨ Executes s .halRecv) ∧ IsFirst Slot.isReady s.pool i x) ∨ Executes s .init ∨ IsResetting s
  | .ready, .ready => y = x
  | _, _ => False

/-! ### Runs of frames and of answers -/

/-- The pool after a list of frames has been taken, one round each (42_reassembly.md R131). -/
def deliver (c : Config) : List RawFrame → List Slot → List Slot
  | [], pool => pool
  | f :: rest, pool => deliver c rest (rxFrame c f pool).pool

/-- The slot that the round of a frame evicts, if it evicts one (42_reassembly.md R133). -/
def evictedBy (c : Config) (f : RawFrame) (pool : List Slot) : Option Nat :=
  match select c f pool with
  | .take i _ true => some i
  | _ => none

/-- Slot `i` is not evicted while a list of frames is taken. -/
def NotEvicted (c : Config) (i : Nat) : List RawFrame → List Slot → Prop
  | [], _ => True
  | f :: rest, pool => evictedBy c f pool ≠ some i ∧ NotEvicted c i rest (rxFrame c f pool).pool

/-- The frames of one message: of source `src` and id `id` (42_reassembly.md R134). -/
def RawFrame.isOf (src : BitVec 8) (id : BitVec 3) (f : RawFrame) : Bool :=
  (hdrDec f.h).src == src && (hdrDec f.h).id == id

/-- The frames of a message of `len` bytes, in order (41_fragmentation.md R121). -/
def wireImage (c : Config) (id : BitVec 3) (dest nodeAddr : BitVec 8) (payload : Memory) (len : Nat) : List RawFrame :=
  (List.range (fragCount len)).map (fragment c id dest nodeAddr payload len)

/-- Whether an input is a confirmation. -/
def Input.isConfirm : Input → Bool
  | .command _ => false
  | .txConfirm _ => true
  | .hostWrite _ _ => false
  | .reset => false

/-- Whether an input is a byte that the host writes to TXB. -/
def Input.isHostWrite : Input → Bool
  | .command _ => false
  | .txConfirm _ => false
  | .hostWrite _ _ => true
  | .reset => false

/-- The driver's answers to one message, complete: all true, or true up to the first false (41_fragmentation.md R116). -/
def completeAnswers (count : Nat) (answers : List Bool) : Prop :=
  answers = List.replicate count true ∨
    ∃ k, k < count ∧ answers = List.replicate k true ++ [false]

end Sys2Proof.Machine
end

