-- ==== Sys2Proof/WellFormed.lean ====
section
/-! DEFINITION. Which commands and raw frames are well formed. The operand widths are in the types of `Instr` and of
`RawFrame` (30_encoding.md R76), so what is left to check is what 30_encoding.md R88 calls an illegal operand or a
reserved index. Such a command still has a meaning (`BAD_LEN`, `BAD_CMD`, `DROP_BADDLC`): this file only says which they
are. -/

namespace Sys2Proof

/-- A command whose operands are legal in an instance (30_encoding.md R88): `SEND` wants `1 <= len <= MAX_MSG`,
`RD_STAT` an index up to 10. -/
def Instr.wf (c : Config) : Instr → Bool
  | .hdrEnc _ _ _ _ _ => true
  | .hdrDec _ => true
  | .send _ len _ => decide (1 ≤ len.toNat) && decide (len.toNat ≤ c.maxMsg)
  | .poll => true
  | .recv => true
  | .halRecv => true
  | .init => true
  | .setAddr _ => true
  | .getAddr => true
  | .rdStat idx => decide (idx.toNat ≤ 10)

/-- A raw frame that a receiver takes (30_encoding.md R77: `dlc` up to `CHUNK`). -/
def RawFrame.legal (f : RawFrame) : Bool := decide (f.dlc.toNat ≤ Config.chunk)

end Sys2Proof
end

