-- ==== Sys2Proof/Certificates/Slice0/Obligations.lean ====
section
/-! DEFINITION. The statements for the provers. A result record is written out as
`⟨status, flag, evicted, n, val⟩` (30_encoding.md R84), and a frame the MFE makes as `.ofBytes header bytes`. -/

open Sys2Proof Sys2Proof.Machine

/-! ### Encoding (30_encoding.md R80 to R83) -/

/-- The command words of 30_encoding.md R86, written out by hand, decode to the commands they stand for. -/
def Obligations.CommandWordsDecodeAsWritten : Prop :=
  decode 0x01090301002A = .command (.hdrEnc 9 3 1 0 42) ∧
  decode 0x02008131002A = .command (.hdrDec 0x8131002A) ∧
  decode 0x030000001407 = .command (.send 7 20 false) ∧
  decode 0x030000010107 = .command (.send 7 1 true) ∧
  decode 0x040000000000 = .command .poll ∧
  decode 0x050000000000 = .command .recv ∧
  decode 0x060000000000 = .command .halRecv ∧
  decode 0x070000000000 = .command .init ∧
  decode 0x08000000002A = .command (.setAddr 42) ∧
  decode 0x090000000000 = .command .getAddr ∧
  decode 0x0A0000000002 = .command (.rdStat 2)

/-- Decoding the canonical word of any command, with any operands, gives that command back (30_encoding.md R81, R83). -/
def Obligations.DecodeAfterEncodeIsIdentity : Prop :=
  ∀ i : Instr, decode (encode i) = .command i

/-- 30_encoding.md R83: a command depends only on the bits its row names, and its canonical word has the other bits 0. -/
def Obligations.OnlyNamedBitsOfCommandWordMatter : Prop :=
  ∀ (cw cw' : CmdWord) (i : Instr), decode cw = .command i →
    encode i = cw &&& namedBits i ∧ (cw' &&& namedBits i = cw &&& namedBits i → decode cw' = .command i)

/-- 30_encoding.md R82, 44_system.md R185: opcodes 0x00 and 0x0B to 0xFF return `BAD_CMD`, or `BUSY` during a send, and
change nothing else. -/
def Obligations.ReservedOpcodesReturnBadCmd : Prop :=
  ∀ (s : State) (cw : CmdWord) (rest : List Input),
    s.inputs = .command cw :: rest → (cw.toNat / 2 ^ 40 = 0 ∨ 0x0B ≤ cw.toNat / 2 ^ 40) →
    step s = .next { s with
      inputs := rest
      results := s.results ++ [⟨if s.tx.busy then .busy else .badCmd, false, false, 0, 0⟩] }

/-! ### The step (20_memory.md R59, R61, R63) -/

/-- A step with a command word waiting is `exec` of the decoded command (20_memory.md R59, R63). The second clause says the
same of the step that runs a table word; that `withFetchWord` presents such a word is the model's choice (log 14). -/
def Obligations.StepRunsTheDecodedCommand : Prop :=
  (∀ (s : State) (cw : CmdWord) (rest : List Input) (i : Instr),
    s.inputs = .command cw :: rest → decode cw = .command i → step s = exec i { s with inputs := rest }) ∧
  (∀ (s : State) (i : Instr), step (s.withFetchWord 48 (encode i).toNat) = exec i s)

/-- What a step does when nothing is waiting, with a confirmation while no frame is offered, and with a byte for TXB. That
an idle step changes nothing and that the two misplaced inputs fault is the model's choice (log 4, log 6, log 7). -/
def Obligations.IdleStepsMisplacedInputsAndHostWrites : Prop :=
  (∀ s : State, s.inputs = [] → step s = .next s) ∧
  (∀ (s : State) (ok : Bool) (rest : List Input), s.inputs = .txConfirm ok :: rest → s.tx.busy = false →
    step s = .fault .confirmWithoutOffer) ∧
  (∀ (s : State) (a : Nat) (b : Byte) (rest : List Input), s.inputs = .hostWrite a b :: rest →
    a < Config.mfe.maxMsg → ∃ m, step s = .next { s with inputs := rest, txb := m } ∧
      ∀ k, m.read k = if k = a then b else s.txb.read k) ∧
  (∀ (s : State) (a : Nat) (b : Byte) (rest : List Input), s.inputs = .hostWrite a b :: rest →
    Config.mfe.maxMsg ≤ a → step s = .fault .txbAddress)

/-- No command stops the machine (60_exceptions.md R200): each returns exactly one result record at once, but
for an accepted `SEND`, which sets `tx.busy` and returns none yet (41_fragmentation.md R118). -/
def Obligations.NoCommandStopsTheEngine : Prop :=
  ∀ (i : Instr) (s : State), ∃ t, exec i s = .next t ∧ t.inputs = s.inputs ∧
    ((t.tx.busy = s.tx.busy ∧ ∃ r, t.results = s.results ++ [r]) ∨
     (∃ dest len noack, i = .send dest len noack ∧ s.tx.busy = false ∧ t.tx.busy = true ∧ t.results = s.results))

/-- 44_system.md R186, 60_exceptions.md R213: while a send is in flight every command word, whatever its opcode, gets
`BUSY` and changes nothing else. -/
def Obligations.BusyGateRefusesEveryCommandWord : Prop :=
  ∀ (s : State) (cw : CmdWord) (rest : List Input), s.inputs = .command cw :: rest → s.tx.busy = true →
    step s = .next { s with inputs := rest, results := s.results ++ [⟨.busy, false, false, 0, 0⟩] }

/-- 60_exceptions.md R201: the numbers of the status codes; no two names share a number. -/
def Obligations.StatusCodesAreTheTable : Prop :=
  [Status.ok, .empty, .pending, .complete, .dropUnmatched, .dropNoSlot, .dropOverflow, .dropBadDlc, .errVersion,
    .errLength, .sendFail, .badLen, .initFail, .busy, .badCmd].map Status.code =
  [0x00, 0x01, 0x02, 0x03, 0x10, 0x11, 0x12, 0x13, 0x20, 0x21, 0x30, 0x31, 0x32, 0x3E, 0x3F] ∧
  ∀ a b : Status, a.code = b.code → a = b

/-- 60_exceptions.md R201 and 30_encoding.md R84: which statuses each command returns, that `flag` is 1 exactly for `OK`
and `COMPLETE`, and which fields of the result record a command may set. -/
def Obligations.ResultsAreOfTheCommand : Prop :=
  ∀ (i : Instr) (s t : State) (r : Result), exec i s = .next t → t.results = s.results ++ [r] →
    (if s.tx.busy then r.status = .busy else r.status ∈ statusesOf i) ∧
    (r.flag = true ↔ r.status = .ok ∨ r.status = .complete) ∧
    (r.evicted = true → i = .poll ∧ (r.status = .pending ∨ r.status = .complete)) ∧
    (r.n ≠ 0 → r.status = .ok ∧ (i = .recv ∨ i = .halRecv)) ∧
    (r.val ≠ 0 → r.status = .ok ∧ ((∃ a b c d e, i = .hdrEnc a b c d e) ∨ (∃ w, i = .hdrDec w) ∨ i = .getAddr ∨
      ∃ x, i = .rdStat x))

/-! ### Header Codec (40_header_codec.md) -/

/-- 30_encoding.md R72, 40_header_codec.md R100: `HDR_ENC` returns the header whose 32 bits are these, and writes no
state; during a send it returns `BUSY`. -/
def Obligations.HdrEncPacksTheHeader : Prop :=
  ∀ (id count idx dest src : BitVec 8) (s : State),
    (s.tx.busy = false → ∃ h : Header,
      exec (.hdrEnc id count idx dest src) s =
        .next { s with results := s.results ++ [⟨.ok, true, false, 0, h⟩] } ∧
      h.extractLsb' 0 8 = src ∧ h.extractLsb' 8 8 = dest ∧ (h.extractLsb' 16 4).toNat = idx.toNat % 16 ∧
      (h.extractLsb' 20 4).toNat = count.toNat % 16 ∧ (h.extractLsb' 24 3).toNat = id.toNat % 8 ∧
      h.extractLsb' 27 3 = 0 ∧ h.extractLsb' 30 2 = Config.mfe.framing) ∧
    (s.tx.busy = true → exec (.hdrEnc id count idx dest src) s =
      .next { s with results := s.results ++ [⟨.busy, false, false, 0, 0⟩] })

/-- 40_header_codec.md R101: `HDR_DEC` returns the five fields of the word at their places and 0 in bits 31:27, whatever
bits 31:27 of the word are, and writes no state; during a send it returns `BUSY`. -/
def Obligations.HdrDecUnpacksTheHeader : Prop :=
  ∀ (h : Header) (s : State),
    (s.tx.busy = false → ∃ v : BitVec 32,
      exec (.hdrDec h) s = .next { s with results := s.results ++ [⟨.ok, true, false, 0, v⟩] } ∧
      v.extractLsb' 0 8 = h.extractLsb' 0 8 ∧ v.extractLsb' 8 8 = h.extractLsb' 8 8 ∧
      v.extractLsb' 16 4 = h.extractLsb' 16 4 ∧ v.extractLsb' 20 4 = h.extractLsb' 20 4 ∧
      v.extractLsb' 24 3 = h.extractLsb' 24 3 ∧ v.extractLsb' 27 5 = 0) ∧
    (s.tx.busy = true → exec (.hdrDec h) s =
      .next { s with results := s.results ++ [⟨.busy, false, false, 0, 0⟩] })

/-- 40_header_codec.md R102: the round-trip law, for every value of `FRAMING`. -/
def Obligations.HeaderDecodeAfterEncodeTruncates : Prop :=
  ∀ (c : Config) (id count idx dest src : BitVec 8),
    (hdrDec (hdrEnc c id count idx dest src)).src = src ∧
    (hdrDec (hdrEnc c id count idx dest src)).dest = dest ∧
    (hdrDec (hdrEnc c id count idx dest src)).idx.toNat = idx.toNat % 16 ∧
    (hdrDec (hdrEnc c id count idx dest src)).count.toNat = count.toNat % 16 ∧
    (hdrDec (hdrEnc c id count idx dest src)).id.toNat = id.toNat % 8

/-- 40_header_codec.md R103: encoding a decoded word puts `FRAMING` over bits 31:30 and 0 over bits 29:27, so it is the
identity exactly on the words the packer can produce; decoding forgets bits 31:27 and nothing else. -/
def Obligations.HeaderEncodeAfterDecodeReframes : Prop :=
  ∀ (c : Config) (h h' : Header),
    (hdrEnc c ((hdrDec h).id.setWidth 8) ((hdrDec h).count.setWidth 8) ((hdrDec h).idx.setWidth 8) (hdrDec h).dest
      (hdrDec h).src = (c.framing.setWidth 32 <<< 30) ||| (h &&& 0x07FFFFFF)) ∧
    (hdrEnc c ((hdrDec h).id.setWidth 8) ((hdrDec h).count.setWidth 8) ((hdrDec h).idx.setWidth 8) (hdrDec h).dest
      (hdrDec h).src = h ↔ h.extractLsb' 30 2 = c.framing ∧ h.extractLsb' 27 3 = 0) ∧
    (hdrDec h = hdrDec h' ↔ h &&& 0x07FFFFFF = h' &&& 0x07FFFFFF)

/-- 42_reassembly.md R144: a round does not look at the destination; nor at bits 31:27 (30_encoding.md R74, R75). -/
def Obligations.RoundIgnoresDestinationAndReservedBits : Prop :=
  ∀ (c : Config) (pool : List Slot) (f f' : RawFrame), f.h &&& 0x07FF00FF = f'.h &&& 0x07FF00FF → f.data = f'.data →
    rxFrame c f pool = rxFrame c f' pool

/-! ### Fragmentation Engine (41_fragmentation.md) -/

/-- 41_fragmentation.md R111: `SEND` is accepted exactly when no send is in flight and `1 <= len <= MAX_MSG`; a refused
`SEND` changes nothing, and busy is tested before the length. -/
def Obligations.SendIsAcceptedExactlyForLegalLengths : Prop :=
  ∀ (dest len : BitVec 8) (noack : Bool) (s : State),
    (s.tx.busy = true → exec (.send dest len noack) s =
      .next { s with results := s.results ++ [⟨.busy, false, false, 0, 0⟩] }) ∧
    (s.tx.busy = false → (len.toNat = 0 ∨ Config.mfe.maxMsg < len.toNat) → exec (.send dest len noack) s =
      .next { s with results := s.results ++ [⟨.badLen, false, false, 0, 0⟩] }) ∧
    (s.tx.busy = false → 1 ≤ len.toNat → len.toNat ≤ Config.mfe.maxMsg →
      ∃ t, exec (.send dest len noack) s = .next t ∧ t.tx.busy = true ∧ t.results = s.results)

/-- 41_fragmentation.md R118 (R112, R113, R115): what an accepted `SEND` writes. The payload is latched, the advanced
counter is the message's id, fragment 0 is offered to the driver, no result is returned yet, and nothing else changes.
A refused one returns at once and changes nothing. -/
def Obligations.SendAcceptLatchesAndOffersFragmentZero : Prop :=
  ∀ (dest len : BitVec 8) (noack : Bool) (s : State),
    (s.tx.busy = false → 1 ≤ len.toNat → len.toNat ≤ Config.mfe.maxMsg →
      ∃ latch : Memory, exec (.send dest len noack) s = .next { s with
          msgIdCtr := s.msgIdCtr + 1
          tx := ⟨true, dest, s.msgIdCtr + 1, BitVec.ofNat 4 ((len.toNat + 7) / 8), 0, len.setWidth 7, latch⟩
          port := s.port ++ [.rawSend (.ofBytes
            (hdrEnc Config.mfe ((s.msgIdCtr + 1).setWidth 8) (BitVec.ofNat 8 ((len.toNat + 7) / 8)) 0 dest s.nodeAddr)
            (s.txb.readN 0 (min len.toNat 8)))] } ∧
        ∀ a, latch.read a = if a < len.toNat then s.txb.read a else s.tx.latch.read a) ∧
    (s.tx.busy = true ∨ len.toNat = 0 ∨ Config.mfe.maxMsg < len.toNat →
      exec (.send dest len noack) s = .next { s with
        results := s.results ++ [⟨if s.tx.busy then .busy else .badLen, false, false, 0, 0⟩] })

/-- 41_fragmentation.md R119: what the driver's answer to the offered frame does. The sequencer's other registers have
no meaning once the command has ended (10_state.md R32), so nothing is said of them there. -/
def Obligations.TxConfirmAdvancesOrEndsTheSend : Prop :=
  ∀ (s : State) (ok : Bool) (rest : List Input), s.inputs = .txConfirm ok :: rest → s.tx.busy = true →
    (ok = false → ∃ tx : Tx, tx.busy = false ∧ step s = .next { s with
      inputs := rest, tx := tx, port := s.port ++ [.sendAnswer false]
      results := s.results ++ [⟨.sendFail, false, false, s.tx.idx.setWidth 8, 0⟩] }) ∧
    (ok = true → s.tx.idx.toNat + 1 = s.tx.count.toNat → ∃ tx : Tx, tx.busy = false ∧ step s = .next { s with
      inputs := rest, tx := tx, port := s.port ++ [.sendAnswer true]
      results := s.results ++ [⟨.ok, true, false, s.tx.count.setWidth 8, 0⟩] }) ∧
    (ok = true → s.tx.idx.toNat + 1 < s.tx.count.toNat → step s = .next { s with
      inputs := rest, tx := { s.tx with idx := s.tx.idx + 1 }
      port := s.port ++ [.sendAnswer true, .rawSend (.ofBytes
        (hdrEnc Config.mfe (s.tx.id.setWidth 8) (s.tx.count.setWidth 8) (BitVec.ofNat 8 (s.tx.idx.toNat + 1)) s.tx.dest
          s.nodeAddr)
        (s.tx.latch.readN (8 * (s.tx.idx.toNat + 1)) (chunkLen s.tx.len.toNat (s.tx.idx.toNat + 1))))] })

/-- 30_encoding.md R78 (41_fragmentation.md R113, R114): a legal message is cut into 1 to 15 chunks, all of `CHUNK` bytes
but the last, which has the rest or a full chunk, and the chunks in order are exactly the message. -/
def Obligations.ChunksAreExactlyTheMessage : Prop :=
  ∀ (c : Config) (len : Nat), 1 ≤ len → len ≤ c.maxMsg →
    1 ≤ fragCount len ∧ fragCount len ≤ 15 ∧ len ≤ fragCount len * 8 ∧ (fragCount len - 1) * 8 < len ∧
    (∀ idx, chunkOff idx = idx * 8) ∧ (∀ idx, idx + 1 < fragCount len → chunkLen len idx = 8) ∧
    chunkLen len (fragCount len - 1) = (if len % 8 = 0 then 8 else len % 8) ∧
    ∀ m : Memory, (List.range (fragCount len)).flatMap (fun k => m.readN (chunkOff k) (chunkLen len k)) = m.readN 0 len

/-- 41_fragmentation.md R120: the step form and the atomic form of `SEND` agree. From a state whose inputs are the
command word and the driver's answers, complete, the steps leave what the atomic `SEND` leaves, but for the sequencer's
registers other than `tx.busy`. -/
def Obligations.SendStepFormAgreesWithAtomicForm : Prop :=
  ∀ (s : State) (dest len : BitVec 8) (noack : Bool) (answers : List Bool) (rest : List Input),
    s.tx.busy = false → 1 ≤ len.toNat → len.toNat ≤ Config.mfe.maxMsg →
    completeAnswers (fragCount len.toNat) answers →
    s.inputs = .command (encode (.send dest len noack)) :: (answers.map .txConfirm ++ rest) →
    ∃ t : State, Sys2Proof.core.run (answers.length + 1) s = .next t ∧
      t.tx.busy = (sendAtomic Config.mfe dest len answers { s with inputs := rest }).tx.busy ∧
      { t with tx := (sendAtomic Config.mfe dest len answers { s with inputs := rest }).tx } =
        sendAtomic Config.mfe dest len answers { s with inputs := rest }

/-- 41_fragmentation.md R121 (R112, R116, R117): the frames an accepted `SEND` offers, in order, up to the first that the
driver refuses, and the result it then returns. -/
def Obligations.SendOffersItsWireImage : Prop :=
  ∀ (s : State) (dest len : BitVec 8) (noack : Bool) (answers : List Bool) (rest : List Input),
    s.tx.busy = false → 1 ≤ len.toNat → len.toNat ≤ Config.mfe.maxMsg →
    completeAnswers (fragCount len.toNat) answers →
    s.inputs = .command (encode (.send dest len noack)) :: (answers.map .txConfirm ++ rest) →
    ∃ t : State, Sys2Proof.core.run (answers.length + 1) s = .next t ∧
      t.port = s.port ++ (List.range answers.length).flatMap (fun k =>
        [.rawSend (.ofBytes (hdrEnc Config.mfe ((s.msgIdCtr + 1).setWidth 8) (BitVec.ofNat 8 (fragCount len.toNat))
            (BitVec.ofNat 8 k) dest s.nodeAddr) (s.txb.readN (8 * k) (chunkLen len.toNat k))),
         .sendAnswer (answers.getD k false)]) ∧
      t.results = s.results ++ [if answers.all id
        then ⟨.ok, true, false, BitVec.ofNat 8 (fragCount len.toNat), 0⟩
        else ⟨.sendFail, false, false, BitVec.ofNat 8 (answers.length - 1), 0⟩] ∧
      t.msgIdCtr = s.msgIdCtr + 1 ∧ t.tx.busy = false ∧ t.pool = s.pool ∧ t.nodeAddr = s.nodeAddr ∧
      t.errVersionCnt = s.errVersionCnt ∧ t.errLengthCnt = s.errLengthCnt ∧ t.txb = s.txb ∧ t.rxb = s.rxb

/-- 41_fragmentation.md R122: `noack` has no effect, and both flags are always packed 0. -/
def Obligations.NoAckOperandIsIgnored : Prop :=
  (∀ (dest len : BitVec 8) (s : State), exec (.send dest len true) s = exec (.send dest len false) s) ∧
  ∀ (c : Config) (id count idx dest src : BitVec 8),
    (hdrEnc c id count idx dest src).getLsbD 27 = false ∧ (hdrEnc c id count idx dest src).getLsbD 28 = false

/-- 20_memory.md R52, R63: what the host writes to TXB after `SEND` has been accepted does not change what is sent or
returned. The two runs take the same confirmations, one with the host's writes between them and one without. -/
def Obligations.HostWritesDuringSendChangeNothingSent : Prop :=
  ∀ (s t u : State) (l : List Input), (∀ i ∈ l, i.isConfirm = true ∨ i.isHostWrite = true) →
    Sys2Proof.core.run l.length { s with inputs := l } = .next t →
    Sys2Proof.core.run (l.filter Input.isConfirm).length { s with inputs := l.filter Input.isConfirm } = .next u →
    t.port = u.port ∧ t.results = u.results ∧ t.tx = u.tx

/-! ### Who writes what, over the whole machine -/

/-- 10_state.md R28: `MSG_ID_CTR` is written only by an accepted `SEND`, which advances it by one and carries the new
value, by `INIT` and by reset, which put it to 0. -/
def Obligations.MsgIdCtrMovesOnlyBySendInitReset : Prop :=
  ∀ s t : State, step s = .next t → t.msgIdCtr ≠ s.msgIdCtr →
    (∃ dest len noack, Executes s (.send dest len noack) ∧ 1 ≤ len.toNat ∧ len.toNat ≤ Config.mfe.maxMsg ∧
      t.msgIdCtr = s.msgIdCtr + 1 ∧ t.tx.busy = true ∧ t.tx.id = t.msgIdCtr) ∨
    (Executes s .init ∧ t.msgIdCtr = 0) ∨ (IsResetting s ∧ t.msgIdCtr = 0)

/-- 10_state.md R29: `NODE_ADDR` is written only by `SET_ADDR`, with its operand, and by reset; `INIT` keeps it. -/
def Obligations.NodeAddrMovesOnlyBySetAddrReset : Prop :=
  ∀ s t : State, step s = .next t → t.nodeAddr ≠ s.nodeAddr →
    Executes s (.setAddr t.nodeAddr) ∨ (IsResetting s ∧ t.nodeAddr = Config.mfe.nodeAddrReset)

/-- 10_state.md R30, R31, 43_validator.md R166: an error counter moves only by a `HAL_RECV` that returns its status, by
exactly one, and is put to 0 by `INIT` and by reset. -/
def Obligations.ErrorCountersMoveOnlyByTheirReject : Prop :=
  ∀ s t : State, step s = .next t →
    (t.errVersionCnt ≠ s.errVersionCnt →
      (Executes s .halRecv ∧ t.results = s.results ++ [⟨.errVersion, false, false, 0, 0⟩] ∧
        t.errVersionCnt.toNat = s.errVersionCnt.toNat + 1) ∨
      ((Executes s .init ∨ IsResetting s) ∧ t.errVersionCnt = 0)) ∧
    (t.errLengthCnt ≠ s.errLengthCnt →
      (Executes s .halRecv ∧ t.results = s.results ++ [⟨.errLength, false, false, 0, 0⟩] ∧
        t.errLengthCnt.toNat = s.errLengthCnt.toNat + 1) ∨
      ((Executes s .init ∨ IsResetting s) ∧ t.errLengthCnt = 0))

/-- 10_state.md R26: only `POLL`, `RECV`, `HAL_RECV`, `INIT` and reset touch a slot. -/
def Obligations.SlotsAreTouchedOnlyByTheirCommands : Prop :=
  ∀ s t : State, step s = .next t → t.pool ≠ s.pool →
    Executes s .poll ∨ Executes s .recv ∨ Executes s .halRecv ∨ Executes s .init ∨ IsResetting s

/-- 20_memory.md R50: `TXB` is written only by the host, `RXB` only by a `RECV` or `HAL_RECV` that returns `OK`, `TXL`
only by an accepted `SEND` (and by reset, after which it is unspecified), a slot's buffer only by a `POLL` that a slot
accepted (and by reset). -/
def Obligations.ByteSpacesAreWrittenOnlyByTheirOwners : Prop :=
  ∀ s t : State, step s = .next t →
    (t.txb ≠ s.txb → ∃ a b rest, s.inputs = .hostWrite a b :: rest ∧ a < Config.mfe.maxMsg) ∧
    (t.rxb ≠ s.rxb → (Executes s .recv ∨ Executes s .halRecv) ∧
      ∃ n, t.results = s.results ++ [⟨.ok, true, false, n, 0⟩]) ∧
    (t.tx.latch ≠ s.tx.latch → (∃ dest len noack, Executes s (.send dest len noack) ∧ t.tx.busy = true) ∨
      IsResetting s) ∧
    (t.pool.map Slot.buf ≠ s.pool.map Slot.buf →
      (Executes s .poll ∧ ∃ r, t.results = s.results ++ [r] ∧ (r.status = .pending ∨ r.status = .complete)) ∨
      IsResetting s)

/-- 10_state.md R34: `tx.busy` is set only by an accepted `SEND` and cleared only by a confirmation that ends it or by
reset. -/
def Obligations.BusyIsSetBySendClearedByItsEnd : Prop :=
  ∀ s t : State, step s = .next t →
    (s.tx.busy = false → t.tx.busy = true → ∃ dest len noack, Executes s (.send dest len noack) ∧
      1 ≤ len.toNat ∧ len.toNat ≤ Config.mfe.maxMsg) ∧
    (s.tx.busy = true → t.tx.busy = false → IsResetting s ∨ ∃ ok rest r, s.inputs = .txConfirm ok :: rest ∧
      t.results = s.results ++ [r] ∧ (ok = false ∨ s.tx.idx.toNat + 1 = s.tx.count.toNat))

/-! ### Reassembly Engine (42_reassembly.md) -/

/-- 42_reassembly.md R130, R139: a `POLL` with a frame asks RAW_AVAIL, then RAW_RECV once, runs one round on that frame
and returns its status, with `flag` 1 exactly for `COMPLETE`; a `POLL` that finds no frame asks RAW_AVAIL once, returns
`EMPTY` and changes nothing else: no slot ages; during a send it asks nothing and returns `BUSY`. -/
def Obligations.PollRunsOneRoundOnOneFrame : Prop :=
  ∀ s : State,
    (∀ f : RawFrame, s.tx.busy = false → s.rxAnswer = some f → exec .poll s = .next { s with
      driver := s.driver.afterRx
      port := s.port ++ [.rawAvail true, .rawRecv f]
      pool := (rxFrame Config.mfe f s.pool).pool
      results := s.results ++ [⟨(rxFrame Config.mfe f s.pool).status,
        decide ((rxFrame Config.mfe f s.pool).status = .complete), (rxFrame Config.mfe f s.pool).evicted, 0, 0⟩] }) ∧
    (s.tx.busy = false → s.rxAnswer = none → exec .poll s = .next { s with
      driver := s.driver.afterRx
      port := s.port ++ [.rawAvail false]
      results := s.results ++ [⟨.empty, false, false, 0, 0⟩] }) ∧
    (s.tx.busy = true → exec .poll s = .next { s with results := s.results ++ [⟨.busy, false, false, 0, 0⟩] })

/-- 42_reassembly.md R142 (60_exceptions.md R207): a frame of more than `CHUNK` bytes is dropped before anything else is
looked at; the round still ages every FILLING slot. -/
def Obligations.RoundDropsOverlongFrames : Prop :=
  ∀ (c : Config) (f : RawFrame) (pool : List Slot), 8 < f.dlc.toNat →
    rxFrame c f pool = ⟨pool.map (fun x => if x.locked && !x.ready
      then { x with age := BitVec.ofNat 8 (min (x.age.toNat + 1) 255) } else x), .dropBadDlc, false⟩

/-- 42_reassembly.md R138 (R136): in a round whose frame is dropped every FILLING slot ages by one, saturating at 255; in a
round whose frame a slot takes, the slot that `select` gives is advanced (its expected index becomes the frame's index
plus one, its age 0) and every other FILLING slot ages. READY and FREE slots do not age, and nothing else of a slot that
was not advanced changes. -/
def Obligations.EveryRoundAgesTheOtherFillingSlots : Prop :=
  ∀ (c : Config) (f : RawFrame) (pool : List Slot),
    (rxFrame c f pool).pool.length = pool.length ∧
    (∀ (j : Nat) (x : Slot), pool[j]? = some x → (∀ p ev, select c f pool ≠ .take j p ev) →
      (rxFrame c f pool).pool[j]? = some (
        if x.locked && !x.ready then { x with age := BitVec.ofNat 8 (min (x.age.toNat + 1) 255) } else x)) ∧
    (∀ st, select c f pool = .drop st → (rxFrame c f pool).status = st ∧ st ≠ .pending ∧ st ≠ .complete) ∧
    (∀ (i : Nat) (p : List Slot) (ev : Bool), select c f pool = .take i p ev →
      ((rxFrame c f pool).status = .pending ∨ (rxFrame c f pool).status = .complete) ∧
      ∃ x y : Slot, pool[i]? = some x ∧ ((hdrDec f.h).idx ≠ 0 → x.nextIdx.toNat = (hdrDec f.h).idx.toNat) ∧
        (rxFrame c f pool).pool[i]? = some y ∧ y.nextIdx.toNat = (hdrDec f.h).idx.toNat + 1 ∧ y.age = 0 ∧
        y.locked = true ∧ y.src = (hdrDec f.h).src ∧ y.msgId = (hdrDec f.h).id)

/-- 42_reassembly.md R132 (R136, R137): fragment 0 takes the FREE slot of lowest index, whatever other slots hold. -/
def Obligations.FragmentZeroTakesLowestFreeSlot : Prop :=
  ∀ (c : Config) (f : RawFrame) (pool : List Slot) (i : Nat) (x : Slot), f.dlc.toNat ≤ 8 → (hdrDec f.h).idx = 0 →
    pool[i]? = some x → x.locked = false →
    (∀ (j : Nat) (y : Slot), j < i → pool[j]? = some y → y.locked = true) →
    (rxFrame c f pool).status = (if (hdrDec f.h).count = 1 then .complete else .pending) ∧
    (rxFrame c f pool).evicted = false ∧
    (∃ b : Memory, (rxFrame c f pool).pool[i]? = some ⟨true, decide ((hdrDec f.h).count = 1), (hdrDec f.h).src,
        (hdrDec f.h).id, 1, BitVec.ofNat 7 f.dlc.toNat, 0, b⟩ ∧
      ∀ a, b.read a = if a < f.dlc.toNat then f.data.getD a 0 else x.buf.read a) ∧
    ∀ j, j ≠ i → (rxFrame c f pool).pool[j]? = (pool[j]?).map Slot.aged

/-- 42_reassembly.md R133 (60_exceptions.md R205): with no FREE slot, fragment 0 evicts the FILLING slot of greatest age,
the lowest index on a tie, and takes it; with no FILLING slot either it is dropped and nothing changes. -/
def Obligations.EvictionTakesOldestFillingSlot : Prop :=
  ∀ (c : Config) (f : RawFrame) (pool : List Slot), f.dlc.toNat ≤ 8 → (hdrDec f.h).idx = 0 → (∀ x ∈ pool, x.locked = true) →
    ((∀ x ∈ pool, x.ready = true) → rxFrame c f pool = ⟨pool, .dropNoSlot, false⟩) ∧
    (∀ (i : Nat) (x : Slot), pool[i]? = some x → x.ready = false →
      (∀ (j : Nat) (y : Slot), pool[j]? = some y → y.ready = false → y.age.toNat ≤ x.age.toNat) →
      (∀ (j : Nat) (y : Slot), j < i → pool[j]? = some y → y.ready = false → y.age.toNat < x.age.toNat) →
      (rxFrame c f pool).status = (if (hdrDec f.h).count = 1 then .complete else .pending) ∧
      (rxFrame c f pool).evicted = true ∧
      (∃ b : Memory, (rxFrame c f pool).pool[i]? = some ⟨true, decide ((hdrDec f.h).count = 1), (hdrDec f.h).src,
          (hdrDec f.h).id, 1, BitVec.ofNat 7 f.dlc.toNat, 0, b⟩ ∧
        ∀ a, b.read a = if a < f.dlc.toNat then f.data.getD a 0 else x.buf.read a) ∧
      ∀ j, j ≠ i → (rxFrame c f pool).pool[j]? = (pool[j]?).map Slot.aged)

/-- 42_reassembly.md R136, R137 (R134): a continuation that fits advances the matching FILLING slot of lowest index: its
bytes are appended, the length grows by their number, the expected index by one, the age is 0, and the slot is READY
exactly when the expected index reaches the count of this very frame. -/
def Obligations.ContinuationAdvancesLowestMatch : Prop :=
  ∀ (c : Config) (f : RawFrame) (pool : List Slot) (i : Nat) (x : Slot), f.dlc.toNat ≤ 8 → (hdrDec f.h).idx ≠ 0 →
    IsFirst (fun y => y.locked && !y.ready && y.src == (hdrDec f.h).src && y.msgId == (hdrDec f.h).id &&
      y.nextIdx.toNat == (hdrDec f.h).idx.toNat) pool i x →
    x.len.toNat + f.dlc.toNat ≤ c.maxMsg →
    (rxFrame c f pool).status = (if x.nextIdx.toNat + 1 = (hdrDec f.h).count.toNat then .complete else .pending) ∧
    (rxFrame c f pool).evicted = false ∧
    (∃ y : Slot, (rxFrame c f pool).pool[i]? = some y ∧ y.locked = true ∧
      (y.ready = true ↔ x.nextIdx.toNat + 1 = (hdrDec f.h).count.toNat) ∧ y.src = x.src ∧ y.msgId = x.msgId ∧
      y.nextIdx.toNat = x.nextIdx.toNat + 1 ∧ y.len.toNat = x.len.toNat + f.dlc.toNat ∧ y.age = 0 ∧
      ∀ a, y.buf.read a = if x.len.toNat ≤ a ∧ a < x.len.toNat + f.dlc.toNat then f.data.getD (a - x.len.toNat) 0
        else x.buf.read a) ∧
    ∀ j, j ≠ i → (rxFrame c f pool).pool[j]? = (pool[j]?).map Slot.aged

/-- 42_reassembly.md R134, R135 (60_exceptions.md R204, R206): a continuation that no FILLING slot waits for is dropped
with `DROP_UNMATCHED`; one that would not fit the slot that waits for it is dropped with `DROP_OVERFLOW`; either way the
round ages every FILLING slot, the matched one too, and does nothing else. -/
def Obligations.ContinuationIsDroppedUnmatchedOrOverflowing : Prop :=
  ∀ (c : Config) (f : RawFrame) (pool : List Slot), f.dlc.toNat ≤ 8 → (hdrDec f.h).idx ≠ 0 →
    ((∀ y ∈ pool, y.locked = true → y.ready = false → y.src = (hdrDec f.h).src → y.msgId = (hdrDec f.h).id →
        y.nextIdx.toNat ≠ (hdrDec f.h).idx.toNat) →
      rxFrame c f pool = ⟨pool.map Slot.aged, .dropUnmatched, false⟩) ∧
    (∀ (i : Nat) (x : Slot),
      IsFirst (fun y => y.locked && !y.ready && y.src == (hdrDec f.h).src && y.msgId == (hdrDec f.h).id &&
        y.nextIdx.toNat == (hdrDec f.h).idx.toNat) pool i x →
      c.maxMsg < x.len.toNat + f.dlc.toNat → rxFrame c f pool = ⟨pool.map Slot.aged, .dropOverflow, false⟩)

/-- 42_reassembly.md R146 (d): a slot that has taken 16 fragments is neither completed nor advanced by any frame; a round
ages it, or evicts it. -/
def Obligations.SlotWithSixteenFragmentsIsStuck : Prop :=
  ∀ (c : Config) (f : RawFrame) (pool : List Slot) (i : Nat) (x : Slot), pool[i]? = some x → x.isFilling = true →
    x.nextIdx.toNat = 16 → evictedBy c f pool ≠ some i → (rxFrame c f pool).pool[i]? = some x.aged

/-- 42_reassembly.md R140: `RECV` drains the READY slot of lowest index to RXB and cleans it, leaving its buffer and
every other byte of RXB; with no READY slot it returns `EMPTY` and changes nothing else. -/
def Obligations.RecvDrainsLowestReadySlot : Prop :=
  (∀ (s : State) (i : Nat) (x : Slot), s.tx.busy = false → IsFirst Slot.ready s.pool i x →
    ∃ m : Memory, exec .recv s = .next { s with
        pool := s.pool.set i ⟨false, false, 0, 0, 0, 0, 0, x.buf⟩
        rxb := m
        results := s.results ++ [⟨.ok, true, false, x.len.setWidth 8, 0⟩] } ∧
      ∀ a, m.read a = if a < x.len.toNat then x.buf.read a else s.rxb.read a) ∧
  (∀ s : State, s.tx.busy = false → (∀ x ∈ s.pool, x.ready = false) →
    exec .recv s = .next { s with results := s.results ++ [⟨.empty, false, false, 0, 0⟩] }) ∧
  (∀ s : State, s.tx.busy = true →
    exec .recv s = .next { s with results := s.results ++ [⟨.busy, false, false, 0, 0⟩] })

/-! ### Frame validator (43_validator.md) -/

/-- 43_validator.md R160, R161, R162, R163, R165: `HAL_RECV` in every instance. The lowest READY slot is cleaned whatever
the verdict; the three tests decide in their order; a reject moves its counter, saturating, and leaves RXB; an
acceptance writes the declared number of bytes to RXB. -/
def Obligations.HalRecvDrainsAndValidates : Prop :=
  (∀ s : State, exec .halRecv s = .next (halRecvOn Config.mfe s)) ∧
  (∀ (c : Config) (s : State), s.tx.busy = true →
    halRecvOn c s = { s with results := s.results ++ [⟨.busy, false, false, 0, 0⟩] }) ∧
  (∀ (c : Config) (s : State), s.tx.busy = false → (∀ x ∈ s.pool, x.ready = false) →
    halRecvOn c s = { s with results := s.results ++ [⟨.empty, false, false, 0, 0⟩] }) ∧
  (∀ (c : Config) (s : State) (i : Nat) (x : Slot) (n : Nat) (m : List Byte) (pool : List Slot),
    s.tx.busy = false → IsFirst Slot.ready s.pool i x → n = x.len.toNat → m = x.buf.readN 0 n →
    pool = s.pool.set i ⟨false, false, 0, 0, 0, 0, 0, x.buf⟩ →
    (n < c.msgMinLen → halRecvOn c s = { s with
      pool := pool, errLengthCnt := BitVec.ofNat 8 (min (s.errLengthCnt.toNat + 1) 255)
      results := s.results ++ [⟨.errLength, false, false, 0, 0⟩] }) ∧
    (c.msgMinLen ≤ n → c.verOf m ≠ c.protocolVersion → halRecvOn c s = { s with
      pool := pool, errVersionCnt := BitVec.ofNat 8 (min (s.errVersionCnt.toNat + 1) 255)
      results := s.results ++ [⟨.errVersion, false, false, 0, 0⟩] }) ∧
    (c.msgMinLen ≤ n → c.verOf m = c.protocolVersion →
      n ≠ c.declaredLenOf m → n ≠ (c.declaredLenOf m + 7) / 8 * 8 → halRecvOn c s = { s with
        pool := pool, errLengthCnt := BitVec.ofNat 8 (min (s.errLengthCnt.toNat + 1) 255)
        results := s.results ++ [⟨.errLength, false, false, 0, 0⟩] }) ∧
    (c.msgMinLen ≤ n → c.verOf m = c.protocolVersion →
      (n = c.declaredLenOf m ∨ n = (c.declaredLenOf m + 7) / 8 * 8) → ∃ b : Memory,
        halRecvOn c s = { s with
          pool := pool, rxb := b
          results := s.results ++ [⟨.ok, true, false, BitVec.ofNat 8 (c.declaredLenOf m), 0⟩] } ∧
        ∀ a, b.read a = if a < c.declaredLenOf m then x.buf.read a else s.rxb.read a))

/-- 43_validator.md R164: a message is accepted only at its declared length, or, when that is no multiple of `CHUNK`, at
the next multiple above it. The verdict depends on nothing but the reassembled length and the two fields, so the padding
is not examined. `HAL_RECV` cuts an accepted message to its declared length: it returns that number and delivers no byte
of the padding. -/
def Obligations.PaddingToleranceIsOneAmount : Prop :=
  ∀ (c : Config) (m : List Byte) (d : Nat), c.msgMinLen ≤ m.length → c.verOf m = c.protocolVersion →
    d = c.declaredLenOf m →
    (validate c m = .accept d ↔ m.length = d ∨ (d % 8 ≠ 0 ∧ m.length = (d / 8 + 1) * 8)) ∧
    (validate c m ≠ .accept d → validate c m = .rejectLength) ∧
    (∀ m' : List Byte, m'.length = m.length → c.verOf m' = c.verOf m → c.declaredLenOf m' = d →
      validate c m' = validate c m) ∧
    (∀ (s : State) (i : Nat) (x : Slot), s.tx.busy = false → IsFirst Slot.ready s.pool i x → x.message = m →
      validate c m = .accept d →
      (halRecvOn c s).results = s.results ++ [⟨.ok, true, false, BitVec.ofNat 8 d, 0⟩] ∧
      ∀ a, (halRecvOn c s).rxb.read a = if a < d then m.getD a 0 else s.rxb.read a)

/-! ### System commands (44_system.md) -/

/-- 44_system.md R180 (10_state.md R25, 60_exceptions.md R212): `INIT` cleans every slot, leaving its buffer, zeroes the
counter and both error counters, keeps `NODE_ADDR`, asks RAW_INIT, and returns the driver's answer; during a send it
returns `BUSY`. -/
def Obligations.InitClearsTheEngineAndAsksTheDriver : Prop :=
  ∀ s : State, (s.tx.busy = false →
    exec .init s = .next { s with
      pool := s.pool.map (fun x => ⟨false, false, 0, 0, 0, 0, 0, x.buf⟩)
      msgIdCtr := 0
      errVersionCnt := 0
      errLengthCnt := 0
      driver := s.driver.afterInit
      port := s.port ++ [.rawInit s.initAnswer]
      results := s.results ++
        [if s.initAnswer then ⟨.ok, true, false, 0, 0⟩ else ⟨.initFail, false, false, 0, 0⟩] }) ∧
    (s.tx.busy = true → exec .init s = .next { s with results := s.results ++ [⟨.busy, false, false, 0, 0⟩] })

/-- 44_system.md R181: `SET_ADDR` writes `NODE_ADDR`, any value, and nothing else. -/
def Obligations.SetAddrWritesNodeAddr : Prop :=
  ∀ (addr : BitVec 8) (s : State),
    (s.tx.busy = false → exec (.setAddr addr) s =
      .next { s with nodeAddr := addr, results := s.results ++ [⟨.ok, true, false, 0, 0⟩] }) ∧
    (s.tx.busy = true → exec (.setAddr addr) s =
      .next { s with results := s.results ++ [⟨.busy, false, false, 0, 0⟩] })

/-- 44_system.md R182: `GET_ADDR` returns `NODE_ADDR`, right after reset `NODE_ADDR_RESET`, and writes nothing. -/
def Obligations.GetAddrReturnsNodeAddr : Prop :=
  ∀ s : State,
    (s.tx.busy = false → exec .getAddr s =
      .next { s with results := s.results ++ [⟨.ok, true, false, 0, BitVec.ofNat 32 s.nodeAddr.toNat⟩] }) ∧
    (s.tx.busy = true → exec .getAddr s =
      .next { s with results := s.results ++ [⟨.busy, false, false, 0, 0⟩] }) ∧
    State.reset.nodeAddr = Config.mfe.nodeAddrReset

/-- 44_system.md R183 (10_state.md R36): what `RD_STAT` returns for every index, each register in bits 7:0, and that it
writes nothing. For a `PROTOCOL_VERSION` that does not fit bits 7:0 index 10 still returns `OK`, with some value. -/
def Obligations.RdStatReadsTheStatusRegisters : Prop :=
  ∀ (idx : BitVec 8) (s : State) (v : Nat),
    (s.tx.busy = true → exec (.rdStat idx) s =
      .next { s with results := s.results ++ [⟨.busy, false, false, 0, 0⟩] }) ∧
    (s.tx.busy = false → 10 < idx.toNat → exec (.rdStat idx) s =
      .next { s with results := s.results ++ [⟨.badCmd, false, false, 0, 0⟩] }) ∧
    (s.tx.busy = false →
      [s.nodeAddr.toNat, s.msgIdCtr.toNat, s.errVersionCnt.toNat, s.errLengthCnt.toNat,
       (s.pool.filter (fun x => !x.locked)).length, (s.pool.filter (fun x => x.locked && !x.ready)).length,
       (s.pool.filter (fun x => x.ready)).length, 8, Config.mfe.poolN, Config.mfe.maxMsg,
       Config.mfe.protocolVersion][idx.toNat]? = some v → (idx.toNat = 10 → v < 256) →
      exec (.rdStat idx) s =
        .next { s with results := s.results ++ [⟨.ok, true, false, 0, BitVec.ofNat 32 (v % 256)⟩] }) ∧
    (s.tx.busy = false → idx.toNat = 10 → ∃ w : BitVec 32, exec (.rdStat idx) s =
      .next { s with results := s.results ++ [⟨.ok, true, false, 0, w⟩] })

/-- 10_state.md R36, last sentence: the three slot counts add up to `POOL_N` in every state that meets the invariant. -/
def Obligations.SlotCountsAddUpToPoolN : Prop :=
  ∀ s : State, s.Inv →
    (slotCount Slot.isFree s.pool).toNat + (slotCount Slot.isFilling s.pool).toNat +
      (slotCount Slot.isReady s.pool).toNat = Config.mfe.poolN

/-- 20_memory.md R60: `RD_STAT`, `GET_ADDR`, `HDR_ENC` and `HDR_DEC` have no side effect, and repeating one repeats its
result. -/
def Obligations.ReadingCommandsHaveNoSideEffect : Prop :=
  ∀ (i : Instr) (s : State),
    ((∃ x, i = .rdStat x) ∨ i = .getAddr ∨ (∃ a b c d e, i = .hdrEnc a b c d e) ∨ ∃ w, i = .hdrDec w) →
    ∃ r, exec i s = .next { s with results := s.results ++ [r] } ∧
      exec i { s with results := s.results ++ [r] } = .next { s with results := s.results ++ [r, r] }

/-! ### Reset (10_state.md R39, 70_reset_and_hazards.md R230, R231) -/

/-- 10_state.md R39: the values that the table states for reset. -/
def Obligations.ResetValuesAreTheTable : Prop :=
  State.reset.pool.length = Config.mfe.poolN ∧
  (∀ x ∈ State.reset.pool, x.locked = false ∧ x.ready = false ∧ x.src = 0 ∧ x.msgId = 0 ∧ x.nextIdx = 0 ∧ x.len = 0 ∧
    x.age = 0) ∧
  State.reset.msgIdCtr = 0 ∧ State.reset.nodeAddr = Config.mfe.nodeAddrReset ∧ State.reset.errVersionCnt = 0 ∧
  State.reset.errLengthCnt = 0 ∧ State.reset.tx.busy = false

/-- 70_reset_and_hazards.md R230 (1): from ANY state the reset input puts every register that has a reset value to that
value, abandons a send in flight without a result, and makes no driver transaction. That TXB, RXB
and the environment stay is the model's choice (log 11). -/
def Obligations.ResetInputRestoresResetState : Prop :=
  ∀ (s : State) (rest : List Input), s.inputs = .reset :: rest → ∃ t, step s = .next t ∧
    t.pool.length = Config.mfe.poolN ∧ (∀ x ∈ t.pool, x.isClean) ∧ t.msgIdCtr = 0 ∧
    t.nodeAddr = Config.mfe.nodeAddrReset ∧ t.errVersionCnt = 0 ∧ t.errLengthCnt = 0 ∧ t.tx.busy = false ∧
    t.results = s.results ∧ t.port = s.port ∧ t.txb = s.txb ∧ t.rxb = s.rxb ∧ t.inputs = rest ∧ t.driver = s.driver

/-- 70_reset_and_hazards.md R231: right after reset the first accepted `SEND` carries message id 1, and the first
fragment 0 received takes slot 0. -/
def Obligations.FirstMessageAfterReset : Prop :=
  (∀ (dest len : BitVec 8) (noack : Bool), 1 ≤ len.toNat → len.toNat ≤ Config.mfe.maxMsg →
    ∃ t, exec (.send dest len noack) State.reset = .next t ∧ t.tx.busy = true ∧ t.tx.id = 1) ∧
  (∀ f : RawFrame, f.dlc.toNat ≤ 8 → (hdrDec f.h).idx = 0 → ∃ x,
    (rxFrame Config.mfe f State.reset.pool).pool[0]? = some x ∧ x.locked = true ∧ x.src = (hdrDec f.h).src ∧
      x.msgId = (hdrDec f.h).id ∧ x.nextIdx = 1)

/-! ### Invariants and headline properties -/

/-- The reset state meets the invariant (10_state.md R24, R39). -/
def Obligations.ResetMeetsTheInvariant : Prop := State.reset.Inv

/-- 10_state.md R24, 42_reassembly.md R149, 20_memory.md R58: every step keeps the invariant, from every state that meets
it. -/
def Obligations.EveryStepKeepsTheInvariant : Prop :=
  ∀ s t : State, s.Inv → step s = .next t → t.Inv

/-- 42_reassembly.md R141: every transition a slot makes in a step is one of the table's, with the table's cause. -/
def Obligations.SlotsFollowTheStateMachine : Prop :=
  ∀ (s t : State) (i : Nat) (x y : Slot), s.Inv → step s = .next t → s.pool[i]? = some x → t.pool[i]? = some y →
    SlotTransition s i x y

/-- 10_state.md R25, R32 (93_implementation_defined.md U18, U19): what the spec leaves unspecified is unobservable. Two
states that differ only in buffer bytes at or beyond `len` and in the registers of an idle sequencer take the same step,
with the same results, the same RXB and the same driver transactions, and still differ only so. -/
def Obligations.UnspecifiedStateIsUnobservable : Prop :=
  ∀ s s' t : State, s.Inv → s'.Inv → s.LooksLike s' → step s = .next t →
    ∃ t', step s' = .next t' ∧ t.LooksLike t'

/-- 42_reassembly.md R148: from an empty pool, `POOL_N` fragments 0 of messages of two or more fragments fill the slots in
order, with ages `POOL_N - 1 - i`; the next one evicts slot 0, and every other slot only ages by one. -/
def Obligations.EvictionUnderPressure : Prop :=
  ∀ (c : Config) (pool : List Slot) (fs : List RawFrame) (f : RawFrame),
    pool.length = c.poolN → (∀ x ∈ pool, x.isClean) → fs.length = c.poolN →
    (∀ g ∈ f :: fs, g.dlc.toNat ≤ 8 ∧ (hdrDec g.h).idx = 0 ∧ 2 ≤ (hdrDec g.h).count.toNat) →
    (∀ (i : Nat) (g : RawFrame), fs[i]? = some g → ∃ x, (deliver c fs pool)[i]? = some x ∧ x.isFilling = true ∧
      x.src = (hdrDec g.h).src ∧ x.msgId = (hdrDec g.h).id ∧ x.nextIdx = 1 ∧ x.len.toNat = g.dlc.toNat ∧
      x.age.toNat = c.poolN - 1 - i) ∧
    (rxFrame c f (deliver c fs pool)).evicted = true ∧
    (∃ x, (rxFrame c f (deliver c fs pool)).pool[0]? = some x ∧ x.isFilling = true ∧ x.src = (hdrDec f.h).src ∧
      x.msgId = (hdrDec f.h).id ∧ x.nextIdx = 1 ∧ x.age = 0) ∧
    ∀ (i : Nat) (x : Slot), 0 < i → (deliver c fs pool)[i]? = some x →
      (rxFrame c f (deliver c fs pool)).pool[i]? = some { x with age := x.age + 1 }

/-- 42_reassembly.md R147: round-trip. The frames of a message of `1..MAX_MSG` bytes, delivered in order, each once,
between any frames of other messages, to a receiver that has no FILLING slot with the same source and id when fragment 0
arrives and does not evict the slot. The round of the last one returns `COMPLETE`; the slot that fragment 0 took is READY
and holds exactly the sender's payload; and the `RECV` that drains it returns the length and writes the payload to RXB. -/
def Obligations.DeliveredMessageIsReassembled : Prop :=
  ∀ (c : Config) (id : BitVec 3) (dest src : BitVec 8) (payload : Memory) (len : Nat) (pool : List Slot)
    (first : RawFrame) (others : List RawFrame) (i : Nat),
    1 ≤ len → len ≤ c.maxMsg →
    (∀ x ∈ pool, x.isFilling = true → ¬ (x.src = src ∧ x.msgId = id)) →
    (first :: others).filter (RawFrame.isOf src id) = wireImage c id dest src payload len →
    first = fragment c id dest src payload len 0 →
    (∃ p ev, select c first pool = .take i p ev) →
    NotEvicted c i others (rxFrame c first pool).pool →
    (∃ x, (deliver c (first :: others) pool)[i]? = some x ∧ x.ready = true ∧ x.src = src ∧ x.msgId = id ∧
      x.len.toNat = len ∧ x.message = payload.readN 0 len) ∧
    (∀ (before after : List RawFrame) (last : RawFrame), first :: others = before ++ last :: after →
      RawFrame.isOf src id last = true → (∀ g ∈ after, RawFrame.isOf src id g = false) →
      (rxFrame c last (deliver c before pool)).status = .complete) ∧
    (∀ s : State, s.tx.busy = false → s.pool = deliver c (first :: others) pool →
      (∀ (j : Nat) (y : Slot), j < i → s.pool[j]? = some y → y.ready = false) →
      ∃ t, exec .recv s = .next t ∧ t.results = s.results ++ [⟨.ok, true, false, BitVec.ofNat 8 len, 0⟩] ∧
        t.rxb.readN 0 len = payload.readN 0 len)
end

