-- ==== Sys2Proof/Laws/Config.lean ====
section
/-! SUPPORT. The ranges of the parameters (00_scope.md R7 to R9, 30_encoding.md R79). -/

namespace Sys2Proof.Config

variable (c : Config)

theorem chunk_le_maxMsg : chunk ≤ c.maxMsg := Nat.le_add_right _ _

theorem maxMsg_le : c.maxMsg ≤ 15 * chunk := by
  have := c.maxMsgExtra.isLt
  simp only [maxMsg, chunk]
  omega

theorem poolN_pos : 1 ≤ c.poolN := Nat.le_add_right _ _

theorem poolN_le : c.poolN ≤ 255 := by
  have := c.poolExtra.isLt
  simp only [poolN]
  omega

theorem msgMinLen_pos : 1 ≤ c.msgMinLen := Nat.le_add_right _ _

theorem verOf_congr (m m' : List Byte) (h : m.take c.msgMinLen = m'.take c.msgMinLen) : c.verOf m = c.verOf m' := by
  simp [verOf, h]

theorem declaredLenOf_congr (m m' : List Byte) (h : m.take c.msgMinLen = m'.take c.msgMinLen) :
    c.declaredLenOf m = c.declaredLenOf m' := by
  simp [declaredLenOf, h]

end Sys2Proof.Config
end

