-- ==== Sys2Proof/Laws/Decode.lean ====
section
/-! SUPPORT. The fields of a command word built from its fields (30_encoding.md R80). -/

namespace Sys2Proof

section
variable (op a4 a3 a2 a1 a0 : BitVec 8)

@[simp] theorem op_ofFields : CmdWord.op (CmdWord.ofFields op a4 a3 a2 a1 a0) = op := by
  ext i hi
  simp only [CmdWord.op, CmdWord.ofFields, BitVec.getElem_extractLsb', BitVec.getLsbD_or, BitVec.getLsbD_shiftLeft,
    BitVec.getLsbD_setWidth]
  interval_cases i <;> simp

@[simp] theorem a4_ofFields : CmdWord.a4 (CmdWord.ofFields op a4 a3 a2 a1 a0) = a4 := by
  ext i hi
  simp only [CmdWord.a4, CmdWord.ofFields, BitVec.getElem_extractLsb', BitVec.getLsbD_or, BitVec.getLsbD_shiftLeft,
    BitVec.getLsbD_setWidth]
  interval_cases i <;> simp

@[simp] theorem a3_ofFields : CmdWord.a3 (CmdWord.ofFields op a4 a3 a2 a1 a0) = a3 := by
  ext i hi
  simp only [CmdWord.a3, CmdWord.ofFields, BitVec.getElem_extractLsb', BitVec.getLsbD_or, BitVec.getLsbD_shiftLeft,
    BitVec.getLsbD_setWidth]
  interval_cases i <;> simp

@[simp] theorem a2_ofFields : CmdWord.a2 (CmdWord.ofFields op a4 a3 a2 a1 a0) = a2 := by
  ext i hi
  simp only [CmdWord.a2, CmdWord.ofFields, BitVec.getElem_extractLsb', BitVec.getLsbD_or, BitVec.getLsbD_shiftLeft,
    BitVec.getLsbD_setWidth]
  interval_cases i <;> simp

@[simp] theorem a1_ofFields : CmdWord.a1 (CmdWord.ofFields op a4 a3 a2 a1 a0) = a1 := by
  ext i hi
  simp only [CmdWord.a1, CmdWord.ofFields, BitVec.getElem_extractLsb', BitVec.getLsbD_or, BitVec.getLsbD_shiftLeft,
    BitVec.getLsbD_setWidth]
  interval_cases i <;> simp

@[simp] theorem a0_ofFields : CmdWord.a0 (CmdWord.ofFields op a4 a3 a2 a1 a0) = a0 := by
  ext i hi
  simp only [CmdWord.a0, CmdWord.ofFields, BitVec.getElem_extractLsb', BitVec.getLsbD_or, BitVec.getLsbD_shiftLeft,
    BitVec.getLsbD_setWidth]
  interval_cases i <;> simp

/-- Bit 0 of operand 2 (30_encoding.md R81, `noack`). -/
@[simp] theorem getElem_16_ofFields : (CmdWord.ofFields op a4 a3 a2 a1 a0)[16] = a2[0] := by
  simp [CmdWord.ofFields]

end

/-- The 32-bit operand of `HDR_DEC` (30_encoding.md R81). -/
@[simp] theorem word_ofFields (op a4 : BitVec 8) (w : Header) :
    (CmdWord.ofFields op a4 (w.extractLsb' 24 8) (w.extractLsb' 16 8) (w.extractLsb' 8 8)
      (w.extractLsb' 0 8)).extractLsb' 0 32 = w := by
  ext i hi
  simp only [CmdWord.ofFields, BitVec.getElem_extractLsb', BitVec.getLsbD_or, BitVec.getLsbD_shiftLeft,
    BitVec.getLsbD_setWidth, BitVec.getLsbD_extractLsb']
  interval_cases i <;> simp

end Sys2Proof
end

