-- ==== Sys2Proof/Laws/Memory.lean ====
section
/-! SUPPORT. The laws of a byte space: a read after a write gives the byte written, a write leaves every other byte
alone, reads and writes of runs of bytes, and every write keeps the canonical form and the size. -/

namespace Sys2Proof.Machine.Memory

variable (m : Memory) (a b n : Nat) (v : Byte) (l : List Byte)

/-! ### One byte -/

theorem lookup_eraseCell (cells : List Host.Cell) (a b : Nat) :
    lookup (eraseCell cells a) b = if b = a then unlisted else lookup cells b := by
  induction cells with
  | nil => simp [eraseCell, lookup]
  | cons c rest ih =>
    simp only [eraseCell] at ih
    by_cases h : c.1 = a
    · simp only [eraseCell, List.filter_cons, ne_eq, h, not_true_eq_false, decide_false, Bool.false_eq_true, if_false, ih,
        lookup]
      split <;> simp_all [eq_comm]
    · simp only [eraseCell, List.filter_cons, ne_eq, h, not_false_eq_true, decide_true, if_true, lookup, ih]
      split
      · simp_all
      · rfl

theorem lookup_insertCell (cells : List Host.Cell) (a b : Nat) (v : Byte) (h : ∀ c ∈ cells, c.1 ≠ a) :
    lookup (insertCell cells a v) b = if b = a then v else lookup cells b := by
  induction cells with
  | nil => simp [insertCell, lookup, eq_comm]
  | cons c rest ih =>
    simp only [insertCell]
    split
    · simp [lookup, eq_comm]
    · have := h c (by simp)
      simp only [lookup, ih (fun x hx => h x (by simp [hx]))]
      split <;> split <;> simp_all

theorem read_write : (m.write a v).read b = if b = a then v else m.read b := by
  simp only [read, write]
  split
  · next h => simp [lookup_eraseCell, h]
  · rw [lookup_insertCell _ _ _ _ (by simp [eraseCell]), lookup_eraseCell]
    split <;> rfl

@[simp] theorem read_blank : Memory.blank.read a = unlisted := rfl

/-! ### Runs of bytes -/

@[simp] theorem length_readN : (m.readN a n).length = n := by
  induction n generalizing a with
  | zero => rfl
  | succ n ih => simp [readN, ih]

theorem getElem_readN (i : Nat) (h : i < (m.readN a n).length) : (m.readN a n)[i] = m.read (a + i) := by
  induction n generalizing a i with
  | zero => simp [readN] at h
  | succ n ih =>
    cases i with
    | zero => simp [readN]
    | succ i => simp only [readN, List.getElem_cons_succ, ih]; congr 1; omega

theorem getElem?_readN (i : Nat) : (m.readN a n)[i]? = if i < n then some (m.read (a + i)) else none := by
  split
  · next h => rw [List.getElem?_eq_getElem (by simpa using h), getElem_readN]
  · next h => exact List.getElem?_eq_none (by simpa using h)

/-- The byte at `b` after a run of bytes is written at `a`. -/
theorem read_writeN : (m.writeN a l).read b = if a ≤ b ∧ b < a + l.length then l.getD (b - a) 0 else m.read b := by
  induction l generalizing m a with
  | nil => simp [writeN]
  | cons x rest ih =>
    simp only [writeN, ih, read_write, List.length_cons]
    by_cases hb : b = a
    · subst hb
      rw [if_neg (by omega), if_pos rfl, if_pos (by omega)]
      simp
    · by_cases h1 : a + 1 ≤ b ∧ b < a + 1 + rest.length
      · rw [if_pos h1, if_pos (by omega)]
        obtain ⟨k, rfl⟩ : ∃ k, b = a + 1 + k := ⟨b - (a + 1), by omega⟩
        have e1 : a + 1 + k - (a + 1) = k := by omega
        have e2 : a + 1 + k - a = k + 1 := by omega
        rw [e1, e2]
        simp
      · rw [if_neg h1, if_neg hb, if_neg (by omega)]

theorem readN_congr (m' : Memory) (h : ∀ i, i < n → m.read (a + i) = m'.read (a + i)) : m.readN a n = m'.readN a n := by
  apply List.ext_getElem (by simp)
  intro i hi _
  rw [getElem_readN, getElem_readN]
  exact h i (by simpa using hi)

theorem readN_writeN : (m.writeN a l).readN a l.length = l := by
  apply List.ext_getElem (by simp)
  intro i hi hi'
  rw [getElem_readN, read_writeN, if_pos (by simp at hi; omega)]
  simp [hi']

theorem readN_append (k : Nat) : m.readN a (n + k) = m.readN a n ++ m.readN (a + n) k := by
  induction n generalizing a with
  | zero => simp [readN]
  | succ n ih =>
    rw [show n + 1 + k = (n + k) + 1 from by omega]
    simp only [readN, List.cons_append, ih]
    rw [show a + 1 + n = a + (n + 1) from by omega]

theorem take_readN (k : Nat) (h : k ≤ n) : (m.readN a n).take k = m.readN a k := by
  obtain ⟨j, rfl⟩ : ∃ j, n = k + j := ⟨n - k, by omega⟩
  rw [readN_append, List.take_left' (by simp)]

/-- The first `n` bytes of one space copied to another (20_memory.md R52, R53). -/
theorem read_copy (src : Memory) : (m.writeN 0 (src.readN 0 n)).read a = if a < n then src.read a else m.read a := by
  rw [read_writeN]
  simp only [length_readN, Nat.zero_le, true_and, Nat.zero_add, Nat.sub_zero]
  split
  · next h => rw [List.getD_eq_getElem?_getD, getElem?_readN, if_pos h]; simp
  · rfl

theorem readN_copy (src : Memory) (k : Nat) (h : a + k ≤ n) :
    (m.writeN 0 (src.readN 0 n)).readN a k = src.readN a k :=
  readN_congr _ _ _ _ fun i hi => by rw [read_copy, if_pos (by omega)]

/-! ### The canonical form and the size -/

theorem mem_insertCell (cells : List Host.Cell) (c : Host.Cell) :
    c ∈ insertCell cells a v ↔ c = (a, v) ∨ c ∈ cells := by
  induction cells with
  | nil => simp [insertCell]
  | cons x rest ih =>
    simp only [insertCell]
    split
    · simp
    · simp only [List.mem_cons, ih]
      tauto

theorem pairwise_insertCell (cells : List Host.Cell) (h : cells.Pairwise (fun x y => x.1 < y.1))
    (ha : ∀ c ∈ cells, c.1 ≠ a) : (insertCell cells a v).Pairwise (fun x y => x.1 < y.1) := by
  induction cells with
  | nil => simp [insertCell]
  | cons x rest ih =>
    rw [List.pairwise_cons] at h
    simp only [insertCell]
    split
    · next hx =>
      refine List.pairwise_cons.2 ⟨?_, List.pairwise_cons.2 h⟩
      intro y hy
      rcases List.mem_cons.1 hy with rfl | hy
      · exact hx
      · exact Nat.lt_trans hx (h.1 y hy)
    · next hx =>
      have hne := ha x (by simp)
      refine List.pairwise_cons.2 ⟨?_, ih h.2 (fun c hc => ha c (by simp [hc]))⟩
      intro y hy
      rcases (mem_insertCell a v rest y).1 hy with rfl | hy
      · show x.1 < a; omega
      · exact h.1 y hy

theorem wf_iff : m.wf = true ↔ m.cells.Pairwise (fun x y => x.1 < y.1) ∧ ∀ c ∈ m.cells, c.2 ≠ unlisted := by
  simp [wf]

/-- Every write keeps the canonical form. -/
theorem wf_write (h : m.wf = true) : (m.write a v).wf = true := by
  rw [wf_iff] at h
  have he : (eraseCell m.cells a).Pairwise (fun x y => x.1 < y.1) := h.1.filter _
  have hv : ∀ c ∈ eraseCell m.cells a, c.2 ≠ unlisted := fun c hc => h.2 c (List.mem_of_mem_filter hc)
  rw [wf_iff]
  unfold write
  split
  · exact ⟨he, hv⟩
  · next hb =>
    refine ⟨pairwise_insertCell _ _ _ he (by simp [eraseCell]), fun c hc => ?_⟩
    rcases (mem_insertCell _ _ _ _).1 hc with rfl | hc
    · exact hb
    · exact hv c hc

theorem wf_writeN (h : m.wf = true) : (m.writeN a l).wf = true := by
  induction l generalizing m a with
  | nil => exact h
  | cons x rest ih => exact ih _ _ (wf_write _ _ _ h)

@[simp] theorem wf_blank : Memory.blank.wf = true := by decide

theorem within_iff (size : Nat) : m.within size = true ↔ ∀ c ∈ m.cells, c.1 < size := by
  simp [within]

/-- A write below the size keeps the space within it. -/
theorem within_write (size : Nat) (h : m.within size = true) (ha : a < size) : (m.write a v).within size = true := by
  rw [within_iff] at h ⊢
  unfold write
  split
  · exact fun c hc => h c (List.mem_of_mem_filter hc)
  · intro c hc
    rcases (mem_insertCell _ _ _ _).1 hc with rfl | hc
    · exact ha
    · exact h c (List.mem_of_mem_filter hc)

theorem within_writeN (size : Nat) (h : m.within size = true) (ha : a + l.length ≤ size) :
    (m.writeN a l).within size = true := by
  induction l generalizing m a with
  | nil => exact h
  | cons x rest ih =>
    simp only [List.length_cons] at ha
    exact ih _ _ (within_write _ _ _ _ h (by omega)) (by omega)

@[simp] theorem within_blank (size : Nat) : Memory.blank.within size = true := rfl

/-- Two byte spaces in canonical form that read alike everywhere are equal. -/
theorem ext_read (m' : Memory) (h : m.wf = true) (h' : m'.wf = true) (hr : ∀ a, m.read a = m'.read a) : m = m' := by
  obtain ⟨xs⟩ := m
  obtain ⟨ys⟩ := m'
  rw [wf_iff] at h h'
  simp only [read] at hr h h'
  have key : ∀ (l : List Host.Cell) (k : Nat), (∀ c ∈ l, k < c.1) → lookup l k = unlisted := by
    intro l k hl
    induction l with
    | nil => rfl
    | cons c rest ih =>
      have := hl c (by simp)
      simp only [lookup]
      rw [if_neg (by omega)]
      exact ih (fun x hx => hl x (by simp [hx]))
  congr 1
  induction xs generalizing ys with
  | nil =>
    cases ys with
    | nil => rfl
    | cons y ys =>
      have := hr y.1
      simp only [lookup, if_true] at this
      exact absurd this.symm (h'.2 y (by simp))
  | cons x xs ih =>
    cases ys with
    | nil =>
      have := hr x.1
      simp only [lookup, if_true] at this
      exact absurd this (h.2 x (by simp))
    | cons y ys =>
      obtain ⟨hp, hx⟩ := h
      obtain ⟨hp', hy⟩ := h'
      rw [List.pairwise_cons] at hp hp'
      have hlt : ¬ x.1 < y.1 := by
        intro hlt
        have := hr x.1
        simp only [lookup, if_true] at this
        rw [if_neg (by omega), key ys x.1 (fun c hc => by have := hp'.1 c hc; omega)] at this
        exact hx x (by simp) this
      have hgt : ¬ y.1 < x.1 := by
        intro hgt
        have := hr y.1
        simp only [lookup, if_true] at this
        rw [if_neg (by omega), key xs y.1 (fun c hc => by have := hp.1 c hc; omega)] at this
        exact hy y (by simp) this.symm
      have he : x.1 = y.1 := by omega
      have hv : x.2 = y.2 := by
        have := hr x.1
        simpa [lookup, he] using this
      have hxy : x = y := Prod.ext he hv
      subst hxy
      congr 1
      refine ih ⟨hp.2, fun c hc => hx c (by simp [hc])⟩ ys ⟨hp'.2, fun c hc => hy c (by simp [hc])⟩ ?_
      intro a
      have := hr a
      simp only [lookup] at this
      by_cases hax : x.1 = a
      · subst hax
        rw [key xs x.1 hp.1, key ys x.1 hp'.1]
      · simpa [hax] using this

end Sys2Proof.Machine.Memory

namespace Sys2Proof.Machine

/-- Every byte space of the reset state is in the canonical form. -/
theorem State.reset_memory_wf :
    State.reset.txb.wf = true ∧ State.reset.rxb.wf = true ∧ State.reset.tx.latch.wf = true ∧
      ∀ x ∈ State.reset.pool, x.buf.wf = true := by
  refine ⟨Memory.wf_blank, Memory.wf_blank, Memory.wf_blank, fun x hx => ?_⟩
  rw [List.eq_of_mem_replicate hx]
  exact Memory.wf_blank

end Sys2Proof.Machine
end

