-- ==== Sys2Proof/Laws/State.lean ====
section
/-! SUPPORT. One lemma per field of State per update, true by rfl, so that no later proof unfolds a record update. -/

namespace Sys2Proof.Machine.State

/-! `setPool` -/
section
variable (s : State) (v : List Slot)
@[simp] theorem setPool_pool : (s.setPool v).pool = v := rfl
@[simp] theorem setPool_msgIdCtr : (s.setPool v).msgIdCtr = s.msgIdCtr := rfl
@[simp] theorem setPool_nodeAddr : (s.setPool v).nodeAddr = s.nodeAddr := rfl
@[simp] theorem setPool_errVersionCnt : (s.setPool v).errVersionCnt = s.errVersionCnt := rfl
@[simp] theorem setPool_errLengthCnt : (s.setPool v).errLengthCnt = s.errLengthCnt := rfl
@[simp] theorem setPool_tx : (s.setPool v).tx = s.tx := rfl
@[simp] theorem setPool_txb : (s.setPool v).txb = s.txb := rfl
@[simp] theorem setPool_rxb : (s.setPool v).rxb = s.rxb := rfl
@[simp] theorem setPool_inputs : (s.setPool v).inputs = s.inputs := rfl
@[simp] theorem setPool_driver : (s.setPool v).driver = s.driver := rfl
@[simp] theorem setPool_results : (s.setPool v).results = s.results := rfl
@[simp] theorem setPool_port : (s.setPool v).port = s.port := rfl
end

/-! `setMsgIdCtr` -/
section
variable (s : State) (v : BitVec 3)
@[simp] theorem setMsgIdCtr_pool : (s.setMsgIdCtr v).pool = s.pool := rfl
@[simp] theorem setMsgIdCtr_msgIdCtr : (s.setMsgIdCtr v).msgIdCtr = v := rfl
@[simp] theorem setMsgIdCtr_nodeAddr : (s.setMsgIdCtr v).nodeAddr = s.nodeAddr := rfl
@[simp] theorem setMsgIdCtr_errVersionCnt : (s.setMsgIdCtr v).errVersionCnt = s.errVersionCnt := rfl
@[simp] theorem setMsgIdCtr_errLengthCnt : (s.setMsgIdCtr v).errLengthCnt = s.errLengthCnt := rfl
@[simp] theorem setMsgIdCtr_tx : (s.setMsgIdCtr v).tx = s.tx := rfl
@[simp] theorem setMsgIdCtr_txb : (s.setMsgIdCtr v).txb = s.txb := rfl
@[simp] theorem setMsgIdCtr_rxb : (s.setMsgIdCtr v).rxb = s.rxb := rfl
@[simp] theorem setMsgIdCtr_inputs : (s.setMsgIdCtr v).inputs = s.inputs := rfl
@[simp] theorem setMsgIdCtr_driver : (s.setMsgIdCtr v).driver = s.driver := rfl
@[simp] theorem setMsgIdCtr_results : (s.setMsgIdCtr v).results = s.results := rfl
@[simp] theorem setMsgIdCtr_port : (s.setMsgIdCtr v).port = s.port := rfl
end

/-! `setNodeAddr` -/
section
variable (s : State) (v : BitVec 8)
@[simp] theorem setNodeAddr_pool : (s.setNodeAddr v).pool = s.pool := rfl
@[simp] theorem setNodeAddr_msgIdCtr : (s.setNodeAddr v).msgIdCtr = s.msgIdCtr := rfl
@[simp] theorem setNodeAddr_nodeAddr : (s.setNodeAddr v).nodeAddr = v := rfl
@[simp] theorem setNodeAddr_errVersionCnt : (s.setNodeAddr v).errVersionCnt = s.errVersionCnt := rfl
@[simp] theorem setNodeAddr_errLengthCnt : (s.setNodeAddr v).errLengthCnt = s.errLengthCnt := rfl
@[simp] theorem setNodeAddr_tx : (s.setNodeAddr v).tx = s.tx := rfl
@[simp] theorem setNodeAddr_txb : (s.setNodeAddr v).txb = s.txb := rfl
@[simp] theorem setNodeAddr_rxb : (s.setNodeAddr v).rxb = s.rxb := rfl
@[simp] theorem setNodeAddr_inputs : (s.setNodeAddr v).inputs = s.inputs := rfl
@[simp] theorem setNodeAddr_driver : (s.setNodeAddr v).driver = s.driver := rfl
@[simp] theorem setNodeAddr_results : (s.setNodeAddr v).results = s.results := rfl
@[simp] theorem setNodeAddr_port : (s.setNodeAddr v).port = s.port := rfl
end

/-! `setErrVersionCnt` -/
section
variable (s : State) (v : BitVec 8)
@[simp] theorem setErrVersionCnt_pool : (s.setErrVersionCnt v).pool = s.pool := rfl
@[simp] theorem setErrVersionCnt_msgIdCtr : (s.setErrVersionCnt v).msgIdCtr = s.msgIdCtr := rfl
@[simp] theorem setErrVersionCnt_nodeAddr : (s.setErrVersionCnt v).nodeAddr = s.nodeAddr := rfl
@[simp] theorem setErrVersionCnt_errVersionCnt : (s.setErrVersionCnt v).errVersionCnt = v := rfl
@[simp] theorem setErrVersionCnt_errLengthCnt : (s.setErrVersionCnt v).errLengthCnt = s.errLengthCnt := rfl
@[simp] theorem setErrVersionCnt_tx : (s.setErrVersionCnt v).tx = s.tx := rfl
@[simp] theorem setErrVersionCnt_txb : (s.setErrVersionCnt v).txb = s.txb := rfl
@[simp] theorem setErrVersionCnt_rxb : (s.setErrVersionCnt v).rxb = s.rxb := rfl
@[simp] theorem setErrVersionCnt_inputs : (s.setErrVersionCnt v).inputs = s.inputs := rfl
@[simp] theorem setErrVersionCnt_driver : (s.setErrVersionCnt v).driver = s.driver := rfl
@[simp] theorem setErrVersionCnt_results : (s.setErrVersionCnt v).results = s.results := rfl
@[simp] theorem setErrVersionCnt_port : (s.setErrVersionCnt v).port = s.port := rfl
end

/-! `setErrLengthCnt` -/
section
variable (s : State) (v : BitVec 8)
@[simp] theorem setErrLengthCnt_pool : (s.setErrLengthCnt v).pool = s.pool := rfl
@[simp] theorem setErrLengthCnt_msgIdCtr : (s.setErrLengthCnt v).msgIdCtr = s.msgIdCtr := rfl
@[simp] theorem setErrLengthCnt_nodeAddr : (s.setErrLengthCnt v).nodeAddr = s.nodeAddr := rfl
@[simp] theorem setErrLengthCnt_errVersionCnt : (s.setErrLengthCnt v).errVersionCnt = s.errVersionCnt := rfl
@[simp] theorem setErrLengthCnt_errLengthCnt : (s.setErrLengthCnt v).errLengthCnt = v := rfl
@[simp] theorem setErrLengthCnt_tx : (s.setErrLengthCnt v).tx = s.tx := rfl
@[simp] theorem setErrLengthCnt_txb : (s.setErrLengthCnt v).txb = s.txb := rfl
@[simp] theorem setErrLengthCnt_rxb : (s.setErrLengthCnt v).rxb = s.rxb := rfl
@[simp] theorem setErrLengthCnt_inputs : (s.setErrLengthCnt v).inputs = s.inputs := rfl
@[simp] theorem setErrLengthCnt_driver : (s.setErrLengthCnt v).driver = s.driver := rfl
@[simp] theorem setErrLengthCnt_results : (s.setErrLengthCnt v).results = s.results := rfl
@[simp] theorem setErrLengthCnt_port : (s.setErrLengthCnt v).port = s.port := rfl
end

/-! `setTx` -/
section
variable (s : State) (v : Tx)
@[simp] theorem setTx_pool : (s.setTx v).pool = s.pool := rfl
@[simp] theorem setTx_msgIdCtr : (s.setTx v).msgIdCtr = s.msgIdCtr := rfl
@[simp] theorem setTx_nodeAddr : (s.setTx v).nodeAddr = s.nodeAddr := rfl
@[simp] theorem setTx_errVersionCnt : (s.setTx v).errVersionCnt = s.errVersionCnt := rfl
@[simp] theorem setTx_errLengthCnt : (s.setTx v).errLengthCnt = s.errLengthCnt := rfl
@[simp] theorem setTx_tx : (s.setTx v).tx = v := rfl
@[simp] theorem setTx_txb : (s.setTx v).txb = s.txb := rfl
@[simp] theorem setTx_rxb : (s.setTx v).rxb = s.rxb := rfl
@[simp] theorem setTx_inputs : (s.setTx v).inputs = s.inputs := rfl
@[simp] theorem setTx_driver : (s.setTx v).driver = s.driver := rfl
@[simp] theorem setTx_results : (s.setTx v).results = s.results := rfl
@[simp] theorem setTx_port : (s.setTx v).port = s.port := rfl
end

/-! `setTxb` -/
section
variable (s : State) (v : Memory)
@[simp] theorem setTxb_pool : (s.setTxb v).pool = s.pool := rfl
@[simp] theorem setTxb_msgIdCtr : (s.setTxb v).msgIdCtr = s.msgIdCtr := rfl
@[simp] theorem setTxb_nodeAddr : (s.setTxb v).nodeAddr = s.nodeAddr := rfl
@[simp] theorem setTxb_errVersionCnt : (s.setTxb v).errVersionCnt = s.errVersionCnt := rfl
@[simp] theorem setTxb_errLengthCnt : (s.setTxb v).errLengthCnt = s.errLengthCnt := rfl
@[simp] theorem setTxb_tx : (s.setTxb v).tx = s.tx := rfl
@[simp] theorem setTxb_txb : (s.setTxb v).txb = v := rfl
@[simp] theorem setTxb_rxb : (s.setTxb v).rxb = s.rxb := rfl
@[simp] theorem setTxb_inputs : (s.setTxb v).inputs = s.inputs := rfl
@[simp] theorem setTxb_driver : (s.setTxb v).driver = s.driver := rfl
@[simp] theorem setTxb_results : (s.setTxb v).results = s.results := rfl
@[simp] theorem setTxb_port : (s.setTxb v).port = s.port := rfl
end

/-! `setRxb` -/
section
variable (s : State) (v : Memory)
@[simp] theorem setRxb_pool : (s.setRxb v).pool = s.pool := rfl
@[simp] theorem setRxb_msgIdCtr : (s.setRxb v).msgIdCtr = s.msgIdCtr := rfl
@[simp] theorem setRxb_nodeAddr : (s.setRxb v).nodeAddr = s.nodeAddr := rfl
@[simp] theorem setRxb_errVersionCnt : (s.setRxb v).errVersionCnt = s.errVersionCnt := rfl
@[simp] theorem setRxb_errLengthCnt : (s.setRxb v).errLengthCnt = s.errLengthCnt := rfl
@[simp] theorem setRxb_tx : (s.setRxb v).tx = s.tx := rfl
@[simp] theorem setRxb_txb : (s.setRxb v).txb = s.txb := rfl
@[simp] theorem setRxb_rxb : (s.setRxb v).rxb = v := rfl
@[simp] theorem setRxb_inputs : (s.setRxb v).inputs = s.inputs := rfl
@[simp] theorem setRxb_driver : (s.setRxb v).driver = s.driver := rfl
@[simp] theorem setRxb_results : (s.setRxb v).results = s.results := rfl
@[simp] theorem setRxb_port : (s.setRxb v).port = s.port := rfl
end

/-! `setInputs` -/
section
variable (s : State) (v : List Input)
@[simp] theorem setInputs_pool : (s.setInputs v).pool = s.pool := rfl
@[simp] theorem setInputs_msgIdCtr : (s.setInputs v).msgIdCtr = s.msgIdCtr := rfl
@[simp] theorem setInputs_nodeAddr : (s.setInputs v).nodeAddr = s.nodeAddr := rfl
@[simp] theorem setInputs_errVersionCnt : (s.setInputs v).errVersionCnt = s.errVersionCnt := rfl
@[simp] theorem setInputs_errLengthCnt : (s.setInputs v).errLengthCnt = s.errLengthCnt := rfl
@[simp] theorem setInputs_tx : (s.setInputs v).tx = s.tx := rfl
@[simp] theorem setInputs_txb : (s.setInputs v).txb = s.txb := rfl
@[simp] theorem setInputs_rxb : (s.setInputs v).rxb = s.rxb := rfl
@[simp] theorem setInputs_inputs : (s.setInputs v).inputs = v := rfl
@[simp] theorem setInputs_driver : (s.setInputs v).driver = s.driver := rfl
@[simp] theorem setInputs_results : (s.setInputs v).results = s.results := rfl
@[simp] theorem setInputs_port : (s.setInputs v).port = s.port := rfl
end

/-! `setDriver` -/
section
variable (s : State) (v : Driver)
@[simp] theorem setDriver_pool : (s.setDriver v).pool = s.pool := rfl
@[simp] theorem setDriver_msgIdCtr : (s.setDriver v).msgIdCtr = s.msgIdCtr := rfl
@[simp] theorem setDriver_nodeAddr : (s.setDriver v).nodeAddr = s.nodeAddr := rfl
@[simp] theorem setDriver_errVersionCnt : (s.setDriver v).errVersionCnt = s.errVersionCnt := rfl
@[simp] theorem setDriver_errLengthCnt : (s.setDriver v).errLengthCnt = s.errLengthCnt := rfl
@[simp] theorem setDriver_tx : (s.setDriver v).tx = s.tx := rfl
@[simp] theorem setDriver_txb : (s.setDriver v).txb = s.txb := rfl
@[simp] theorem setDriver_rxb : (s.setDriver v).rxb = s.rxb := rfl
@[simp] theorem setDriver_inputs : (s.setDriver v).inputs = s.inputs := rfl
@[simp] theorem setDriver_driver : (s.setDriver v).driver = v := rfl
@[simp] theorem setDriver_results : (s.setDriver v).results = s.results := rfl
@[simp] theorem setDriver_port : (s.setDriver v).port = s.port := rfl
end

/-! `addResult` -/
section
variable (s : State) (v : Result)
@[simp] theorem addResult_pool : (s.addResult v).pool = s.pool := rfl
@[simp] theorem addResult_msgIdCtr : (s.addResult v).msgIdCtr = s.msgIdCtr := rfl
@[simp] theorem addResult_nodeAddr : (s.addResult v).nodeAddr = s.nodeAddr := rfl
@[simp] theorem addResult_errVersionCnt : (s.addResult v).errVersionCnt = s.errVersionCnt := rfl
@[simp] theorem addResult_errLengthCnt : (s.addResult v).errLengthCnt = s.errLengthCnt := rfl
@[simp] theorem addResult_tx : (s.addResult v).tx = s.tx := rfl
@[simp] theorem addResult_txb : (s.addResult v).txb = s.txb := rfl
@[simp] theorem addResult_rxb : (s.addResult v).rxb = s.rxb := rfl
@[simp] theorem addResult_inputs : (s.addResult v).inputs = s.inputs := rfl
@[simp] theorem addResult_driver : (s.addResult v).driver = s.driver := rfl
@[simp] theorem addResult_results : (s.addResult v).results = s.results ++ [v] := rfl
@[simp] theorem addResult_port : (s.addResult v).port = s.port := rfl
end

/-! `addPort` -/
section
variable (s : State) (v : PortEvent)
@[simp] theorem addPort_pool : (s.addPort v).pool = s.pool := rfl
@[simp] theorem addPort_msgIdCtr : (s.addPort v).msgIdCtr = s.msgIdCtr := rfl
@[simp] theorem addPort_nodeAddr : (s.addPort v).nodeAddr = s.nodeAddr := rfl
@[simp] theorem addPort_errVersionCnt : (s.addPort v).errVersionCnt = s.errVersionCnt := rfl
@[simp] theorem addPort_errLengthCnt : (s.addPort v).errLengthCnt = s.errLengthCnt := rfl
@[simp] theorem addPort_tx : (s.addPort v).tx = s.tx := rfl
@[simp] theorem addPort_txb : (s.addPort v).txb = s.txb := rfl
@[simp] theorem addPort_rxb : (s.addPort v).rxb = s.rxb := rfl
@[simp] theorem addPort_inputs : (s.addPort v).inputs = s.inputs := rfl
@[simp] theorem addPort_driver : (s.addPort v).driver = s.driver := rfl
@[simp] theorem addPort_results : (s.addPort v).results = s.results := rfl
@[simp] theorem addPort_port : (s.addPort v).port = s.port ++ [v] := rfl
end

end Sys2Proof.Machine.State
end

