-- ==== Sys2Proof/Laws/Ops.lean ====
section
/-! SUPPORT. What each shared operation can do, said once: how a command ends, the busy gate, the driver port, the
saturating increment, and how a message is cut into frames. -/

namespace Sys2Proof.Machine

/-! ### How a command ends, and the busy gate -/

@[simp] theorem reply_eq (r : Result) (s : State) : reply r s = s.addResult r := rfl

@[simp] theorem raise_eq (st : Status) (s : State) (n : BitVec 8) : raise st s n = s.addResult (resultOf st (n := n)) :=
  rfl

theorem gate_of_busy (body : State → State) {s : State} (h : s.tx.busy = true) :
    gate body s = s.addResult (resultOf .busy) := by
  simp [gate, h]

theorem gate_of_idle (body : State → State) {s : State} (h : s.tx.busy = false) : gate body s = body s := by
  simp [gate, h]

/-! ### The driver port -/

theorem rawRx_of_none {s : State} (h : s.rxAnswer = none) :
    rawRx s = (s.setDriver s.driver.afterRx).addPort (.rawAvail false) := by
  simp [rawRx, h]

theorem rawRx_of_some {s : State} {f : RawFrame} (h : s.rxAnswer = some f) :
    rawRx s = ((s.setDriver s.driver.afterRx).addPort (.rawAvail true)).addPort (.rawRecv f) := by
  simp [rawRx, h]

/-! ### Counting -/

theorem satInc8_eq (v : BitVec 8) : satInc8 v = BitVec.ofNat 8 (min (v.toNat + 1) 255) := by
  have := v.isLt
  unfold satInc8
  split
  · next h => subst h; rfl
  · next h =>
    have : v.toNat ≠ 255 := fun hv => h (BitVec.eq_of_toNat_eq (by simpa using hv))
    apply BitVec.eq_of_toNat_eq
    rw [BitVec.toNat_add, BitVec.toNat_ofNat]
    simp
    omega

theorem toNat_satInc8 (v : BitVec 8) : (satInc8 v).toNat = min (v.toNat + 1) 255 := by
  rw [satInc8_eq, BitVec.toNat_ofNat]
  omega

/-! ### Chunks (30_encoding.md R78) -/

theorem fragCount_eq (len : Nat) : fragCount len = (len + 7) / 8 := by
  simp only [fragCount, ceilDiv, Config.chunk]
  omega

/-- A legal message has 1 to 15 chunks (41_fragmentation.md R113). -/
theorem fragCount_bounds {c : Config} {len : Nat} (h1 : 1 ≤ len) (h2 : len ≤ c.maxMsg) :
    1 ≤ fragCount len ∧ fragCount len ≤ 15 ∧ len ≤ fragCount len * 8 ∧ (fragCount len - 1) * 8 < len := by
  have := c.maxMsg_le
  simp only [Config.chunk] at this
  rw [fragCount_eq]
  omega

/-- The data length of a frame is the number of its bytes. -/
@[simp] theorem dlc_toNat (f : RawFrame) : f.dlc.toNat = f.data.length := rfl

@[simp] theorem ofBytes_h (h : Header) (l : List Byte) : (RawFrame.ofBytes h l).h = h := rfl

/-- A frame made of the bytes of one chunk carries exactly them. -/
theorem ofBytes_data (h : Header) {l : List Byte} (hl : l.length ≤ 15) : (RawFrame.ofBytes h l).data = l :=
  List.take_of_length_le hl

/-- A chunk never has more than `CHUNK` bytes, whatever its index. -/
theorem chunkLen_le_chunk (len idx : Nat) : chunkLen len idx ≤ 8 := by
  unfold chunkLen
  split
  · exact Nat.le_refl 8
  · simp only [fragCount, ceilDiv, Config.chunk]
    omega

@[simp] theorem fragment_h (c : Config) (id : BitVec 3) (dest src : BitVec 8) (payload : Memory) (len idx : Nat) :
    (fragment c id dest src payload len idx).h = hdrEnc c (id.setWidth 8) (BitVec.ofNat 8 (fragCount len))
      (BitVec.ofNat 8 idx) dest src := rfl

/-- A fragment carries its chunk. -/
@[simp] theorem fragment_data (c : Config) (id : BitVec 3) (dest src : BitVec 8) (payload : Memory) (len idx : Nat) :
    (fragment c id dest src payload len idx).data = payload.readN (chunkOff idx) (chunkLen len idx) :=
  ofBytes_data _ (by have := chunkLen_le_chunk len idx; simp only [Memory.length_readN]; omega)

/-- The frame offered to the driver carries its chunk. -/
@[simp] theorem offered_data (c : Config) (s : State) : (offered c s).data =
    s.tx.latch.readN (chunkOff s.tx.idx.toNat) (chunkLen s.tx.len.toNat s.tx.idx.toNat) :=
  ofBytes_data _ (by
    have := chunkLen_le_chunk s.tx.len.toNat s.tx.idx.toNat
    simp only [Memory.length_readN]
    omega)

/-- A version that fits its register reads as itself (10_state.md R36). -/
theorem versionRegister_of_lt {c : Config} (h : c.protocolVersion < 256) :
    versionRegister c = BitVec.ofNat 32 c.protocolVersion := if_pos h

theorem chunkLen_of_lt {len idx : Nat} (h : idx + 1 < fragCount len) : chunkLen len idx = 8 := by
  rw [chunkLen, if_pos (by omega)]
  rfl

theorem chunkLen_last {len idx : Nat} (h : fragCount len = idx + 1) : chunkLen len idx = len - 8 * idx := by
  rw [chunkLen, if_neg (by omega), h]
  rfl

theorem chunkLen_zero (len : Nat) : chunkLen len 0 = min len 8 := by
  unfold chunkLen
  rw [fragCount_eq]
  by_cases h : 0 < (len + 7) / 8 - 1
  · rw [if_pos h, Config.chunk]
    omega
  · rw [if_neg h, Config.chunk]
    omega

/-- A chunk has at most 8 bytes and lies within the message. -/
theorem chunkLen_le {len idx : Nat} (h : idx < fragCount len) : chunkLen len idx ≤ 8 ∧ 8 * idx + chunkLen len idx ≤ len := by
  have e := fragCount_eq len
  by_cases h1 : idx + 1 < fragCount len
  · rw [chunkLen_of_lt h1]
    omega
  · rw [chunkLen_last (by omega)]
    omega

theorem chunkOff_eq (idx : Nat) : chunkOff idx = 8 * idx := Nat.mul_comm ..

/-- The first chunks in order are the first bytes of the message. -/
theorem flatMap_chunks (m : Memory) {len n : Nat} (hn : n < fragCount len) :
    (List.range n).flatMap (fun k => m.readN (chunkOff k) (chunkLen len k)) = m.readN 0 (8 * n) := by
  induction n with
  | zero => rfl
  | succ n ih =>
    rw [List.range_succ, List.flatMap_append, ih (by omega), Nat.mul_succ, Memory.readN_append]
    simp [chunkLen_of_lt hn, chunkOff_eq]

/-! ### The validator (43_validator.md R161) -/

theorem paddedLen_eq (d : Nat) : paddedLen d = (d + 7) / 8 * 8 := by
  simp only [paddedLen, ceilDiv, Config.chunk]
  omega

/-- When a message is accepted, and at what length. -/
theorem validate_eq_accept {c : Config} {m : List Byte} {d : Nat} :
    validate c m = .accept d ↔
      c.msgMinLen ≤ m.length ∧ c.verOf m = c.protocolVersion ∧ d = c.declaredLenOf m ∧
        (m.length = d ∨ m.length = paddedLen d) := by
  unfold validate
  by_cases h1 : m.length < c.msgMinLen
  · simp [h1]
  · by_cases h2 : c.verOf m = c.protocolVersion
    · by_cases h3 : m.length = c.declaredLenOf m
      · rw [if_neg h1, if_neg (by simp [h2]), if_pos h3]
        simp only [Verdict.accept.injEq]
        exact ⟨fun h => ⟨by omega, h2, h.symm, .inl (by omega)⟩, fun h => h.2.2.1.symm⟩
      · by_cases h4 : m.length = paddedLen (c.declaredLenOf m)
        · rw [if_neg h1, if_neg (by simp [h2]), if_neg h3, if_pos h4]
          simp only [Verdict.accept.injEq]
          exact ⟨fun h => ⟨by omega, h2, h.symm, .inr (by rw [← h]; exact h4)⟩, fun h => h.2.2.1.symm⟩
        · rw [if_neg h1, if_neg (by simp [h2]), if_neg h3, if_neg h4]
          simp only [reduceCtorEq, false_iff]
          rintro ⟨-, -, rfl, h | h⟩
          · exact h3 h
          · exact h4 h
    · simp [h1, h2]

/-- An accepted message is never longer than what was received. -/
theorem le_of_validate {c : Config} {m : List Byte} {d : Nat} (h : validate c m = .accept d) : d ≤ m.length := by
  obtain ⟨-, -, -, h | h⟩ := validate_eq_accept.1 h
  · omega
  · rw [paddedLen_eq] at h
    omega

end Sys2Proof.Machine
end

