-- ==== Sys2Proof/Laws/PerInstr.lean ====
section
/-! SUPPORT. Statements about every command as syntax, one lemma per constructor of `Instr`. -/

/-! ### RoundTrip: the decoder reads back what the encoder writes (30_encoding.md R81, R83). -/

namespace Sys2Proof.Laws.RoundTrip

/-- The canonical word of a command decodes to that command. -/
def Statement (i : Instr) : Prop := decode (encode i) = .command i

theorem hdrEnc (id count idx dest src : BitVec 8) : Statement (.hdrEnc id count idx dest src) := by
  simp [Statement, encode, decode]

theorem hdrDec (word : Header) : Statement (.hdrDec word) := by
  simp [Statement, encode, decode]

theorem send (dest len : BitVec 8) (noack : Bool) : Statement (.send dest len noack) := by
  cases noack <;> simp [Statement, encode, decode]

theorem poll : Statement .poll := by
  simp [Statement, encode, decode]

theorem recv : Statement .recv := by
  simp [Statement, encode, decode]

theorem halRecv : Statement .halRecv := by
  simp [Statement, encode, decode]

theorem init : Statement .init := by
  simp [Statement, encode, decode]

theorem setAddr (addr : BitVec 8) : Statement (.setAddr addr) := by
  simp [Statement, encode, decode]

theorem getAddr : Statement .getAddr := by
  simp [Statement, encode, decode]

theorem rdStat (idx : BitVec 8) : Statement (.rdStat idx) := by
  simp [Statement, encode, decode]

end Sys2Proof.Laws.RoundTrip
end

