-- ==== Sys2Proof/Laws/Pool.lean ====
section
/-! SUPPORT. What the scans of the Slot Pool, the parts of a round and the drain can do, said once each. -/

namespace Sys2Proof.Machine

/-! ### Small lemmas of the slot functions -/

section
variable (x : Slot) (f : HeaderFields) (count : BitVec 4) (data : List Byte)

@[simp] theorem Slot.clean_buf : x.clean.buf = x.buf := rfl
@[simp] theorem Slot.clean_isFree : x.clean.isFree = true := rfl
@[simp] theorem Slot.clean_isFilling : x.clean.isFilling = false := rfl
@[simp] theorem Slot.claim_clean : Slot.claim f x.clean = Slot.claim f x := rfl
@[simp] theorem Slot.claim_isFilling : (Slot.claim f x).isFilling = true := rfl
@[simp] theorem Slot.claim_ready : (Slot.claim f x).ready = false := rfl
@[simp] theorem Slot.claim_len : (Slot.claim f x).len = 0 := rfl
@[simp] theorem Slot.claim_nextIdx : (Slot.claim f x).nextIdx = 0 := rfl
@[simp] theorem Slot.claim_locked : (Slot.claim f x).locked = true := rfl
@[simp] theorem Slot.claim_src : (Slot.claim f x).src = f.src := rfl
@[simp] theorem Slot.claim_msgId : (Slot.claim f x).msgId = f.id := rfl
@[simp] theorem Slot.claim_buf : (Slot.claim f x).buf = x.buf := rfl
@[simp] theorem Slot.advance_locked : (x.advance count data).locked = x.locked := rfl
@[simp] theorem Slot.advance_src : (x.advance count data).src = x.src := rfl
@[simp] theorem Slot.advance_msgId : (x.advance count data).msgId = x.msgId := rfl
@[simp] theorem Slot.advance_nextIdx : (x.advance count data).nextIdx = x.nextIdx + 1 := rfl
@[simp] theorem Slot.advance_len : (x.advance count data).len = x.len + BitVec.ofNat 7 data.length := rfl
@[simp] theorem Slot.advance_age : (x.advance count data).age = 0 := rfl
@[simp] theorem Slot.advance_buf : (x.advance count data).buf = x.buf.writeN x.len.toNat data := rfl
@[simp] theorem Slot.advance_ready :
    (x.advance count data).ready = (x.ready || x.nextIdx + 1 == count.setWidth 5) := rfl

theorem Slot.isFilling_iff : x.isFilling = true ↔ x.locked = true ∧ x.ready = false := by simp [Slot.isFilling]

theorem Slot.matches_iff : x.matches f = true ↔
    x.isFilling = true ∧ x.src = f.src ∧ x.msgId = f.id ∧ x.nextIdx = f.idx.setWidth 5 := by
  simp [Slot.matches, and_assoc]

theorem Slot.aged_of_isFilling (h : x.isFilling = true) : x.aged = { x with age := satInc8 x.age } := by
  simp [Slot.aged, h]

theorem Slot.aged_of_not_isFilling (h : x.isFilling = false) : x.aged = x := by simp [Slot.aged, h]

@[simp] theorem Slot.aged_locked : x.aged.locked = x.locked := by unfold Slot.aged; split <;> rfl
@[simp] theorem Slot.aged_ready : x.aged.ready = x.ready := by unfold Slot.aged; split <;> rfl
@[simp] theorem Slot.aged_src : x.aged.src = x.src := by unfold Slot.aged; split <;> rfl
@[simp] theorem Slot.aged_msgId : x.aged.msgId = x.msgId := by unfold Slot.aged; split <;> rfl
@[simp] theorem Slot.aged_nextIdx : x.aged.nextIdx = x.nextIdx := by unfold Slot.aged; split <;> rfl
@[simp] theorem Slot.aged_len : x.aged.len = x.len := by unfold Slot.aged; split <;> rfl
@[simp] theorem Slot.aged_buf : x.aged.buf = x.buf := by unfold Slot.aged; split <;> rfl
@[simp] theorem Slot.aged_isFilling : x.aged.isFilling = x.isFilling := by simp [Slot.isFilling]
@[simp] theorem Slot.aged_isFree : x.aged.isFree = x.isFree := by simp [Slot.isFree]

end

/-! ### Scans -/

theorem firstSlot_eq_some {p : Slot → Bool} {pool : List Slot} {i : Nat} :
    firstSlot p pool = some i ↔
      ∃ x, pool[i]? = some x ∧ p x = true ∧ ∀ (j : Nat) (y : Slot), j < i → pool[j]? = some y → p y = false := by
  unfold firstSlot
  rw [List.findIdx?_eq_some_iff_getElem]
  constructor
  · rintro ⟨h, hp, hj⟩
    refine ⟨pool[i], List.getElem?_eq_getElem h, hp, fun j y hji hy => ?_⟩
    obtain ⟨hlt, rfl⟩ := List.getElem?_eq_some_iff.1 hy
    simpa using hj j hji
  · rintro ⟨x, hx, hp, hj⟩
    obtain ⟨h, rfl⟩ := List.getElem?_eq_some_iff.1 hx
    exact ⟨h, hp, fun j hji => by simpa using hj j _ hji (List.getElem?_eq_getElem (by omega))⟩

theorem firstSlot_eq_none {p : Slot → Bool} {pool : List Slot} :
    firstSlot p pool = none ↔ ∀ x ∈ pool, p x = false := by
  simp [firstSlot, List.findIdx?_eq_none_iff]

theorem le_maxFillingAge {pool : List Slot} {x : Slot} (h : x ∈ pool) (hx : x.isFilling = true) :
    x.age.toNat ≤ maxFillingAge pool := by
  induction pool with
  | nil => simp at h
  | cons y rest ih =>
    simp only [maxFillingAge]
    rcases List.mem_cons.1 h with rfl | h
    · simp [hx]
    · have := ih h
      split <;> omega

theorem exists_maxFillingAge {pool : List Slot} (h : ∃ x ∈ pool, x.isFilling = true) :
    ∃ x ∈ pool, x.isFilling = true ∧ x.age.toNat = maxFillingAge pool := by
  induction pool with
  | nil => simp at h
  | cons y rest ih =>
    simp only [maxFillingAge]
    by_cases hr : ∃ x ∈ rest, x.isFilling = true
    · obtain ⟨x, hx, hf, ha⟩ := ih hr
      split
      · next hy =>
        by_cases hle : y.age.toNat ≤ maxFillingAge rest
        · exact ⟨x, by simp [hx], hf, by omega⟩
        · exact ⟨y, by simp, hy, by omega⟩
      · exact ⟨x, by simp [hx], hf, ha⟩
    · obtain ⟨x, hx, hf⟩ := h
      rcases List.mem_cons.1 hx with rfl | hx
      · refine ⟨x, by simp, hf, ?_⟩
        have : maxFillingAge rest = 0 := by
          clear ih hx hf
          induction rest with
          | nil => rfl
          | cons z zs ih' =>
            simp only [maxFillingAge]
            rw [if_neg (fun hz => hr ⟨z, by simp, hz⟩)]
            exact ih' (fun ⟨w, hw, hwf⟩ => hr ⟨w, by simp [hw], hwf⟩)
        simp [hf, this]
      · exact absurd ⟨x, hx, hf⟩ hr

/-- The eviction candidate is the lowest-index FILLING slot of greatest age (42_reassembly.md R133). -/
theorem evictCandidate_eq_some {pool : List Slot} {i : Nat} :
    evictCandidate pool = some i ↔
      ∃ x, pool[i]? = some x ∧ x.isFilling = true ∧
        (∀ (j : Nat) (y : Slot), pool[j]? = some y → y.isFilling = true → y.age.toNat ≤ x.age.toNat) ∧
        ∀ (j : Nat) (y : Slot), j < i → pool[j]? = some y → y.isFilling = true → y.age.toNat < x.age.toNat := by
  unfold evictCandidate
  rw [firstSlot_eq_some]
  constructor
  · rintro ⟨x, hx, hp, hj⟩
    simp only [Bool.and_eq_true, beq_iff_eq] at hp
    refine ⟨x, hx, hp.1, fun j y hy hf => ?_, fun j y hji hy hf => ?_⟩
    · rw [hp.2]; exact le_maxFillingAge (List.mem_of_getElem? hy) hf
    · have h1 := le_maxFillingAge (List.mem_of_getElem? hy) hf
      have h2 := hj j y hji hy
      simp only [hf, Bool.true_and, beq_eq_false_iff_ne] at h2
      omega
  · rintro ⟨x, hx, hf, hle, hlt⟩
    have hmax : x.age.toNat = maxFillingAge pool := by
      obtain ⟨z, hz, hzf, hza⟩ := exists_maxFillingAge ⟨x, List.mem_of_getElem? hx, hf⟩
      obtain ⟨k, hk⟩ := List.getElem?_of_mem hz
      have h1 := hle k z hk hzf
      have h2 := le_maxFillingAge (List.mem_of_getElem? hx) hf
      omega
    refine ⟨x, hx, by simp [hf, hmax], fun j y hji hy => ?_⟩
    cases hyf : y.isFilling with
    | false => simp
    | true =>
      have := hlt j y hji hy hyf
      simp only [Bool.true_and, beq_eq_false_iff_ne]
      omega

theorem evictCandidate_eq_none {pool : List Slot} :
    evictCandidate pool = none ↔ ∀ x ∈ pool, x.isFilling = false := by
  constructor
  · intro h x hx
    cases hf : x.isFilling with
    | false => rfl
    | true =>
      obtain ⟨z, hz, hzf, hza⟩ := exists_maxFillingAge ⟨x, hx, hf⟩
      have := firstSlot_eq_none.1 h z hz
      simp [hzf, hza] at this
  · intro h
    exact firstSlot_eq_none.2 (fun x hx => by simp [h x hx])

/-! ### Aging -/

@[simp] theorem length_ageFrom (sel : Option Nat) (j : Nat) (pool : List Slot) :
    (ageFrom sel j pool).length = pool.length := by
  induction pool generalizing j with
  | nil => rfl
  | cons x rest ih => simp [ageFrom, ih]

theorem getElem?_ageFrom (sel : Option Nat) (j k : Nat) (pool : List Slot) :
    (ageFrom sel j pool)[k]? = (pool[k]?).map (fun x => if sel = some (j + k) then x else x.aged) := by
  induction pool generalizing j k with
  | nil => simp [ageFrom]
  | cons x rest ih =>
    cases k with
    | zero => simp [ageFrom]
    | succ k =>
      simp only [ageFrom, List.getElem?_cons_succ, ih]
      rw [show j + 1 + k = j + (k + 1) from by omega]

@[simp] theorem length_ageOthers (sel : Option Nat) (pool : List Slot) :
    (ageOthers sel pool).length = pool.length := length_ageFrom _ _ _

/-- Every slot but the selected one is aged (42_reassembly.md R138). -/
theorem getElem?_ageOthers (sel : Option Nat) (k : Nat) (pool : List Slot) :
    (ageOthers sel pool)[k]? = (pool[k]?).map (fun x => if sel = some k then x else x.aged) := by
  simp [ageOthers, getElem?_ageFrom]

/-- When no slot is FILLING a dropped frame changes nothing (60_exceptions.md R205). -/
theorem ageOthers_of_none_filling (sel : Option Nat) (pool : List Slot) (h : ∀ x ∈ pool, x.isFilling = false) :
    ageOthers sel pool = pool := by
  apply List.ext_getElem?
  intro k
  rw [getElem?_ageOthers]
  cases hk : pool[k]? with
  | none => rfl
  | some x =>
    have := Slot.aged_of_not_isFilling x (h x (List.mem_of_getElem? hk))
    simp [this]

/-! ### The round -/

/-- What the first half of a round can decide: a drop, or one slot that takes the frame (42_reassembly.md R131). -/
theorem select_take {c : Config} {f : RawFrame} {pool p : List Slot} {i : Nat} {ev : Bool}
    (h : select c f pool = .take i p ev) :
    f.dlc.toNat ≤ Config.chunk ∧
    ∃ x, pool[i]? = some x ∧
      (((hdrDec f.h).idx = 0 ∧ ev = false ∧ firstSlot Slot.isFree pool = some i ∧
          p = pool.modify i (Slot.claim (hdrDec f.h))) ∨
       ((hdrDec f.h).idx = 0 ∧ ev = true ∧ firstSlot Slot.isFree pool = none ∧ evictCandidate pool = some i ∧
          p = pool.modify i (Slot.claim (hdrDec f.h))) ∨
       ((hdrDec f.h).idx ≠ 0 ∧ ev = false ∧ firstSlot (Slot.matches (hdrDec f.h)) pool = some i ∧
          x.len.toNat + f.dlc.toNat ≤ c.maxMsg ∧ p = pool)) := by
  unfold select at h
  simp only at h
  split at h
  · cases h
  · next hd =>
    refine ⟨by omega, ?_⟩
    split at h
    · next h0 =>
      unfold allocate at h
      split at h
      · next j hj =>
        cases h
        obtain ⟨x, hx, -⟩ := firstSlot_eq_some.1 hj
        exact ⟨x, hx, .inl ⟨h0, rfl, hj, rfl⟩⟩
      · next hn =>
        split at h
        · cases h
        · next v hv =>
          cases h
          obtain ⟨x, hx, -⟩ := evictCandidate_eq_some.1 hv
          refine ⟨x, hx, .inr (.inl ⟨h0, rfl, hn, hv, ?_⟩)⟩
          rw [List.modify_modify_eq]
          rfl
    · next h0 =>
      unfold continuation at h
      split at h
      · cases h
      · next j hj =>
        obtain ⟨x, hx, -⟩ := firstSlot_eq_some.1 hj
        simp only [hx] at h
        split at h
        · cases h
        · next hl =>
          cases h
          exact ⟨x, hx, .inr (.inr ⟨h0, rfl, hj, by omega, rfl⟩)⟩

/-- Why the first half of a round drops a frame (42_reassembly.md R131). -/
theorem select_drop {c : Config} {f : RawFrame} {pool : List Slot} {st : Status} (h : select c f pool = .drop st) :
    (Config.chunk < f.dlc.toNat ∧ st = .dropBadDlc) ∨
    (f.dlc.toNat ≤ Config.chunk ∧ (hdrDec f.h).idx = 0 ∧ firstSlot Slot.isFree pool = none ∧ evictCandidate pool = none ∧
      st = .dropNoSlot) ∨
    (f.dlc.toNat ≤ Config.chunk ∧ (hdrDec f.h).idx ≠ 0 ∧ firstSlot (Slot.matches (hdrDec f.h)) pool = none ∧
      st = .dropUnmatched) ∨
    (f.dlc.toNat ≤ Config.chunk ∧ (hdrDec f.h).idx ≠ 0 ∧
      ∃ i x, firstSlot (Slot.matches (hdrDec f.h)) pool = some i ∧ pool[i]? = some x ∧
        c.maxMsg < x.len.toNat + f.dlc.toNat ∧ st = .dropOverflow) := by
  unfold select at h
  simp only at h
  split at h
  · next hd => cases h; exact .inl ⟨hd, rfl⟩
  · next hd =>
    refine .inr ?_
    split at h
    · next h0 =>
      refine .inl ?_
      unfold allocate at h
      split at h
      · cases h
      · next hn =>
        split at h
        · next hv => cases h; exact ⟨by omega, h0, hn, hv, rfl⟩
        · cases h
    · next h0 =>
      refine .inr ?_
      unfold continuation at h
      split at h
      · next hn => cases h; exact .inl ⟨by omega, h0, hn, rfl⟩
      · next j hj =>
        obtain ⟨x, hx, -⟩ := firstSlot_eq_some.1 hj
        simp only [hx] at h
        split at h
        · next hl => cases h; exact .inr ⟨by omega, h0, j, x, hj, hx, hl, rfl⟩
        · cases h

/-- A slot after a round that selected slot `i`, `x` being the slot as it was before. -/
def slotAfter (f : RawFrame) (i j : Nat) (x : Slot) : Slot :=
  if j = i then
    Slot.advance (hdrDec f.h).count f.data (if (hdrDec f.h).idx = 0 then Slot.claim (hdrDec f.h) x else x)
  else x.aged

/-- A round that selects a slot (42_reassembly.md R131): the selected slot takes the frame, every other slot ages. -/
theorem rxFrame_take {c : Config} {f : RawFrame} {pool p : List Slot} {i : Nat} {ev : Bool}
    (h : select c f pool = .take i p ev) :
    (rxFrame c f pool).evicted = ev ∧
    (rxFrame c f pool).pool.length = pool.length ∧
    (∀ j, (rxFrame c f pool).pool[j]? = (pool[j]?).map (slotAfter f i j)) ∧
    (∀ x, pool[i]? = some x →
      (rxFrame c f pool).status = if (slotAfter f i i x).ready then .complete else .pending) := by
  have hp : ∀ j, p[j]? =
      (pool[j]?).map (fun x => if j = i ∧ (hdrDec f.h).idx = 0 then Slot.claim (hdrDec f.h) x else x) := by
    intro j
    obtain ⟨-, x, hx, ⟨h0, -, -, rfl⟩ | ⟨h0, -, -, -, rfl⟩ | ⟨h0, -, -, -, rfl⟩⟩ := select_take h
    · simp [List.getElem?_modify, h0, eq_comm]
    · simp [List.getElem?_modify, h0, eq_comm]
    · have h0' : ¬ (hdrDec f.h).idx = 0#4 := h0
      cases p[j]? <;> simp [h0']
  have hl : p.length = pool.length := by
    obtain ⟨-, x, hx, ⟨-, -, -, rfl⟩ | ⟨-, -, -, -, rfl⟩ | ⟨-, -, -, -, rfl⟩⟩ := select_take h <;> simp
  have hm : ∀ j, (p.modify i (Slot.advance (hdrDec f.h).count f.data))[j]? = (pool[j]?).map (fun x =>
      if j = i then Slot.advance (hdrDec f.h).count f.data
        (if (hdrDec f.h).idx = 0 then Slot.claim (hdrDec f.h) x else x) else x) := by
    intro j
    rw [List.getElem?_modify, hp]
    cases pool[j]? with
    | none => rfl
    | some x =>
      by_cases hj : i = j
      · subst hj; by_cases h0 : (hdrDec f.h).idx = 0 <;> simp [h0]
      · simp [hj, Ne.symm hj]
  unfold rxFrame
  rw [h]
  refine ⟨rfl, by simp [hl], fun j => ?_, fun x hx => ?_⟩
  · simp only [getElem?_ageOthers, hm]
    cases pool[j]? with
    | none => rfl
    | some x =>
      by_cases hj : j = i
      · simp [hj, slotAfter]
      · simp [hj, Ne.symm hj, slotAfter]
  · simp only [takenStatus, hm, hx, Option.map_some, if_true, slotAfter]

/-- A round that drops its frame (42_reassembly.md R138): every slot ages. -/
theorem rxFrame_drop {c : Config} {f : RawFrame} {pool : List Slot} {st : Status} (h : select c f pool = .drop st) :
    rxFrame c f pool = ⟨ageOthers none pool, st, false⟩ := by
  unfold rxFrame
  rw [h]

/-! ### Draining -/

/-- What `drain` can do (42_reassembly.md R140). -/
theorem drain_eq_some {pool p : List Slot} {m : List Byte} :
    drain pool = some (m, p) ↔
      ∃ i x, firstSlot Slot.isReady pool = some i ∧ pool[i]? = some x ∧ m = x.message ∧
        p = pool.modify i Slot.clean := by
  unfold drain
  cases h : firstSlot Slot.isReady pool with
  | none => simp
  | some i =>
    obtain ⟨x, hx, -⟩ := firstSlot_eq_some.1 h
    simp only [hx, Option.map_some, Option.some.injEq, Prod.mk.injEq]
    constructor
    · rintro ⟨rfl, rfl⟩
      exact ⟨i, x, rfl, hx, rfl, rfl⟩
    · rintro ⟨j, y, rfl, hy, rfl, rfl⟩
      rw [hx] at hy
      cases hy
      exact ⟨rfl, rfl⟩

theorem drain_eq_none {pool : List Slot} : drain pool = none ↔ ∀ x ∈ pool, x.ready = false := by
  unfold drain
  cases h : firstSlot Slot.isReady pool with
  | none => simpa [Slot.isReady] using firstSlot_eq_none.1 h
  | some i =>
    obtain ⟨x, hx, hr, -⟩ := firstSlot_eq_some.1 h
    simp only [hx, Option.map_some, reduceCtorEq, false_iff]
    intro hn
    have := hn x (List.mem_of_getElem? hx)
    simp [Slot.isReady] at hr
    simp [hr] at this

@[simp] theorem Slot.length_message (x : Slot) : x.message.length = x.len.toNat := by simp [Slot.message]

end Sys2Proof.Machine
end

