-- ==== Sys2Proof/Laws/Step.lean ====
section
/-! SUPPORT. What a step can do, said once: the commands during a send, each command when no send is in flight, and the
inversion of `step`. -/

namespace Sys2Proof.Machine

/-! ### Commands (44_system.md R186) -/

/-- Every command is refused during a send. -/
theorem exec_of_busy (i : Instr) {s : State} (h : s.tx.busy = true) :
    exec i s = .next (s.addResult (resultOf .busy)) := by
  cases i <;> exact congrArg _ (gate_of_busy _ h)

/-- A command that is not refused: its own effect. -/
theorem exec_hdrEnc_of_idle (id count idx dest src : BitVec 8) {s : State} (h : s.tx.busy = false) :
    exec (.hdrEnc id count idx dest src) s =
      .next (s.addResult (resultOf .ok (val := hdrEnc Config.mfe id count idx dest src))) :=
  congrArg _ (gate_of_idle _ h)

theorem exec_hdrDec_of_idle (w : Header) {s : State} (h : s.tx.busy = false) :
    exec (.hdrDec w) s = .next (s.addResult (resultOf .ok (val := w &&& 0x07FFFFFF))) :=
  congrArg _ (gate_of_idle _ h)

theorem exec_send_of_idle_illegal (dest len : BitVec 8) (noack : Bool) {s : State} (h : s.tx.busy = false)
    (hl : len.toNat = 0 ∨ Config.mfe.maxMsg < len.toNat) :
    exec (.send dest len noack) s = .next (s.addResult (resultOf .badLen)) := by
  simp only [exec, execSend, sendOn, gate_of_idle _ h, if_pos hl, raise_eq]

theorem exec_send_of_idle_legal (dest len : BitVec 8) (noack : Bool) {s : State} (h : s.tx.busy = false)
    (h1 : 1 ≤ len.toNat) (h2 : len.toNat ≤ Config.mfe.maxMsg) :
    exec (.send dest len noack) s = .next (sendAccept Config.mfe dest len s) := by
  have : ¬ (len.toNat = 0 ∨ Config.mfe.maxMsg < len.toNat) := by omega
  simp only [exec, execSend, sendOn, gate_of_idle _ h, if_neg this]

theorem exec_poll_of_idle_none {s : State} (h : s.tx.busy = false) (hr : s.rxAnswer = none) :
    exec .poll s =
      .next (((s.setDriver s.driver.afterRx).addPort (.rawAvail false)).addResult (resultOf .empty)) := by
  simp [exec, execPoll, pollOn, gate_of_idle _ h, hr, rawRx_of_none]

theorem exec_poll_of_idle_some {s : State} {f : RawFrame} (h : s.tx.busy = false) (hr : s.rxAnswer = some f) :
    exec .poll s =
      .next (((((s.setDriver s.driver.afterRx).addPort (.rawAvail true)).addPort (.rawRecv f)).setPool
        (rxFrame Config.mfe f s.pool).pool).addResult
        (resultOf (rxFrame Config.mfe f s.pool).status (evicted := (rxFrame Config.mfe f s.pool).evicted))) := by
  simp [exec, execPoll, pollOn, gate_of_idle _ h, hr, rawRx_of_some hr]

theorem exec_recv_of_idle_none {s : State} (h : s.tx.busy = false) (hd : drain s.pool = none) :
    exec .recv s = .next (s.addResult (resultOf .empty)) := by
  simp [exec, execRecv, recvOn, gate_of_idle _ h, hd]

theorem exec_recv_of_idle_some {s : State} {m : List Byte} {p : List Slot} (h : s.tx.busy = false)
    (hd : drain s.pool = some (m, p)) :
    exec .recv s = .next (((s.setPool p).setRxb (s.rxb.writeN 0 m)).addResult
      (resultOf .ok (n := BitVec.ofNat 8 m.length))) := by
  simp [exec, execRecv, recvOn, gate_of_idle _ h, hd]

theorem halRecvOn_of_idle_none (c : Config) {s : State} (h : s.tx.busy = false) (hd : drain s.pool = none) :
    halRecvOn c s = s.addResult (resultOf .empty) := by
  simp [halRecvOn, gate_of_idle _ h, hd]

theorem halRecvOn_of_idle_some (c : Config) {s : State} {m : List Byte} {p : List Slot} (h : s.tx.busy = false)
    (hd : drain s.pool = some (m, p)) :
    halRecvOn c s =
      match validate c m with
      | .rejectVersion =>
        ((s.setPool p).setErrVersionCnt (satInc8 s.errVersionCnt)).addResult (resultOf .errVersion)
      | .rejectLength => ((s.setPool p).setErrLengthCnt (satInc8 s.errLengthCnt)).addResult (resultOf .errLength)
      | .accept d => ((s.setPool p).setRxb (s.rxb.writeN 0 (m.take d))).addResult
          (resultOf .ok (n := BitVec.ofNat 8 d)) := by
  simp only [halRecvOn, gate_of_idle _ h, hd]
  cases validate c m <;> rfl

theorem exec_init_of_idle {s : State} (h : s.tx.busy = false) :
    exec .init s = .next (((((((s.setPool (s.pool.map Slot.clean)).setMsgIdCtr 0).setErrVersionCnt 0).setErrLengthCnt
      0).setDriver s.driver.afterInit).addPort (.rawInit s.initAnswer)).addResult
        (resultOf (if s.initAnswer then .ok else .initFail))) := by
  simp only [exec, execInit, initOn, gate_of_idle _ h, rawInit, reply_eq, raise_eq]
  show Host.Outcome.next (if s.initAnswer = true then _ else _) = _
  split <;> rfl

theorem exec_setAddr_of_idle (addr : BitVec 8) {s : State} (h : s.tx.busy = false) :
    exec (.setAddr addr) s = .next ((s.setNodeAddr addr).addResult (resultOf .ok)) :=
  congrArg _ (gate_of_idle _ h)

theorem exec_getAddr_of_idle {s : State} (h : s.tx.busy = false) :
    exec .getAddr s = .next (s.addResult (resultOf .ok (val := s.nodeAddr.setWidth 32))) :=
  congrArg _ (gate_of_idle _ h)

theorem exec_rdStat_of_idle (idx : BitVec 8) {s : State} (h : s.tx.busy = false) :
    exec (.rdStat idx) s = .next (s.addResult (match statusRegister Config.mfe idx s with
      | none => resultOf .badCmd
      | some v => resultOf .ok (val := v))) := by
  simp only [exec, execRdStat, rdStatOn, gate_of_idle _ h]
  cases statusRegister Config.mfe idx s <;> rfl

/-- Everything a command can do when no send is in flight: return a result and nothing else, or one of the effects. -/
theorem exec_next {i : Instr} {s t : State} (hb : s.tx.busy = false) (h : exec i s = .next t) :
    (∃ st v, t = s.addResult (resultOf st (val := v)) ∧ st ∈ statusesOf i ∧
      (v ≠ 0 → st = .ok ∧ ((∃ a b c d e, i = .hdrEnc a b c d e) ∨ (∃ w, i = .hdrDec w) ∨ i = .getAddr ∨
        ∃ x, i = .rdStat x))) ∨
    (∃ dest len noack, i = .send dest len noack ∧ 1 ≤ len.toNat ∧ len.toNat ≤ Config.mfe.maxMsg ∧
      t = sendAccept Config.mfe dest len s) ∨
    (i = .poll ∧ s.rxAnswer = none ∧
      t = ((s.setDriver s.driver.afterRx).addPort (.rawAvail false)).addResult (resultOf .empty)) ∨
    (i = .poll ∧ ∃ f, s.rxAnswer = some f ∧
      t = ((((s.setDriver s.driver.afterRx).addPort (.rawAvail true)).addPort (.rawRecv f)).setPool
        (rxFrame Config.mfe f s.pool).pool).addResult
        (resultOf (rxFrame Config.mfe f s.pool).status (evicted := (rxFrame Config.mfe f s.pool).evicted))) ∨
    (i = .recv ∧ ∃ m p, drain s.pool = some (m, p) ∧
      t = ((s.setPool p).setRxb (s.rxb.writeN 0 m)).addResult (resultOf .ok (n := BitVec.ofNat 8 m.length))) ∨
    (i = .halRecv ∧ ∃ m p, drain s.pool = some (m, p) ∧
      ((validate Config.mfe m = .rejectVersion ∧
          t = ((s.setPool p).setErrVersionCnt (satInc8 s.errVersionCnt)).addResult (resultOf .errVersion)) ∨
        (validate Config.mfe m = .rejectLength ∧
          t = ((s.setPool p).setErrLengthCnt (satInc8 s.errLengthCnt)).addResult (resultOf .errLength)) ∨
        ∃ d, validate Config.mfe m = .accept d ∧
          t = ((s.setPool p).setRxb (s.rxb.writeN 0 (m.take d))).addResult
            (resultOf .ok (n := BitVec.ofNat 8 d)))) ∨
    (i = .init ∧ t = ((((((s.setPool (s.pool.map Slot.clean)).setMsgIdCtr 0).setErrVersionCnt 0).setErrLengthCnt
      0).setDriver s.driver.afterInit).addPort (.rawInit s.initAnswer)).addResult
        (resultOf (if s.initAnswer then .ok else .initFail))) ∨
    (∃ addr, i = .setAddr addr ∧ t = (s.setNodeAddr addr).addResult (resultOf .ok)) := by
  cases i with
  | hdrEnc a b c d e =>
    rw [exec_hdrEnc_of_idle _ _ _ _ _ hb] at h
    cases h
    exact .inl ⟨_, _, rfl, by simp [statusesOf], fun _ => ⟨rfl, .inl ⟨_, _, _, _, _, rfl⟩⟩⟩
  | hdrDec w =>
    rw [exec_hdrDec_of_idle _ hb] at h
    cases h
    exact .inl ⟨_, _, rfl, by simp [statusesOf], fun _ => ⟨rfl, .inr (.inl ⟨_, rfl⟩)⟩⟩
  | send dest len noack =>
    by_cases hl : len.toNat = 0 ∨ Config.mfe.maxMsg < len.toNat
    · rw [exec_send_of_idle_illegal _ _ _ hb hl] at h
      cases h
      exact .inl ⟨_, _, rfl, by simp [statusesOf], fun hv => absurd rfl hv⟩
    · rw [exec_send_of_idle_legal _ _ _ hb (by omega) (by omega)] at h
      cases h
      exact .inr (.inl ⟨_, _, _, rfl, by omega, by omega, rfl⟩)
  | poll =>
    refine .inr (.inr ?_)
    cases hr : s.rxAnswer with
    | none =>
      rw [exec_poll_of_idle_none hb hr] at h
      cases h
      exact .inl ⟨rfl, rfl, rfl⟩
    | some f =>
      rw [exec_poll_of_idle_some hb hr] at h
      cases h
      exact .inr (.inl ⟨rfl, f, rfl, rfl⟩)
  | recv =>
    cases hd : drain s.pool with
    | none =>
      rw [exec_recv_of_idle_none hb hd] at h
      cases h
      exact .inl ⟨_, _, rfl, by simp [statusesOf], fun hv => absurd rfl hv⟩
    | some mp =>
      rw [exec_recv_of_idle_some hb hd] at h
      cases h
      exact .inr (.inr (.inr (.inr (.inl ⟨rfl, _, _, rfl, rfl⟩))))
  | halRecv =>
    have h : Host.Outcome.next (halRecvOn Config.mfe s) = .next t := h
    cases hd : drain s.pool with
    | none =>
      rw [halRecvOn_of_idle_none _ hb hd] at h
      cases h
      exact .inl ⟨_, _, rfl, by simp [statusesOf], fun hv => absurd rfl hv⟩
    | some mp =>
      rw [halRecvOn_of_idle_some _ hb hd] at h
      cases h
      refine .inr (.inr (.inr (.inr (.inr (.inl ⟨rfl, _, _, rfl, ?_⟩)))))
      cases hv : validate Config.mfe mp.1 with
      | rejectVersion => exact .inl ⟨rfl, rfl⟩
      | rejectLength => exact .inr (.inl ⟨rfl, rfl⟩)
      | accept d => exact .inr (.inr ⟨d, rfl, rfl⟩)
  | init =>
    rw [exec_init_of_idle hb] at h
    cases h
    exact .inr (.inr (.inr (.inr (.inr (.inr (.inl ⟨rfl, rfl⟩))))))
  | setAddr addr =>
    rw [exec_setAddr_of_idle _ hb] at h
    cases h
    exact .inr (.inr (.inr (.inr (.inr (.inr (.inr ⟨_, rfl, rfl⟩))))))
  | getAddr =>
    rw [exec_getAddr_of_idle hb] at h
    cases h
    exact .inl ⟨_, _, rfl, by simp [statusesOf], fun _ => ⟨rfl, .inr (.inr (.inl rfl))⟩⟩
  | rdStat idx =>
    rw [exec_rdStat_of_idle _ hb] at h
    cases h
    cases statusRegister Config.mfe idx s with
    | none => exact .inl ⟨_, _, rfl, by simp [statusesOf], fun hv => absurd rfl hv⟩
    | some v => exact .inl ⟨_, _, rfl, by simp [statusesOf], fun _ => ⟨rfl, .inr (.inr (.inr ⟨_, rfl⟩))⟩⟩

/-! ### The step -/

/-- The canonical word of a command decodes to it. -/
theorem decode_encode (i : Instr) : Laws.RoundTrip.Statement i := by
  cases i
  · exact Laws.RoundTrip.hdrEnc ..
  · exact Laws.RoundTrip.hdrDec ..
  · exact Laws.RoundTrip.send ..
  · exact Laws.RoundTrip.poll
  · exact Laws.RoundTrip.recv
  · exact Laws.RoundTrip.halRecv
  · exact Laws.RoundTrip.init
  · exact Laws.RoundTrip.setAddr ..
  · exact Laws.RoundTrip.getAddr
  · exact Laws.RoundTrip.rdStat ..

/-- The step takes the next input. -/
theorem step_of_inputs {s : State} {i : Input} {rest : List Input} (h : s.inputs = i :: rest) :
    step s = runInput i (s.setInputs rest) := by
  simp [step, h]

/-- A confirmation of the offered frame. -/
theorem runConfirm_of_busy (ok : Bool) {s : State} (h : s.tx.busy = true) :
    runConfirm ok s = .next (txConfirm Config.mfe ok s) := if_pos h

/-- A confirmation while no frame is offered (log 6). -/
theorem runConfirm_of_idle (ok : Bool) {s : State} (h : s.tx.busy = false) :
    runConfirm ok s = .fault .confirmWithoutOffer := if_neg (by simp [h])

/-- The driver refuses the offered frame (41_fragmentation.md R116). -/
theorem txConfirm_false (c : Config) (s : State) :
    txConfirm c false s = ((s.addPort (.sendAnswer false)).setTx s.tx.ended).addResult
      (resultOf .sendFail (n := s.tx.idx.setWidth 8)) := rfl

/-- The driver takes the last frame (41_fragmentation.md R117). -/
theorem txConfirm_true_last (c : Config) {s : State} (h : s.tx.idx.toNat + 1 = s.tx.count.toNat) :
    txConfirm c true s = ((s.addPort (.sendAnswer true)).setTx s.tx.ended).addResult
      (resultOf .ok (n := s.tx.count.setWidth 8)) := by
  simp [txConfirm, h]

/-- The driver takes a frame that is not the last. -/
theorem txConfirm_true_more (c : Config) {s : State} (h : s.tx.idx.toNat + 1 ≠ s.tx.count.toNat) :
    txConfirm c true s =
      offer c ((s.addPort (.sendAnswer true)).setTx { s.tx with idx := s.tx.idx + 1 }) := by
  simp [txConfirm, h]

/-- The first of several steps. -/
theorem run_succ_of_step {s s' : State} (n : Nat) (h : step s = .next s') :
    Sys2Proof.core.run (n + 1) s = Sys2Proof.core.run n s' := by
  have : Sys2Proof.core.step s = .next s' := h
  simp only [Host.Core.run, this]

/-- A run that gets anywhere has a first step. -/
theorem step_of_run_succ {s t : State} {n : Nat} (h : Sys2Proof.core.run (n + 1) s = .next t) :
    ∃ s', step s = .next s' ∧ Sys2Proof.core.run n s' = .next t := by
  have e : Sys2Proof.core.step s = step s := rfl
  simp only [Host.Core.run, e] at h
  cases hs : step s with
  | next s' => exact ⟨s', rfl, by simpa only [hs] using h⟩
  | fault r => simp only [hs, reduceCtorEq] at h
  | refused r => simp only [hs, reduceCtorEq] at h

/-- Everything a step that answers a next state can have done. -/
theorem step_next {s t : State} (h : step s = .next t) :
    (s.inputs = [] ∧ t = s) ∨
    (s.tx.busy = true ∧ ∃ cw rest, s.inputs = .command cw :: rest ∧
      t = (s.setInputs rest).addResult (resultOf .busy)) ∨
    (s.tx.busy = false ∧ ∃ cw rest op, s.inputs = .command cw :: rest ∧ decode cw = .reservedOpcode op ∧
      t = (s.setInputs rest).addResult (resultOf .badCmd)) ∨
    (∃ i rest, Executes s i ∧ exec i (s.setInputs rest) = .next t) ∨
    (s.tx.busy = true ∧ ∃ ok rest, s.inputs = .txConfirm ok :: rest ∧
      t = txConfirm Config.mfe ok (s.setInputs rest)) ∨
    (∃ a b rest, s.inputs = .hostWrite a b :: rest ∧ a < Config.mfe.maxMsg ∧
      t = hostWriteTxb a b (s.setInputs rest)) ∨
    (∃ rest, s.inputs = .reset :: rest ∧ t = hardReset Config.mfe (s.setInputs rest)) := by
  unfold step at h
  split at h
  · next hi => cases h; exact .inl ⟨hi, rfl⟩
  · next i rest hi =>
    refine .inr ?_
    cases i with
    | command cw =>
      cases hb : s.tx.busy with
      | true =>
        refine .inl ⟨rfl, cw, rest, hi, ?_⟩
        simp only [runInput, runCommand] at h
        split at h
        · rw [exec_of_busy _ (by simpa using hb)] at h
          cases h
          rfl
        · rw [reservedOpcode, gate_of_busy _ (by simpa using hb)] at h
          cases h
          rfl
      | false =>
        refine .inr ?_
        simp only [runInput, runCommand] at h
        split at h
        · next j hj => exact .inr (.inl ⟨j, rest, ⟨hb, cw, rest, hi, hj⟩, h⟩)
        · next op hj =>
          refine .inl ⟨rfl, cw, rest, op, hi, hj, ?_⟩
          rw [reservedOpcode, gate_of_idle _ (by simpa using hb)] at h
          cases h
          rfl
    | txConfirm ok =>
      cases hb : s.tx.busy <;> simp only [runInput, runConfirm, State.setInputs_tx, hb, if_true, if_false,
        Bool.false_eq_true, Host.Outcome.next.injEq, reduceCtorEq] at h
      exact .inr (.inr (.inr (.inl ⟨rfl, ok, rest, hi, h.symm⟩)))
    | hostWrite a b =>
      simp only [runInput, runHostWrite] at h
      split at h
      · next ha => cases h; exact .inr (.inr (.inr (.inr (.inl ⟨a, b, rest, hi, ha, rfl⟩))))
      · cases h
    | reset =>
      cases h
      exact .inr (.inr (.inr (.inr (.inr ⟨rest, hi, rfl⟩))))

end Sys2Proof.Machine
end

