-- ==== Sys2Proof/Tests/Slice0.lean ====
section
/-! SUPPORT. The model's own tests. Expected results are the spec's: the encodings of 30_encoding.md R80 to R86 and the
vectors V1 to V5 and programs P1 to P8 of 95_test_vectors.md. Then, for every statement with hypotheses, the witnesses
that its hypotheses can be met. -/

namespace Sys2Proof.Tests

open Sys2Proof Sys2Proof.Machine

/-! ### WellFormed: an ill-formed term for each check (30_encoding.md R76, R77, R88) -/

theorem test_wf_refuses_send_of_no_bytes : Instr.wf Config.reference (.send 7 0 false) = false := by decide

theorem test_wf_refuses_send_above_max : Instr.wf Config.reference (.send 7 33 false) = false := by decide

theorem test_wf_takes_send_of_max : Instr.wf Config.reference (.send 7 32 false) = true := by decide

theorem test_wf_refuses_reserved_register : Instr.wf Config.reference (.rdStat 11) = false := by decide

/-- A raw frame written out: a header and its data bytes, at most 15. -/
def frame (h : Header) (data : List Byte) (fits : data.length < 2 ^ 4 := by decide) : RawFrame := ⟨h, data, fits⟩

/-- D19: `dlc` is 4 bits, so the longest frame has 15 bytes. -/
theorem test_dlc_of_longest_frame : (frame 0x81200705 (List.replicate 15 1)).dlc = 0xF := by decide

theorem test_legal_refuses_frame_of_9_bytes : RawFrame.legal (frame 0x81200705 (List.replicate 9 1)) = false := by decide

/-! ### Decoding: words written from 30_encoding.md R80, R81 (`op a4 a3 a2 a1 a0`), some with ignored bits set (R83) -/

theorem test_decode_hdrEnc :
    decode 0b000000010000010100000010000000010001001000110100 = .command (.hdrEnc 5 2 1 0x12 0x34) := by decide

theorem test_decode_hdrDec :
    decode 0b000000101111111110000001001100010000000000101010 = .command (.hdrDec 0x8131002A) := by decide

theorem test_decode_send : decode 0x03FFFFFE0107 = .command (.send 7 1 false) := by decide

theorem test_decode_send_noack : decode 0x030000011407 = .command (.send 7 20 true) := by decide

theorem test_decode_poll : decode 0x04FF00000001 = .command .poll := by decide

theorem test_decode_recv : decode 0x0500FF000000 = .command .recv := by decide

theorem test_decode_halRecv : decode 0x060000FF0000 = .command .halRecv := by decide

theorem test_decode_init : decode 0x07000000FF00 = .command .init := by decide

theorem test_decode_setAddr : decode 0x08000000FF2A = .command (.setAddr 42) := by decide

theorem test_decode_getAddr : decode 0x0900000000FF = .command .getAddr := by decide

theorem test_decode_rdStat : decode 0x0A000000000B = .command (.rdStat 11) := by decide

theorem test_decode_reserved :
    decode 0x000000000000 = .reservedOpcode 0x00 ∧ decode 0x0B0000000000 = .reservedOpcode 0x0B ∧
      decode 0xFF123456789A = .reservedOpcode 0xFF := by decide

theorem test_encode_send : encode (.send 7 20 true) = 0x030000011407 := by decide

theorem test_table_word : decodeTableWord 48 0x08000000002A = some (.setAddr 42) := by decide

theorem test_table_word_short : decodeTableWord 8 0x2A = none := by decide

/-! ### The reference instance (95_test_vectors.md, head) -/

/-- The state after reset of the reference instance, with the next frame the driver has. -/
def refState (f : Option RawFrame := none) : State :=
  { State.resetOf Config.reference with driver := ⟨[], [f], 0⟩ }

/-- A FILLING slot as the vectors write it: `src id next len age`. -/
def filling (src : BitVec 8) (id : BitVec 3) (next : BitVec 5) (len : BitVec 7) (age : BitVec 8) : Slot :=
  ⟨true, false, src, id, next, len, age, .blank⟩

/-- A READY slot that holds these bytes. -/
def readySlot (src : BitVec 8) (id : BitVec 3) (next : BitVec 5) (bytes : List Byte) : Slot :=
  ⟨true, true, src, id, next, BitVec.ofNat 7 bytes.length, 0, Memory.blank.writeN 0 bytes⟩

/-- A message of `n` bytes whose byte 3 is `b` (V4). -/
def message (n : Nat) (b : Byte) : List Byte := [0x10, 0x11, 0x12] ++ b :: List.replicate (n - 4) 0x55

/-- V1: distinct nibbles. -/
theorem test_hdrEnc_fields :
    (hdrEncOn Config.reference 5 2 1 0x12 0x34 refState).results = [⟨.ok, true, false, 0, 0x85211234⟩] := by decide

/-- V1: every operand one past its field. -/
theorem test_hdrEnc_truncates :
    (hdrEncOn Config.reference 8 16 16 0 0 refState).results = [⟨.ok, true, false, 0, 0x80000000⟩] := by decide

/-- V1: bits 31:27 of the word are ignored. -/
theorem test_hdrDec_ignores_top :
    (hdrDecOn 0x3932072A refState).results = [⟨.ok, true, false, 0, 0x0132072A⟩] := by decide

/-- P6: acceptance of a message of 9 bytes from node 42. -/
theorem test_send_accept :
    let s := sendOn Config.reference 7 9 false
      { refState with nodeAddr := 42, txb := Memory.blank.writeN 0 [0, 1, 2, 3, 4, 5, 6, 7, 8] }
    s.msgIdCtr = 1 ∧ (s.tx.busy, s.tx.dest, s.tx.id, s.tx.count, s.tx.idx, s.tx.len) = (true, 7, 1, 2, 0, 9) ∧
      s.port = [.rawSend (frame 0x8120072A [0, 1, 2, 3, 4, 5, 6, 7])] ∧ s.results = [] := by decide

/-- P6: the confirmation of fragment 0 offers fragment 1, from the latch. -/
theorem test_confirm_offers_last :
    let s := txConfirm Config.reference true
      { refState with nodeAddr := 42, tx := ⟨true, 7, 1, 2, 0, 9, Memory.blank.writeN 8 [8]⟩ }
    s.port = [.sendAnswer true, .rawSend (frame 0x8121072A [8])] ∧ s.tx.idx = 1 ∧ s.results = [] := by decide

/-- P5: a send refused at its second fragment. -/
theorem test_confirm_fails :
    let s := txConfirm Config.reference false { refState with tx := ⟨true, 7, 1, 3, 1, 20, .blank⟩ }
    s.results = [⟨.sendFail, false, false, 1, 0⟩] ∧ s.tx.busy = false := by decide

/-- V3 row 2: a message of one fragment is READY in one round. -/
theorem test_poll_single :
    let s := pollOn Config.reference (refState (some (frame 0x8110072A [1, 2, 3])))
    s.results = [⟨.complete, true, false, 0, 0⟩] ∧ s.pool[0]? = some (readySlot 42 1 1 [1, 2, 3]) ∧
      s.port = [.rawAvail true, .rawRecv (frame 0x8110072A [1, 2, 3])] := by decide

/-- P3, with two slots: the older FILLING slot is evicted. -/
theorem test_poll_evicts_oldest :
    let r := rxFrame Config.reference (frame 0x81200709 [9]) [filling 1 1 1 8 3, filling 2 1 1 8 7]
    r.status = .pending ∧ r.evicted = true ∧
      r.pool.map (fun x => (x.src, x.nextIdx, x.len, x.age)) = [(1, 1, 8, 4), (9, 1, 1, 0)] := by decide

/-- V3 row 6: of two slots that wait for the fragment the lower index takes it. -/
theorem test_round_lowest_match :
    let r := rxFrame Config.reference (frame 0x81210705 []) [filling 5 1 1 0 1, filling 5 1 1 8 0]
    r.status = .complete ∧ r.pool.map (fun x => (x.ready, x.nextIdx, x.age)) = [(true, 2, 0), (false, 1, 1)] := by decide

/-- V3 row 9: a continuation that does not fit leaves its slot, which ages. -/
theorem test_round_overflow :
    rxFrame Config.reference (frame 0x82640709 (List.replicate 8 4)) [filling 9 2 4 32 0] =
      ⟨[filling 9 2 4 32 1], .dropOverflow, false⟩ := by decide

/-- P7: the lower READY slot is drained, to RXB. -/
theorem test_recv_lowest :
    let s := recvOn { refState with pool := [readySlot 3 4 1 [3, 3, 3], readySlot 2 4 1 [2, 2, 2]] }
    s.results = [⟨.ok, true, false, 3, 0⟩] ∧ s.rxb.readN 0 4 = [3, 3, 3, 0] ∧
      s.pool.map (fun x => (x.locked, x.ready, x.len)) = [(false, false, 0), (true, true, 3)] := by decide

/-- V3 row 7: a READY slot of no bytes is drained with `OK`. -/
theorem test_recv_zero_length :
    (recvOn { refState with pool := [readySlot 5 1 2 []] }).results = [⟨.ok, true, false, 0, 0⟩] := by decide

/-- V4 row 1: a padded message is cut to its declared length. -/
theorem test_halRecv_padded :
    let s := halRecvOn Config.reference { refState with pool := [readySlot 42 1 3 (message 24 0x6A)] }
    s.results = [⟨.ok, true, false, 20, 0⟩] ∧ s.rxb.readN 0 24 = (message 20 0x6A) ++ [0, 0, 0, 0] := by decide

/-- V4 row 6: both checks fail, the version is reported and the length counter does not move. -/
theorem test_halRecv_version_first :
    let s := halRecvOn Config.reference
      { refState with pool := [readySlot 42 1 3 (message 19 0x69)], errVersionCnt := 1, errLengthCnt := 2 }
    s.results = [⟨.errVersion, false, false, 0, 0⟩] ∧ (s.errVersionCnt, s.errLengthCnt) = (2, 2) ∧
      s.pool.map Slot.locked = [false] := by decide

/-- V5 row 6: the engine is re-initialised even when the driver reports failure. -/
theorem test_init_fails :
    let s := initOn { refState with
      pool := [filling 1 1 1 8 0], nodeAddr := 42, msgIdCtr := 5, errLengthCnt := 3, driver := ⟨[false], [], 0⟩ }
    s.results = [⟨.initFail, false, false, 0, 0⟩] ∧ s.pool = [.free] ∧ s.msgIdCtr = 0 ∧ s.errLengthCnt = 0 ∧
      s.nodeAddr = 42 ∧ s.port = [.rawInit false] := by decide

/-- V5 row 4: 255 is accepted. -/
theorem test_setAddr_255 : (setAddrOn 255 refState).nodeAddr = 255 := by decide

/-- V5 row 3. -/
theorem test_getAddr :
    (getAddrOn { refState with nodeAddr := 42 }).results = [⟨.ok, true, false, 0, 0x2A⟩] := by decide

/-- V5 rows 7 and 8. -/
theorem test_rdStat :
    [4, 7, 8, 9, 10].map (fun i => (rdStatOn Config.reference i refState).results) =
      [8, 8, 8, 32, 2].map (fun v => [⟨.ok, true, false, 0, v⟩]) := by decide

/-- V5 row 9. -/
theorem test_rdStat_reserved :
    (rdStatOn Config.reference 11 refState).results = [⟨.badCmd, false, false, 0, 0⟩] := by decide

/-- V5 row 13: during a send the reserved opcode gets `BUSY`. -/
theorem test_reserved_busy :
    (reservedOpcode { refState with tx := ⟨true, 7, 1, 2, 0, 9, .blank⟩ }).results =
      [⟨.busy, false, false, 0, 0⟩] := by decide

/-! ### Witnesses: for every statement with hypotheses, states and operands that meet them

A witness of a statement about `Config.mfe` holds whatever the open parameters are: it starts from `State.reset`. -/

/-- The state after reset with these inputs still to come. -/
def withInputs (l : List Input) : State := { State.reset with inputs := l }

/-- A send in flight: fragment `idx` of `count` is offered. -/
def sending (count idx : BitVec 4) (len : BitVec 7) (l : List Input) : State :=
  { withInputs l with tx := ⟨true, 7, 1, count, idx, len, .blank⟩ }

/-- `MAX_MSG` as an operand of `SEND`. -/
def maxLen : BitVec 8 := BitVec.ofNat 8 Config.mfe.maxMsg

theorem maxLen_toNat : maxLen.toNat = Config.mfe.maxMsg := by
  have := Config.mfe.maxMsg_le
  simp only [Config.chunk] at this
  simp [maxLen]
  omega

theorem one_le_maxMsg : 1 ≤ Config.mfe.maxMsg := Nat.le_trans (by decide) Config.mfe.chunk_le_maxMsg

/-- Boundary lengths of an accepted `SEND`: 1 and `MAX_MSG`. -/
theorem witness_legal_lengths :
    (1 ≤ (1 : BitVec 8).toNat ∧ (1 : BitVec 8).toNat ≤ Config.mfe.maxMsg) ∧
      (1 ≤ maxLen.toNat ∧ maxLen.toNat ≤ Config.mfe.maxMsg) := by
  rw [maxLen_toNat]
  exact ⟨⟨by decide, one_le_maxMsg⟩, one_le_maxMsg, Nat.le_refl _⟩

/-- Boundary lengths of a refused `SEND`: 0 and `MAX_MSG + 1`. -/
theorem witness_illegal_lengths :
    (0 : BitVec 8).toNat = 0 ∧ Config.mfe.maxMsg < (maxLen + 1).toNat := by
  have := Config.mfe.maxMsg_le
  simp only [Config.chunk] at this
  have h := maxLen_toNat
  refine ⟨rfl, ?_⟩
  rw [BitVec.toNat_add]
  simp
  omega

/-- SendIsAcceptedExactlyForLegalLengths, SendAcceptLatchesAndOffersFragmentZero, and the busy clauses of every other
statement about a command: an idle state and a busy one. -/
theorem witness_idle_and_busy : State.reset.tx.busy = false ∧ (sending 2 0 9 []).tx.busy = true := ⟨rfl, rfl⟩

theorem witness_OnlyNamedBitsOfCommandWordMatter :
    decode 0x030000000107 = .command (.send 7 1 false) ∧ (0x03FFFFFE0107 : CmdWord) ≠ 0x030000000107 ∧
      (0x03FFFFFE0107 : CmdWord) &&& namedBits (.send 7 1 false) = 0x030000000107 &&& namedBits (.send 7 1 false) := by
  decide

theorem witness_ReservedOpcodesReturnBadCmd :
    (withInputs [.command 0]).inputs = [.command 0] ∧ (0 : CmdWord).toNat / 2 ^ 40 = 0 ∧
      0x0B ≤ (0x0B0000000000 : CmdWord).toNat / 2 ^ 40 ∧ 0x0B ≤ (0xFF123456789A : CmdWord).toNat / 2 ^ 40 :=
  ⟨rfl, by decide, by decide, by decide⟩

theorem witness_StepRunsTheDecodedCommand :
    (withInputs [.command 0x08000000002A]).inputs = [.command 0x08000000002A] ∧
      decode 0x08000000002A = .command (.setAddr 42) := ⟨rfl, by decide⟩

theorem witness_IdleStepsMisplacedInputsAndHostWrites :
    State.reset.inputs = [] ∧
      ((withInputs [.txConfirm true]).inputs = [.txConfirm true] ∧ (withInputs [.txConfirm true]).tx.busy = false) ∧
      ((withInputs [.hostWrite (Config.mfe.maxMsg - 1) 5]).inputs = [.hostWrite (Config.mfe.maxMsg - 1) 5] ∧
        Config.mfe.maxMsg - 1 < Config.mfe.maxMsg) ∧
      (withInputs [.hostWrite Config.mfe.maxMsg 5]).inputs = [.hostWrite Config.mfe.maxMsg 5] := by
  have := one_le_maxMsg
  exact ⟨rfl, ⟨rfl, rfl⟩, ⟨rfl, by omega⟩, rfl⟩

theorem witness_BusyGateRefusesEveryCommandWord :
    (sending 2 0 9 [.command 0xFF123456789A]).inputs = [.command 0xFF123456789A] ∧
      (sending 2 0 9 [.command 0xFF123456789A]).tx.busy = true := ⟨rfl, rfl⟩

theorem witness_ResultsAreOfTheCommand :
    (∃ t r, exec (.setAddr 42) State.reset = .next t ∧ t.results = State.reset.results ++ [r]) ∧
      ∃ t r, exec .getAddr (sending 2 0 9 []) = .next t ∧ t.results = (sending 2 0 9 []).results ++ [r] :=
  ⟨⟨_, _, exec_setAddr_of_idle 42 rfl, rfl⟩, _, _, exec_of_busy .getAddr rfl, rfl⟩

theorem witness_RoundIgnoresDestinationAndReservedBits :
    (0x8132072A : Header) ≠ 0x3932FF2A ∧ (0x8132072A : Header) &&& 0x07FF00FF = 0x3932FF2A &&& 0x07FF00FF := by
  decide

theorem witness_TxConfirmAdvancesOrEndsTheSend :
    (sending 15 0 120 [.txConfirm false]).inputs = [.txConfirm false] ∧
      (sending 15 14 120 [.txConfirm true]).tx.idx.toNat + 1 = (sending 15 14 120 [.txConfirm true]).tx.count.toNat ∧
      (sending 15 13 120 [.txConfirm true]).tx.idx.toNat + 1 < (sending 15 13 120 [.txConfirm true]).tx.count.toNat ∧
      (sending 15 13 120 [.txConfirm true]).tx.busy = true := ⟨rfl, by decide, by decide, rfl⟩

theorem witness_ChunksAreExactlyTheMessage :
    (1 ≤ 1 ∧ 1 ≤ Config.reference.maxMsg) ∧ (1 ≤ 32 ∧ 32 ≤ Config.reference.maxMsg) ∧ 2 + 1 < fragCount 32 := by decide

/-- SendStepFormAgreesWithAtomicForm and SendOffersItsWireImage: a message of `MAX_MSG` bytes whose frames are all taken,
and one whose first frame is refused. -/
theorem witness_SendStepFormAgreesWithAtomicForm :
    completeAnswers (fragCount maxLen.toNat) (List.replicate (fragCount maxLen.toNat) true) ∧
      completeAnswers (fragCount maxLen.toNat) [false] ∧
      ∀ answers : List Bool, (withInputs (.command (encode (.send 7 maxLen false)) :: (answers.map .txConfirm ++ []))).inputs =
        .command (encode (.send 7 maxLen false)) :: (answers.map .txConfirm ++ []) := by
  have h := fragCount_bounds (c := Config.mfe) (len := maxLen.toNat) (witness_legal_lengths.2.1) (witness_legal_lengths.2.2)
  exact ⟨.inl rfl, .inr ⟨0, by omega, rfl⟩, fun _ => rfl⟩

theorem step_hostWrite_zero (s : State) (b : Byte) (rest : List Input) (h : s.inputs = .hostWrite 0 b :: rest) :
    step s = .next (hostWriteTxb 0 b (s.setInputs rest)) := by
  rw [step_of_inputs h]
  exact if_pos one_le_maxMsg

theorem step_confirm (s : State) (ok : Bool) (rest : List Input) (h : s.inputs = .txConfirm ok :: rest)
    (hb : s.tx.busy = true) : step s = .next (txConfirm Config.mfe ok (s.setInputs rest)) := by
  rw [step_of_inputs h]
  exact runConfirm_of_busy _ hb

theorem witness_HostWritesDuringSendChangeNothingSent :
    (∀ i ∈ [Input.hostWrite 0 5, .txConfirm true], i.isConfirm = true ∨ i.isHostWrite = true) ∧
      (∃ t, Sys2Proof.core.run 2 { sending 2 0 9 [] with inputs := [.hostWrite 0 5, .txConfirm true] } = .next t) ∧
      ∃ u, Sys2Proof.core.run 1 { sending 2 0 9 [] with inputs := [.txConfirm true] } = .next u := by
  refine ⟨by simp [Input.isConfirm, Input.isHostWrite], ?_, ?_⟩
  · rw [run_succ_of_step 1 (step_hostWrite_zero _ _ _ rfl), run_succ_of_step 0 (step_confirm _ _ _ rfl rfl)]
    exact ⟨_, rfl⟩
  · rw [run_succ_of_step 0 (step_confirm _ _ _ rfl rfl)]
    exact ⟨_, rfl⟩

/-- A step that takes the canonical word of a command. -/
theorem step_command (s : State) (i : Instr) (rest : List Input) (h : s.inputs = .command (encode i) :: rest) :
    step s = exec i (s.setInputs rest) := by
  have hd : decode (encode i) = .command i := decode_encode i
  rw [step_of_inputs h]
  simp only [runInput, runCommand, hd]

/-- The step that takes an accepted `SEND`. -/
theorem step_send (s : State) (dest len : BitVec 8) (rest : List Input) (hb : s.tx.busy = false)
    (h : s.inputs = .command (encode (.send dest len false)) :: rest) (h1 : 1 ≤ len.toNat)
    (h2 : len.toNat ≤ Config.mfe.maxMsg) : step s = .next (sendAccept Config.mfe dest len (s.setInputs rest)) := by
  rw [step_command s _ rest h]
  exact exec_send_of_idle_legal _ _ _ hb h1 h2

/-- The step that takes an `INIT`. -/
theorem step_init (s : State) (rest : List Input) (hb : s.tx.busy = false)
    (h : s.inputs = .command (encode .init) :: rest) : ∃ t, step s = .next t ∧ t.msgIdCtr = 0 ∧ t.errVersionCnt = 0 ∧
      t.errLengthCnt = 0 := by
  rw [step_command s _ rest h]
  exact ⟨_, exec_init_of_idle hb, rfl, rfl, rfl⟩

/-- The three causes: an accepted `SEND`, `INIT`, reset. -/
theorem witness_MsgIdCtrMovesOnlyBySendInitReset :
    (∃ s t, step s = .next t ∧ t.msgIdCtr ≠ s.msgIdCtr ∧ s.inputs = [.command (encode (.send 7 1 false))]) ∧
      (∃ s t, step s = .next t ∧ t.msgIdCtr ≠ s.msgIdCtr ∧ s.inputs = [.command (encode .init)]) ∧
      ∃ s t, step s = .next t ∧ t.msgIdCtr ≠ s.msgIdCtr ∧ s.inputs = [.reset] := by
  refine ⟨⟨withInputs [.command (encode (.send 7 1 false))], _,
      step_send _ 7 1 [] rfl rfl (by decide) one_le_maxMsg, by decide, rfl⟩, ?_,
    ⟨{ withInputs [.reset] with msgIdCtr := 5 }, _, rfl, by decide, rfl⟩⟩
  obtain ⟨t, h, h0, -⟩ := step_init { withInputs [.command (encode .init)] with msgIdCtr := 5 } [] rfl rfl
  exact ⟨_, t, h, by rw [h0]; decide, rfl⟩

theorem witness_NodeAddrMovesOnlyBySetAddrReset :
    (∃ s t, step s = .next t ∧ t.nodeAddr ≠ s.nodeAddr ∧ s.inputs = [.command (encode (.setAddr 42))]) ∧
      ∃ s t, step s = .next t ∧ t.nodeAddr ≠ s.nodeAddr ∧ s.inputs = [.reset] := by
  have hne : ∀ a : BitVec 8, a ≠ a + 1 := by decide
  refine ⟨⟨{ withInputs [.command (encode (.setAddr 42))] with nodeAddr := 0 },
      (({ withInputs [] with nodeAddr := 0 } : State).setNodeAddr 42).addResult (resultOf .ok), ?_, by decide, rfl⟩,
    ⟨{ withInputs [.reset] with nodeAddr := Config.mfe.nodeAddrReset + 1 }, _, rfl, hne _, rfl⟩⟩
  rw [step_command _ (.setAddr 42) [] rfl]
  exact exec_setAddr_of_idle 42 rfl

/-- A message shorter than `MSG_MIN_LEN` is rejected, whatever the open parameters are. -/
theorem validate_nil : validate Config.mfe [] = .rejectLength := if_pos Config.mfe.msgMinLen_pos

/-- A `HAL_RECV` that rejects, and an `INIT` that puts both counters back. -/
theorem witness_ErrorCountersMoveOnlyByTheirReject :
    (∃ s t, step s = .next t ∧ t.errLengthCnt ≠ s.errLengthCnt ∧ s.inputs = [.command (encode .halRecv)]) ∧
      ∃ s t, step s = .next t ∧ t.errVersionCnt ≠ s.errVersionCnt ∧ t.errLengthCnt ≠ s.errLengthCnt := by
  constructor
  · refine ⟨{ withInputs [.command (encode .halRecv)] with pool := [readySlot 5 1 2 []] },
      halRecvOn Config.mfe { withInputs [] with pool := [readySlot 5 1 2 []] }, ?_, ?_, rfl⟩
    · rw [step_command _ .halRecv [] rfl]
      rfl
    · have hd : drain [readySlot 5 1 2 []] = some ([], [(readySlot 5 1 2 []).clean]) := by decide
      rw [halRecvOn_of_idle_some _ rfl hd, validate_nil]
      decide
  · obtain ⟨t, h, -, h1, h2⟩ := step_init
      { withInputs [.command (encode .init)] with errVersionCnt := 5, errLengthCnt := 255 } [] rfl rfl
    exact ⟨_, t, h, by rw [h1]; decide, by rw [h2]; decide⟩

/-- A `RECV` that takes a READY slot. -/
theorem witness_SlotsAreTouchedOnlyByTheirCommands :
    ∃ s t, step s = .next t ∧ t.pool ≠ s.pool ∧ t.rxb ≠ s.rxb := by
  have hd : drain [readySlot 5 1 2 [9]] = some ([9], [(readySlot 5 1 2 [9]).clean]) := by decide
  refine ⟨{ withInputs [.command (encode .recv)] with pool := [readySlot 5 1 2 [9]] }, _,
    (step_command _ .recv [] rfl).trans (exec_recv_of_idle_some rfl hd), ?_, ?_⟩ <;> decide

/-- A byte written to TXB, a payload latched, a fragment appended (RXB: the witness above). -/
theorem witness_ByteSpacesAreWrittenOnlyByTheirOwners :
    (∃ s t, step s = .next t ∧ t.txb ≠ s.txb) ∧ (∃ s t, step s = .next t ∧ t.tx.latch ≠ s.tx.latch) ∧
      ∃ s t, step s = .next t ∧ t.pool.map Slot.buf ≠ s.pool.map Slot.buf := by
  refine ⟨⟨withInputs [.hostWrite 0 5], _, step_hostWrite_zero _ 5 [] rfl, by decide⟩, ?_, ?_⟩
  · exact ⟨{ withInputs [.command (encode (.send 7 1 false))] with txb := ⟨[(0, 5)]⟩ }, _,
      step_send _ 7 1 [] rfl rfl (by decide) one_le_maxMsg, by decide⟩
  · exact ⟨{ withInputs [.command (encode .poll)] with
        pool := [.free], driver := ⟨[], [some (frame 0x8110072A [5])], 0⟩ }, _,
      (step_command _ .poll [] rfl).trans (exec_poll_of_idle_some rfl rfl), by decide⟩

/-- A send begins, and its last frame is taken or refused. -/
theorem witness_BusyIsSetBySendClearedByItsEnd :
    (∃ s t, step s = .next t ∧ s.tx.busy = false ∧ t.tx.busy = true) ∧
      (∃ s t, step s = .next t ∧ s.tx.busy = true ∧ t.tx.busy = false ∧ s.inputs = [.txConfirm true]) ∧
      (∃ s t, step s = .next t ∧ s.tx.busy = true ∧ t.tx.busy = false ∧ s.inputs = [.txConfirm false]) ∧
      ∃ s t, step s = .next t ∧ s.tx.busy = true ∧ t.tx.busy = false ∧ s.inputs = [.reset] :=
  ⟨⟨withInputs [.command (encode (.send 7 1 false))], _,
      step_send _ 7 1 [] rfl rfl (by decide) one_le_maxMsg, rfl, rfl⟩,
    ⟨sending 1 0 8 [.txConfirm true], _, step_confirm _ _ [] rfl rfl, rfl, by decide, rfl⟩,
    ⟨sending 2 0 9 [.txConfirm false], _, step_confirm _ _ [] rfl rfl, rfl, by decide, rfl⟩,
    ⟨sending 2 0 9 [.reset], _, rfl, rfl, rfl, rfl⟩⟩

theorem witness_PollRunsOneRoundOnOneFrame :
    (refState (some (frame 0x8110072A [5]))).rxAnswer = some (frame 0x8110072A [5]) ∧ (refState none).rxAnswer = none ∧
      (refState none).tx.busy = false := ⟨rfl, rfl, rfl⟩

/-- A frame that a FREE slot takes, one that a matching slot takes, and one that is dropped. -/
theorem witness_EveryRoundAgesTheOtherFillingSlots :
    (∃ p ev, select Config.reference (frame 0x8110072A [5]) [filling 1 1 1 8 0, .free] = .take 1 p ev) ∧
      (∃ p ev, select Config.reference (frame 0x8121072A [5]) [filling 42 1 1 8 0] = .take 0 p ev) ∧
      select Config.reference (frame 0x8121072A [5]) [filling 1 1 1 8 0] = .drop .dropUnmatched :=
  ⟨⟨_, _, rfl⟩, ⟨_, _, rfl⟩, by decide⟩

theorem witness_RoundDropsOverlongFrames : 8 < (frame 0x81200705 (List.replicate 9 1)).dlc.toNat := by decide

/-- Fragment 0 of a message of one fragment and of two, of no bytes and of eight, above a READY and a FILLING slot. -/
theorem witness_FragmentZeroTakesLowestFreeSlot :
    ((frame 0x8110072A []).dlc.toNat ≤ 8 ∧ (hdrDec 0x8110072A).idx = 0 ∧ (hdrDec 0x8110072A).count = 1) ∧
      ((frame 0x8120072A (List.replicate 8 1)).dlc.toNat ≤ 8 ∧ (hdrDec 0x8120072A).idx = 0 ∧
        (hdrDec 0x8120072A).count ≠ 1) ∧
      ([readySlot 1 1 1 [], filling 42 1 1 8 0, .free, .free] : List Slot)[2]? = some .free ∧
      ∀ (j : Nat) (y : Slot), j < 2 →
        ([readySlot 1 1 1 [], filling 42 1 1 8 0, .free, .free] : List Slot)[j]? = some y → y.locked = true := by
  refine ⟨by decide, by decide, rfl, fun j y hj hy => ?_⟩
  interval_cases j <;> · simp only [List.getElem?_cons_zero, List.getElem?_cons_succ, Option.some.injEq] at hy; subst hy; rfl

/-- Every slot READY; and two FILLING slots of one age between READY ones. -/
theorem witness_EvictionTakesOldestFillingSlot :
    (∀ x ∈ [readySlot 1 1 1 []], x.locked = true ∧ x.ready = true) ∧
      (∀ x ∈ [readySlot 1 1 1 [], filling 2 1 1 8 255, filling 3 1 1 8 255], x.locked = true) ∧
      (∀ (j : Nat) (y : Slot), [readySlot 1 1 1 [], filling 2 1 1 8 255, filling 3 1 1 8 255][j]? = some y →
        y.ready = false → y.age.toNat ≤ 255) ∧
      ∀ (j : Nat) (y : Slot), j < 1 → [readySlot 1 1 1 [], filling 2 1 1 8 255, filling 3 1 1 8 255][j]? = some y →
        y.ready = false → y.age.toNat < 255 := by
  refine ⟨by simp [readySlot], by simp [readySlot, filling], fun j y _ _ => by have := y.age.isLt; omega,
    fun j y hj hy hr => ?_⟩
  interval_cases j
  simp only [List.getElem?_cons_zero, Option.some.injEq] at hy
  subst hy
  cases hr

/-- A continuation that exactly fills the slot that waits for it, the last of its message, and one byte more. -/
theorem witness_ContinuationAdvancesLowestMatch :
    (frame 0x82440709 (List.replicate 8 4)).dlc.toNat ≤ 8 ∧ (hdrDec 0x82440709).idx ≠ 0 ∧
      IsFirst (fun y => y.locked && !y.ready && y.src == (hdrDec 0x82440709).src && y.msgId == (hdrDec 0x82440709).id &&
        y.nextIdx.toNat == (hdrDec 0x82440709).idx.toNat) [filling 9 2 3 24 0, filling 9 2 4 24 0] 1
        (filling 9 2 4 24 0) ∧
      (filling 9 2 4 24 0).len.toNat + (frame 0x82440709 (List.replicate 8 4)).dlc.toNat ≤
        Config.reference.maxMsg := by
  refine ⟨by decide, by decide, ⟨rfl, by decide, fun j y hj hy => ?_⟩, by decide⟩
  interval_cases j
  simp only [List.getElem?_cons_zero, Option.some.injEq] at hy
  subst hy
  decide

theorem witness_ContinuationIsDroppedUnmatchedOrOverflowing :
    ((frame 0x82640709 (List.replicate 8 4)).dlc.toNat ≤ 8 ∧ (hdrDec 0x81310705).idx ≠ 0 ∧
        (hdrDec 0x82640709).idx ≠ 0) ∧
      (∀ y ∈ [filling 5 1 2 8 0], y.locked = true → y.ready = false → y.src = (hdrDec 0x81310705).src →
        y.msgId = (hdrDec 0x81310705).id → y.nextIdx.toNat ≠ (hdrDec 0x81310705).idx.toNat) ∧
      IsFirst (fun y => y.locked && !y.ready && y.src == (hdrDec 0x82640709).src && y.msgId == (hdrDec 0x82640709).id &&
        y.nextIdx.toNat == (hdrDec 0x82640709).idx.toNat) [filling 9 2 4 25 0] 0 (filling 9 2 4 25 0) ∧
      Config.reference.maxMsg < (filling 9 2 4 25 0).len.toNat + (frame 0x82640709 (List.replicate 8 4)).dlc.toNat :=
  ⟨by decide, by decide, ⟨rfl, by decide, fun j y hj _ => absurd hj (by omega)⟩, by decide⟩

/-- A slot that has taken 16 fragments, and a frame that evicts nothing. -/
theorem witness_SlotWithSixteenFragmentsIsStuck :
    ([filling 5 1 16 0 0] : List Slot)[0]? = some (filling 5 1 16 0 0) ∧ (filling 5 1 16 0 0).isFilling = true ∧
      (filling 5 1 16 0 0).nextIdx.toNat = 16 ∧
      evictedBy Config.reference (frame 0x810F0705 []) [filling 5 1 16 0 0] ≠ some 0 := by decide

/-- RecvDrainsLowestReadySlot and HalRecvDrainsAndValidates: a READY slot below which none is READY, and none at all. -/
theorem witness_RecvDrainsLowestReadySlot :
    IsFirst Slot.ready [filling 1 1 1 8 0, readySlot 42 1 3 (message 24 0x6A)] 1 (readySlot 42 1 3 (message 24 0x6A)) ∧
      ∀ x ∈ [filling 1 1 1 8 0], x.ready = false := by
  refine ⟨⟨rfl, rfl, fun j y hj hy => ?_⟩, by decide⟩
  interval_cases j
  simp only [List.getElem?_cons_zero, Option.some.injEq] at hy
  subst hy
  rfl

/-- The clauses of HalRecvDrainsAndValidates: too short and just long enough, and then, at V4 rows 5, 4, 1 and 2, wrong
version, wrong length, padded, exact. -/
theorem witness_HalRecvDrainsAndValidates :
    (3 < Config.reference.msgMinLen ∧ Config.reference.msgMinLen ≤ 4) ∧
      (Config.reference.msgMinLen ≤ 24 ∧
        Config.reference.verOf (message 24 0x69) ≠ Config.reference.protocolVersion) ∧
      (Config.reference.msgMinLen ≤ 21 ∧
        Config.reference.verOf (message 21 0x6A) = Config.reference.protocolVersion ∧
        21 ≠ Config.reference.declaredLenOf (message 21 0x6A) ∧
        21 ≠ (Config.reference.declaredLenOf (message 21 0x6A) + 7) / 8 * 8) ∧
      (Config.reference.msgMinLen ≤ 24 ∧
        Config.reference.verOf (message 24 0x6A) = Config.reference.protocolVersion ∧
        24 = (Config.reference.declaredLenOf (message 24 0x6A) + 7) / 8 * 8) ∧
      20 = Config.reference.declaredLenOf (message 20 0x6A) :=
  ⟨by decide, by decide, by decide, by decide, by decide⟩

/-- At V4 rows 1, 2, 8 and 9: padded and exact below a multiple of `CHUNK`; exact and one chunk too long at a multiple; and
an idle state whose READY slot holds the padded message, which is accepted. -/
theorem witness_PaddingToleranceIsOneAmount :
    (∀ nb ∈ [(24, 0x6A), (20, 0x6A), (16, 0x4A), (24, 0x4A)],
      Config.reference.msgMinLen ≤ (message nb.1 nb.2).length ∧
        Config.reference.verOf (message nb.1 nb.2) = Config.reference.protocolVersion) ∧
      (Config.reference.declaredLenOf (message 24 0x6A) = 20 ∧ (message 24 0x6A).length = (20 / 8 + 1) * 8) ∧
      (Config.reference.declaredLenOf (message 20 0x6A) = 20 ∧ (message 20 0x6A).length = 20) ∧
      (Config.reference.declaredLenOf (message 16 0x4A) = 16 ∧ 16 % 8 = 0 ∧ (message 16 0x4A).length = 16) ∧
      (Config.reference.declaredLenOf (message 24 0x4A) = 16 ∧ (message 24 0x4A).length = (16 / 8 + 1) * 8) ∧
      State.reset.tx.busy = false ∧
      IsFirst Slot.ready [readySlot 42 1 3 (message 24 0x6A)] 0 (readySlot 42 1 3 (message 24 0x6A)) ∧
      (readySlot 42 1 3 (message 24 0x6A)).message = message 24 0x6A ∧
      validate Config.reference (message 24 0x6A) = .accept 20 :=
  ⟨by decide, by decide, by decide, by decide, by decide, rfl, ⟨rfl, rfl, fun j _ hj _ => absurd hj (by omega)⟩,
    by decide, by decide⟩

/-- V4 rows 8 and 9: at a multiple of `CHUNK` only the exact length is accepted. -/
theorem test_validate_multiple_of_chunk :
    validate Config.reference (message 16 0x4A) = .accept 16 ∧
      validate Config.reference (message 24 0x4A) = .rejectLength := by decide

/-- RdStatReadsTheStatusRegisters: the first and the last register, and the first reserved index. -/
theorem witness_RdStatReadsTheStatusRegisters (a b c d e f g h i j k : Nat) :
    [a, b, c, d, e, f, g, h, i, j, k][(0 : BitVec 8).toNat]? = some a ∧
      [a, b, c, d, e, f, g, h, i, j, k][(10 : BitVec 8).toNat]? = some k ∧ 10 < (11 : BitVec 8).toNat := ⟨rfl, rfl, by decide⟩

theorem witness_ReadingCommandsHaveNoSideEffect :
    ((∃ x, Instr.rdStat 3 = .rdStat x) ∨ Instr.rdStat 3 = .getAddr ∨
      (∃ a b c d e, Instr.rdStat 3 = .hdrEnc a b c d e) ∨ ∃ w, Instr.rdStat 3 = .hdrDec w) := .inl ⟨3, rfl⟩

theorem witness_ResetInputRestoresResetState : (sending 2 0 9 [.reset]).inputs = .reset :: [] := rfl

theorem witness_FirstMessageAfterReset :
    (frame 0x8110072A (List.replicate 8 1)).dlc.toNat ≤ 8 ∧ (hdrDec 0x8110072A).idx = 0 := by decide

theorem sized_blank (c : Config) : Memory.blank.Sized c := ⟨Memory.wf_blank, Memory.within_blank _⟩

/-- An idle sequencer meets the invariant, whatever its other registers hold. -/
theorem idle_tx_inv {c : Config} {dest : BitVec 8} {id : BitVec 3} {count idx : BitVec 4} {len : BitVec 7} {t : Tx}
    (h : t = ⟨false, dest, id, count, idx, len, .blank⟩) : t.Inv c := by
  subst h
  refine ⟨?_, ?_, ?_, ?_, sized_blank _⟩ <;> · intro h; cases h

/-- A state that meets the invariant and is about to take a command word: the host has presented it after reset.
SlotCountsAddUpToPoolN, EveryStepKeepsTheInvariant, UnspecifiedStateIsUnobservable. -/
theorem witness_inv (cw : CmdWord) : (withInputs [.command cw]).Inv where
  pool_length := by simp [withInputs, State.reset, State.resetOf]
  slots := by
    intro x hx
    simp only [withInputs, State.reset, State.resetOf, List.mem_replicate] at hx
    rw [hx.2]
    exact ⟨by decide, by decide, Nat.zero_le _, by decide, by decide, by decide, by decide, sized_blank _⟩
  sequencer := idle_tx_inv rfl
  id_of_busy := fun h => absurd h Bool.false_ne_true
  txb := sized_blank _
  rxb := sized_blank _

theorem witness_EveryStepKeepsTheInvariant :
    ∃ s t, s.Inv ∧ step s = .next t ∧ t.tx.busy = true :=
  ⟨_, _, witness_inv (encode (.send 7 1 false)), step_send _ 7 1 [] rfl rfl (by decide) one_le_maxMsg, rfl⟩

/-- A FREE slot that a single fragment 0 makes READY. -/
theorem witness_SlotsFollowTheStateMachine :
    ∃ s t x y, s.Inv ∧ step s = .next t ∧ s.pool[0]? = some x ∧ t.pool[0]? = some y ∧ x ≠ y := by
  have hI := witness_inv (encode .poll)
  have hp : State.reset.pool = Slot.free :: List.replicate (Config.mfe.poolN - 1) Slot.free := by
    have := Config.mfe.poolN_pos
    simp only [State.reset, State.resetOf]
    rw [← List.replicate_succ]
    congr 1
    omega
  have hf : firstSlot Slot.isFree State.reset.pool = some 0 :=
    firstSlot_eq_some.2 ⟨Slot.free, by rw [hp]; rfl, rfl, by simp⟩
  have hs : select Config.mfe (frame 0x8110072A [5]) State.reset.pool =
      .take 0 (State.reset.pool.modify 0 (Slot.claim (hdrDec 0x8110072A))) false := by
    rw [select, if_neg (by decide), if_pos (by decide)]
    simp only [allocate, hf]
    rfl
  have ht : (rxFrame Config.mfe (frame 0x8110072A [5]) State.reset.pool).pool[0]? =
      some ((Slot.free.claim (hdrDec 0x8110072A)).advance 1 [5]) := by
    rw [(rxFrame_take hs).2.2.1, hp]
    rfl
  exact ⟨{ withInputs [.command (encode .poll)] with driver := ⟨[], [some (frame 0x8110072A [5])], 0⟩ }, _,
    Slot.free, _, ⟨hI.1, hI.2, hI.3, hI.4, hI.5, hI.6⟩,
    (step_command _ .poll [] rfl).trans (exec_poll_of_idle_some rfl rfl),
    (congrArg (·[0]?) hp).trans rfl, ht, by decide⟩

/-- Two states that differ in an idle sequencer's registers. -/
theorem witness_UnspecifiedStateIsUnobservable :
    ∃ s s' t, s.Inv ∧ s'.Inv ∧ s.LooksLike s' ∧ step s = .next t ∧ s ≠ s' := by
  have hI := witness_inv (encode (.setAddr 42))
  have hst := (step_command (withInputs [.command (encode (.setAddr 42))]) (.setAddr 42) [] rfl).trans
    (exec_setAddr_of_idle 42 rfl)
  have hl : State.reset.tx.LooksLike ⟨false, 7, 1, 2, 1, 9, .blank⟩ := by
    constructor <;> first | rfl | · intro h; cases h
  refine ⟨withInputs [.command (encode (.setAddr 42))],
    { withInputs [.command (encode (.setAddr 42))] with tx := ⟨false, 7, 1, 2, 1, 9, .blank⟩ }, _, hI,
    ⟨hI.1, hI.2, idle_tx_inv rfl, fun h => absurd h Bool.false_ne_true, hI.5, hI.6⟩,
    ⟨List.forall₂_same.2 fun x _ => ⟨rfl, rfl, rfl, rfl, rfl, rfl, rfl, fun _ _ => rfl⟩, rfl, rfl, rfl, rfl, hl, rfl,
      rfl, rfl, rfl, rfl, rfl⟩, hst, fun h => ?_⟩
  have := congrArg (fun s => s.tx.dest) h
  revert this
  decide

/-- P3: nine nodes start a message of two fragments, in a pool of eight. -/
def p3Frames : List RawFrame :=
  [frame 0x81200701 [1], frame 0x81200702 [2], frame 0x81200703 [3], frame 0x81200704 [4], frame 0x81200705 [5],
    frame 0x81200706 [6], frame 0x81200707 [7], frame 0x81200708 [8]]

theorem witness_EvictionUnderPressure :
    (List.replicate 8 Slot.free).length = Config.reference.poolN ∧ (∀ x ∈ List.replicate 8 Slot.free, x.isClean) ∧
      p3Frames.length = Config.reference.poolN ∧
      ∀ g ∈ (frame 0x81200709 [9]) :: p3Frames, g.dlc.toNat ≤ 8 ∧ (hdrDec g.h).idx = 0 ∧ 2 ≤ (hdrDec g.h).count.toNat := by
  refine ⟨by decide, ?_, by decide, by decide⟩
  intro x hx
  rw [(List.mem_replicate.1 hx).2]
  exact ⟨rfl, rfl, rfl, rfl, rfl, rfl, rfl⟩

/-- P1, with a frame of another node in between. -/
theorem witness_DeliveredMessageIsReassembled :
    let payload := Memory.blank.writeN 0 [0xA0, 0xA1, 0xA2, 0xA3, 0xA4, 0xA5, 0xA6, 0xA7, 0xA8]
    let first : RawFrame := frame 0x8120072A [0xA0, 0xA1, 0xA2, 0xA3, 0xA4, 0xA5, 0xA6, 0xA7]
    let others : List RawFrame := [frame 0x81200701 [1], frame 0x8121072A [0xA8]]
    let pool := List.replicate 8 Slot.free
    9 ≤ Config.reference.maxMsg ∧ (∀ x ∈ pool, x.isFilling = true → ¬ (x.src = 42 ∧ x.msgId = 1)) ∧
      (first :: others).filter (RawFrame.isOf 42 1) = wireImage Config.reference 1 7 42 payload 9 ∧
      first = fragment Config.reference 1 7 42 payload 9 0 ∧
      (∃ p ev, select Config.reference first pool = .take 0 p ev) ∧
      NotEvicted Config.reference 0 others (rxFrame Config.reference first pool).pool ∧
      (first :: others = [first, frame 0x81200701 [1]] ++ (frame 0x8121072A [0xA8]) :: [] ∧
        RawFrame.isOf 42 1 (frame 0x8121072A [0xA8]) = true) ∧
      ∃ s : State, s.tx.busy = false ∧ s.pool = deliver Config.reference (first :: others) pool :=
  ⟨by decide, by decide, by decide, by decide, ⟨_, _, rfl⟩, ⟨by decide, by decide, trivial⟩, by decide,
    { withInputs [] with pool := _ }, rfl, rfl⟩

end Sys2Proof.Tests
end

namespace Sys2Proof.Machine

/-! ### The reset state and the slot counts (10_state.md R24, R36, R39) -/

theorem Memory.blank_sized (c : Config) : Memory.blank.Sized c := ⟨Memory.wf_blank, Memory.within_blank _⟩

theorem Slot.free_inv (c : Config) : Slot.free.Inv c where
  locked_of_ready := by decide
  zero_of_unlocked := by decide
  len_le_max := Nat.zero_le _
  len_le_chunks := Nat.zero_le _
  next_le := Nat.zero_le _
  next_pos := by decide
  next_of_ready := by decide
  buffer := Memory.blank_sized c

theorem Tx.idle_inv (c : Config) : Tx.idle.Inv c where
  len_pos := by decide
  len_le_max := fun h => absurd h Bool.false_ne_true
  count_eq := by decide
  idx_lt := by decide
  buffer := Memory.blank_sized c

/-- Settles O50. -/
theorem resetMeetsTheInvariant : Obligations.ResetMeetsTheInvariant where
  pool_length := List.length_replicate
  slots x hx := by
    rw [List.eq_of_mem_replicate hx]
    exact Slot.free_inv _
  sequencer := Tx.idle_inv _
  id_of_busy := fun h => absurd h Bool.false_ne_true
  txb := Memory.blank_sized _
  rxb := Memory.blank_sized _

/-- Settles O47: every slot of the reset pool is `Slot.free`, and the registers are read off `State.resetOf`. -/
theorem resetValuesAreTheTable : Obligations.ResetValuesAreTheTable := by
  refine ⟨List.length_replicate, fun x hx => ?_, rfl, rfl, rfl, rfl, rfl⟩
  rw [List.eq_of_mem_replicate hx]
  exact ⟨rfl, rfl, rfl, rfl, rfl, rfl, rfl⟩

/-- A slot that meets 10_state.md R24 (1) is in exactly one of the three states of R23, so the scans of a pool of such
slots count each slot once. -/
theorem countP_free_filling_ready {pool : List Slot} (h : ∀ x ∈ pool, x.ready = true → x.locked = true) :
    pool.countP Slot.isFree + pool.countP Slot.isFilling + pool.countP Slot.isReady = pool.length := by
  induction pool with
  | nil => rfl
  | cons x rest ih =>
    have hx := h x (by simp)
    have ih := ih fun y hy => h y (by simp [hy])
    simp only [List.countP_cons, List.length_cons, Slot.isFree, Slot.isFilling, Slot.isReady] at ih ⊢
    by_cases hr : x.ready = true
    · simp only [hr, hx hr, Bool.not_true, Bool.and_false, if_true, Bool.false_eq_true, if_false]
      omega
    · by_cases hl : x.locked = true
      · simp only [hr, hl, Bool.not_true, Bool.not_false, Bool.and_true, if_true, Bool.false_eq_true, if_false]
        omega
      · simp only [hr, hl, Bool.not_false, Bool.false_and, if_true, Bool.false_eq_true, if_false]
        omega

/-- A slot count fits its 8 bits when the pool has at most 255 slots. -/
theorem toNat_slotCount (p : Slot → Bool) {pool : List Slot} (h : pool.length ≤ 255) :
    (slotCount p pool).toNat = pool.countP p := by
  have := pool.countP_le_length (p := p)
  rw [slotCount, BitVec.toNat_ofNat, Nat.mod_eq_of_lt (by omega)]

/-- Settles O45: no count wraps, and each slot is counted once. -/
theorem slotCountsAddUpToPoolN : Obligations.SlotCountsAddUpToPoolN := by
  intro s hs
  have hlen : s.pool.length ≤ 255 := hs.pool_length ▸ Config.mfe.poolN_le
  rw [toNat_slotCount _ hlen, toNat_slotCount _ hlen, toNat_slotCount _ hlen, ← hs.pool_length]
  exact countP_free_filling_ready fun x hx => (hs.slots x hx).locked_of_ready

/-! ### The effect of a step on the registers of the MFE (10_state.md R26, R28 to R31, R34) -/

/-- The registers of the MFE are the same: the states differ at most in TXB, RXB, the environment and the outputs. -/
structure State.SameRegisters (s t : State) : Prop where
  pool : s.pool = t.pool
  msgIdCtr : s.msgIdCtr = t.msgIdCtr
  nodeAddr : s.nodeAddr = t.nodeAddr
  errVersionCnt : s.errVersionCnt = t.errVersionCnt
  errLengthCnt : s.errLengthCnt = t.errLengthCnt
  tx : s.tx = t.tx

/-- What one step does to the registers, by its cause. `step_effect` ties it to the machine. -/
inductive StepEffect (s t : State) : Prop
  | quiet (same : s.SameRegisters t)
  | send (dest len : BitVec 8) (noack : Bool) (cause : Executes s (.send dest len noack))
      (pos : 1 ≤ len.toNat) (le : len.toNat ≤ Config.mfe.maxMsg) (busy : t.tx.busy = true) (id : t.tx.id = t.msgIdCtr)
      (same : ((s.setMsgIdCtr (s.msgIdCtr + 1)).setTx t.tx).SameRegisters t)
  | pool (cause : Executes s .poll ∨ Executes s .recv ∨ Executes s .halRecv)
      (same : (s.setPool t.pool).SameRegisters t)
  | rejectVersion (cause : Executes s .halRecv) (result : t.results = s.results ++ [resultOf .errVersion])
      (same : ((s.setPool t.pool).setErrVersionCnt (satInc8 s.errVersionCnt)).SameRegisters t)
  | rejectLength (cause : Executes s .halRecv) (result : t.results = s.results ++ [resultOf .errLength])
      (same : ((s.setPool t.pool).setErrLengthCnt (satInc8 s.errLengthCnt)).SameRegisters t)
  | init (cause : Executes s .init)
      (same : ((((s.setPool t.pool).setMsgIdCtr 0).setErrVersionCnt 0).setErrLengthCnt 0).SameRegisters t)
  | setAddr (addr : BitVec 8) (cause : Executes s (.setAddr addr)) (same : (s.setNodeAddr addr).SameRegisters t)
  | confirmMore (stays : t.tx.busy = true) (busy : s.tx.busy = true) (same : (s.setTx t.tx).SameRegisters t)
  | confirmLast (ok : Bool) (rest : List Input) (r : Result) (cause : s.inputs = .txConfirm ok :: rest)
      (result : t.results = s.results ++ [r]) (last : ok = false ∨ s.tx.idx.toNat + 1 = s.tx.count.toNat)
      (busy : s.tx.busy = true) (same : (s.setTx s.tx.ended).SameRegisters t)
  | reset (cause : IsResetting s) (same : State.reset.SameRegisters t)

/-- The effect of a command that is executed, no send being in flight. -/
theorem exec_effect {s t : State} {i : Instr} {rest : List Input} (hx : Executes s i)
    (h : exec i (s.setInputs rest) = .next t) : StepEffect s t := by
  obtain ⟨st, v, rfl, -⟩ | ⟨dest, len, noack, rfl, hpos, hle, rfl⟩ | ⟨rfl, -, rfl⟩ | ⟨rfl, f, -, rfl⟩ |
    ⟨rfl, m, p, -, rfl⟩ | ⟨rfl, m, p, -, ⟨-, rfl⟩ | ⟨-, rfl⟩ | ⟨d, -, rfl⟩⟩ | ⟨rfl, rfl⟩ | ⟨addr, rfl, rfl⟩ :=
      exec_next (s := s.setInputs rest) hx.1 h
  · exact .quiet ⟨rfl, rfl, rfl, rfl, rfl, rfl⟩
  · exact .send dest len noack hx hpos hle rfl rfl ⟨rfl, rfl, rfl, rfl, rfl, rfl⟩
  · exact .quiet ⟨rfl, rfl, rfl, rfl, rfl, rfl⟩
  · exact .pool (.inl hx) ⟨rfl, rfl, rfl, rfl, rfl, rfl⟩
  · exact .pool (.inr (.inl hx)) ⟨rfl, rfl, rfl, rfl, rfl, rfl⟩
  · exact .rejectVersion hx rfl ⟨rfl, rfl, rfl, rfl, rfl, rfl⟩
  · exact .rejectLength hx rfl ⟨rfl, rfl, rfl, rfl, rfl, rfl⟩
  · exact .pool (.inr (.inr hx)) ⟨rfl, rfl, rfl, rfl, rfl, rfl⟩
  · exact .init hx ⟨rfl, rfl, rfl, rfl, rfl, rfl⟩
  · exact .setAddr addr hx ⟨rfl, rfl, rfl, rfl, rfl, rfl⟩

/-- The effect of a confirmation of the offered frame. -/
theorem txConfirm_effect {s : State} {ok : Bool} {rest : List Input} (hb : s.tx.busy = true)
    (hi : s.inputs = .txConfirm ok :: rest) : StepEffect s (txConfirm Config.mfe ok (s.setInputs rest)) := by
  cases ok with
  | false => exact .confirmLast false rest _ hi rfl (.inl rfl) hb ⟨rfl, rfl, rfl, rfl, rfl, rfl⟩
  | true =>
    by_cases hl : s.tx.idx.toNat + 1 = s.tx.count.toNat
    · rw [txConfirm_true_last (s := s.setInputs rest) _ hl]
      exact .confirmLast true rest _ hi rfl (.inr hl) hb ⟨rfl, rfl, rfl, rfl, rfl, rfl⟩
    · rw [txConfirm_true_more (s := s.setInputs rest) _ hl]
      exact .confirmMore hb hb ⟨rfl, rfl, rfl, rfl, rfl, rfl⟩

/-- Every step has one of the effects, with its cause. -/
theorem step_effect {s t : State} (h : step s = .next t) : StepEffect s t := by
  obtain ⟨-, rfl⟩ | ⟨-, cw, rest, -, rfl⟩ | ⟨-, cw, rest, op, -, -, rfl⟩ | ⟨i, rest, hx, he⟩ |
    ⟨hb, ok, rest, hi, rfl⟩ | ⟨a, b, rest, -, -, rfl⟩ | ⟨rest, hi, rfl⟩ := step_next h
  · exact .quiet ⟨rfl, rfl, rfl, rfl, rfl, rfl⟩
  · exact .quiet ⟨rfl, rfl, rfl, rfl, rfl, rfl⟩
  · exact .quiet ⟨rfl, rfl, rfl, rfl, rfl, rfl⟩
  · exact exec_effect hx he
  · exact txConfirm_effect hb hi
  · exact .quiet ⟨rfl, rfl, rfl, rfl, rfl, rfl⟩
  · exact .reset ⟨rest, hi⟩ ⟨rfl, rfl, rfl, rfl, rfl, rfl⟩

/-- Settles O24: of the effects of a step, only those of `SEND`, `INIT` and reset move the counter. -/
theorem msgIdCtrMovesOnlyBySendInitReset : Obligations.MsgIdCtrMovesOnlyBySendInitReset := by
  intro s t h hne
  cases step_effect h with
  | send dest len noack cause pos le busy id same =>
    exact .inl ⟨dest, len, noack, cause, pos, le, same.msgIdCtr.symm, busy, id⟩
  | init cause same => exact .inr (.inl ⟨cause, same.msgIdCtr.symm⟩)
  | reset cause same => exact .inr (.inr ⟨cause, same.msgIdCtr.symm⟩)
  | quiet same | pool _ same | rejectVersion _ _ same | rejectLength _ _ same | setAddr _ _ same
  | confirmMore _ _ same | confirmLast _ _ _ _ _ _ _ same => exact absurd same.msgIdCtr.symm hne

/-- Settles O25: of the effects of a step, only those of `SET_ADDR` and reset move the address. -/
theorem nodeAddrMovesOnlyBySetAddrReset : Obligations.NodeAddrMovesOnlyBySetAddrReset := by
  intro s t h hne
  cases step_effect h with
  | setAddr addr cause same =>
    obtain rfl : addr = t.nodeAddr := same.nodeAddr
    exact .inl cause
  | reset cause same => exact .inr ⟨cause, same.nodeAddr.symm⟩
  | quiet same | send _ _ _ _ _ _ _ _ same | pool _ same | rejectVersion _ _ same | rejectLength _ _ same
  | init _ same | confirmMore _ _ same | confirmLast _ _ _ _ _ _ _ same => exact absurd same.nodeAddr.symm hne

/-- A saturating increment that moves its counter adds one (30_encoding.md R90). -/
theorem toNat_satInc8_of_ne {v : BitVec 8} (h : satInc8 v ≠ v) : (satInc8 v).toNat = v.toNat + 1 := by
  have hv : (satInc8 v).toNat ≠ v.toNat := fun e => h (BitVec.eq_of_toNat_eq e)
  have := v.isLt
  rw [toNat_satInc8] at hv ⊢
  omega

/-- Settles O26: each counter by its own reject; a counter at 255 saturates, so it does not move. -/
theorem errorCountersMoveOnlyByTheirReject : Obligations.ErrorCountersMoveOnlyByTheirReject := by
  intro s t h
  cases step_effect h with
  | rejectVersion cause result same =>
    have e : satInc8 s.errVersionCnt = t.errVersionCnt := same.errVersionCnt
    refine ⟨fun hne => ?_, fun hne => absurd same.errLengthCnt.symm hne⟩
    rw [← e] at hne ⊢
    exact .inl ⟨cause, result, toNat_satInc8_of_ne hne⟩
  | rejectLength cause result same =>
    have e : satInc8 s.errLengthCnt = t.errLengthCnt := same.errLengthCnt
    refine ⟨fun hne => absurd same.errVersionCnt.symm hne, fun hne => ?_⟩
    rw [← e] at hne ⊢
    exact .inl ⟨cause, result, toNat_satInc8_of_ne hne⟩
  | init cause same =>
    exact ⟨fun _ => .inr ⟨.inl cause, same.errVersionCnt.symm⟩, fun _ => .inr ⟨.inl cause, same.errLengthCnt.symm⟩⟩
  | reset cause same =>
    exact ⟨fun _ => .inr ⟨.inr cause, same.errVersionCnt.symm⟩, fun _ => .inr ⟨.inr cause, same.errLengthCnt.symm⟩⟩
  | quiet same | send _ _ _ _ _ _ _ _ same | pool _ same | setAddr _ _ same | confirmMore _ _ same
  | confirmLast _ _ _ _ _ _ _ same =>
    exact ⟨fun hne => absurd same.errVersionCnt.symm hne, fun hne => absurd same.errLengthCnt.symm hne⟩

/-- Settles O27: the effects of a step that write the pool carry one of these commands, or reset, as their cause. -/
theorem slotsAreTouchedOnlyByTheirCommands : Obligations.SlotsAreTouchedOnlyByTheirCommands := by
  intro s t h hne
  cases step_effect h with
  | pool cause same =>
    obtain cause | cause | cause := cause
    · exact .inl cause
    · exact .inr (.inl cause)
    · exact .inr (.inr (.inl cause))
  | rejectVersion cause | rejectLength cause => exact .inr (.inr (.inl cause))
  | init cause => exact .inr (.inr (.inr (.inl cause)))
  | reset cause => exact .inr (.inr (.inr (.inr cause)))
  | quiet same | send _ _ _ _ _ _ _ _ same | setAddr _ _ same
  | confirmMore _ _ same | confirmLast _ _ _ _ _ _ _ same => exact absurd same.pool.symm hne

/-- Of the effects of a step only an accepted `SEND` sets `tx.busy` (10_state.md R34). -/
theorem busy_set {s t : State} (h : StepEffect s t) (hs : s.tx.busy = false) (ht : t.tx.busy = true) :
    ∃ dest len noack, Executes s (.send dest len noack) ∧ 1 ≤ len.toNat ∧ len.toNat ≤ Config.mfe.maxMsg := by
  have stays (htx : s.tx = t.tx) : False := by simp [← htx, hs] at ht
  cases h with
  | send dest len noack cause pos le => exact ⟨dest, len, noack, cause, pos, le⟩
  | confirmMore _ busy | confirmLast _ _ _ _ _ _ busy => simp [hs] at busy
  | reset _ same => simp [← same.tx, State.reset, State.resetOf, Tx.idle] at ht
  | quiet same | pool _ same | rejectVersion _ _ same | rejectLength _ _ same | init _ same
  | setAddr _ _ same => exact (stays same.tx).elim

/-- Of the effects of a step only reset and a confirmation that ends the send clear `tx.busy` (10_state.md R34). -/
theorem busy_cleared {s t : State} (h : StepEffect s t) (hs : s.tx.busy = true) (ht : t.tx.busy = false) :
    IsResetting s ∨ ∃ ok rest r, s.inputs = .txConfirm ok :: rest ∧ t.results = s.results ++ [r] ∧
      (ok = false ∨ s.tx.idx.toNat + 1 = s.tx.count.toNat) := by
  have stays (htx : s.tx = t.tx) : False := by simp [← htx, hs] at ht
  cases h with
  | confirmLast ok rest r cause result last => exact .inr ⟨ok, rest, r, cause, result, last⟩
  | reset cause => exact .inl cause
  | send _ _ _ _ _ _ busy | confirmMore busy => simp [ht] at busy
  | quiet same | pool _ same | rejectVersion _ _ same | rejectLength _ _ same | init _ same
  | setAddr _ _ same => exact (stays same.tx).elim

/-- Settles O29, from the two halves. -/
theorem busyIsSetBySendClearedByItsEnd : Obligations.BusyIsSetBySendClearedByItsEnd :=
  fun _ _ h => ⟨busy_set (step_effect h), busy_cleared (step_effect h)⟩

/-! ### Slots that look alike (10_state.md R25) -/

namespace Slot.LooksLike

variable {x y : Slot} (h : x.LooksLike y)
include h

theorem isFree_eq : x.isFree = y.isFree := by simp [Slot.isFree, h.locked]

theorem isFilling_eq : x.isFilling = y.isFilling := by simp [Slot.isFilling, h.locked, h.ready]

theorem isReady_eq : x.isReady = y.isReady := h.ready

theorem matches_eq (f : HeaderFields) : x.matches f = y.matches f := by
  simp [Slot.matches, h.isFilling_eq, h.src, h.msgId, h.nextIdx]

/-- A message is the bytes below `len`. -/
theorem message_eq : x.message = y.message := by
  rw [Slot.message, Slot.message, ← h.len]
  exact Memory.readN_congr _ _ _ _ fun a ha => h.bytes _ (by omega)

/-- The bytes below the new `len` are those below the old one and the frame's. -/
theorem advance (count : BitVec 4) (data : List Byte) : (x.advance count data).LooksLike (y.advance count data) where
  locked := h.locked
  ready := by simp [h.ready, h.nextIdx]
  src := h.src
  msgId := h.msgId
  nextIdx := by simp [h.nextIdx]
  len := by simp [h.len]
  age := rfl
  bytes a ha := by
    have hlen : (x.len + BitVec.ofNat 7 data.length).toNat ≤ x.len.toNat + data.length := by
      rw [BitVec.toNat_add, BitVec.toNat_ofNat]
      omega
    simp only [Slot.advance_buf, Slot.advance_len, ← h.len, Memory.read_writeN] at ha ⊢
    split
    · rfl
    · exact h.bytes a (by omega)

theorem aged : x.aged.LooksLike y.aged := by
  unfold Slot.aged
  rw [← h.isFilling_eq]
  split
  · exact { h with age := congrArg satInc8 h.age }
  · exact h

end Slot.LooksLike

theorem Slot.LooksLike.refl (x : Slot) : x.LooksLike x := ⟨rfl, rfl, rfl, rfl, rfl, rfl, rfl, fun _ _ => rfl⟩

/-- A clean slot has no byte that can be seen. -/
theorem Slot.clean_looksLike (x y : Slot) : x.clean.LooksLike y.clean :=
  ⟨rfl, rfl, rfl, rfl, rfl, rfl, rfl, fun a ha => absurd ha (Nat.not_lt_zero a)⟩

/-- A slot just claimed has no byte that can be seen. -/
theorem Slot.claim_looksLike (f : HeaderFields) (x y : Slot) : (x.claim f).LooksLike (y.claim f) :=
  ⟨rfl, rfl, rfl, rfl, rfl, rfl, rfl, fun a ha => absurd ha (Nat.not_lt_zero a)⟩

/-! ### Pools that look alike: the scans, the round, the drain -/

/-- Two pools whose slots look alike, index by index. -/
abbrev PoolsAlike (pool pool' : List Slot) : Prop := List.Forall₂ Slot.LooksLike pool pool'

namespace PoolsAlike

theorem refl (pool : List Slot) : PoolsAlike pool pool := List.forall₂_same.2 fun x _ => .refl x

variable {pool pool' : List Slot} (h : PoolsAlike pool pool')
include h

/-- A test that cannot tell slots apart gives the same answers, slot by slot. -/
theorem map_eq {p q : Slot → Bool} (hpq : ∀ {x y : Slot}, x.LooksLike y → p x = q y) : pool.map p = pool'.map q := by
  rw [← List.forall₂_eq_eq_eq, List.forall₂_map_left_iff, List.forall₂_map_right_iff]
  exact h.imp fun _ _ => hpq

theorem firstSlot_eq {p q : Slot → Bool} (hpq : ∀ {x y : Slot}, x.LooksLike y → p x = q y) :
    firstSlot p pool = firstSlot q pool' := by
  have e : (pool.map p).findIdx? id = (pool'.map q).findIdx? id := by rw [map_eq h hpq]
  simpa only [List.findIdx?_map, Function.id_comp, firstSlot] using e

theorem slotCount_eq {p : Slot → Bool} (hp : ∀ {x y : Slot}, x.LooksLike y → p x = p y) :
    slotCount p pool = slotCount p pool' := by
  have e : (pool.map p).countP id = (pool'.map p).countP id := by rw [map_eq h hp]
  simpa only [List.countP_map, Function.id_comp, slotCount] using congrArg (BitVec.ofNat 8) e

/-- Slot `i` is in neither pool, or in both and alike. -/
theorem getElem?_cases (i : Nat) :
    (pool[i]? = none ∧ pool'[i]? = none) ∨ ∃ x y, pool[i]? = some x ∧ pool'[i]? = some y ∧ x.LooksLike y := by
  induction h generalizing i with
  | nil => exact .inl ⟨rfl, rfl⟩
  | cons hx _ ih =>
    cases i with
    | zero => exact .inr ⟨_, _, rfl, rfl, hx⟩
    | succ i => exact ih i

theorem modify {f : Slot → Slot} (hf : ∀ {x y : Slot}, x.LooksLike y → (f x).LooksLike (f y)) (i : Nat) :
    PoolsAlike (pool.modify i f) (pool'.modify i f) := by
  induction h generalizing i with
  | nil => simp
  | cons hx hrest ih =>
    cases i with
    | zero => exact .cons (hf hx) hrest
    | succ i => exact .cons hx (ih i)

theorem map_clean : PoolsAlike (pool.map Slot.clean) (pool'.map Slot.clean) := by
  rw [PoolsAlike, List.forall₂_map_left_iff, List.forall₂_map_right_iff]
  exact h.imp fun x y _ => x.clean_looksLike y

theorem ageFrom_alike (sel : Option Nat) (j : Nat) : PoolsAlike (ageFrom sel j pool) (ageFrom sel j pool') := by
  induction h generalizing j with
  | nil => exact .nil
  | cons hx _ ih =>
    refine .cons ?_ (ih _)
    split
    · exact hx
    · exact hx.aged

theorem ageOthers_alike (sel : Option Nat) : PoolsAlike (ageOthers sel pool) (ageOthers sel pool') := ageFrom_alike h sel 0

theorem maxFillingAge_eq : maxFillingAge pool = maxFillingAge pool' := by
  induction h with
  | nil => rfl
  | cons hx _ ih => simp only [maxFillingAge, hx.isFilling_eq, hx.age, ih]

theorem evictCandidate_eq : evictCandidate pool = evictCandidate pool' :=
  firstSlot_eq h fun hx => by rw [hx.isFilling_eq, hx.age, maxFillingAge_eq h]

theorem takenStatus_eq (i : Nat) : takenStatus i pool = takenStatus i pool' := by
  unfold takenStatus
  obtain ⟨hn, hn'⟩ | ⟨x, y, hx, hy, hxy⟩ := getElem?_cases h i
  · rw [hn, hn']
  · simp only [hx, hy, hxy.ready]

end PoolsAlike

/-- Two choices of a round that differ at most in what cannot be seen of the pool. -/
inductive Choice.LooksLike : Choice → Choice → Prop
  | drop (st : Status) : LooksLike (.drop st) (.drop st)
  | take (i : Nat) {p p' : List Slot} (h : PoolsAlike p p') (ev : Bool) : LooksLike (.take i p ev) (.take i p' ev)

/-- Two rounds that differ at most in what cannot be seen of the pool. -/
structure Round.LooksLike (r r' : Round) : Prop where
  pool : PoolsAlike r.pool r'.pool
  status : r.status = r'.status
  evicted : r.evicted = r'.evicted

namespace PoolsAlike

variable {pool pool' : List Slot} (h : PoolsAlike pool pool')
include h

theorem allocate_looksLike (f : HeaderFields) : (allocate f pool).LooksLike (allocate f pool') := by
  unfold allocate
  rw [← firstSlot_eq h Slot.LooksLike.isFree_eq, ← evictCandidate_eq h]
  split
  · exact .take _ (modify h (fun _ => Slot.claim_looksLike f _ _) _) _
  · split
    · exact .drop _
    · exact .take _ (modify (modify h (fun _ => Slot.clean_looksLike _ _) _) (fun _ => Slot.claim_looksLike f _ _) _) _

theorem continuation_looksLike (c : Config) (f : HeaderFields) (dlc : BitVec 4) :
    (continuation c f dlc pool).LooksLike (continuation c f dlc pool') := by
  unfold continuation
  rw [← firstSlot_eq h (·.matches_eq f)]
  split
  · exact .drop _
  · next i _ =>
    obtain ⟨hn, hn'⟩ | ⟨x, y, hx, hy, hxy⟩ := getElem?_cases h i
    · simp only [hn, hn']
      exact .drop _
    · simp only [hx, hy, ← hxy.len]
      split
      · exact .drop _
      · exact .take _ h _

theorem select_looksLike (c : Config) (f : RawFrame) : (select c f pool).LooksLike (select c f pool') := by
  simp only [select]
  split
  · exact .drop _
  · split
    · exact allocate_looksLike h _
    · exact continuation_looksLike h c _ _

/-- A round on pools that look alike (42_reassembly.md R131). -/
theorem rxFrame_looksLike (c : Config) (f : RawFrame) : (rxFrame c f pool).LooksLike (rxFrame c f pool') := by
  unfold rxFrame
  have hsel := select_looksLike h c f
  generalize select c f pool = ch, select c f pool' = ch' at hsel ⊢
  cases hsel with
  | drop st => exact ⟨ageOthers_alike h _, rfl, rfl⟩
  | take i hp ev =>
    have hadv := modify hp (·.advance (hdrDec f.h).count f.data) i
    exact ⟨ageOthers_alike hadv _, takenStatus_eq hadv i, rfl⟩

/-- Draining pools that look alike gives the same message (42_reassembly.md R140). -/
theorem drain_cases : (drain pool = none ∧ drain pool' = none) ∨
    ∃ m p p', drain pool = some (m, p) ∧ drain pool' = some (m, p') ∧ PoolsAlike p p' := by
  unfold drain
  rw [← firstSlot_eq h Slot.LooksLike.isReady_eq]
  split
  · exact .inl ⟨rfl, rfl⟩
  · next i _ =>
    obtain ⟨hn, hn'⟩ | ⟨x, y, hx, hy, hxy⟩ := getElem?_cases h i
    · exact .inl ⟨by rw [hn, Option.map_none], by rw [hn', Option.map_none]⟩
    · refine .inr ⟨x.message, _, _, by rw [hx, Option.map_some], by rw [hy, Option.map_some, hxy.message_eq], ?_⟩
      exact modify h (fun _ => Slot.clean_looksLike _ _) i

end PoolsAlike

/-! ### Sequencers that look alike (10_state.md R32) -/

/-- Idle sequencers look alike, whatever their other registers hold. -/
theorem Tx.LooksLike.of_idle {t u : Tx} (ht : t.busy = false) (hu : u.busy = false) : t.LooksLike u := by
  have absurd_busy {P : Prop} (hb : t.busy = true) : P := by simp [ht] at hb
  exact ⟨ht.trans hu.symm, absurd_busy, absurd_busy, absurd_busy, absurd_busy, absurd_busy, absurd_busy⟩

/-! ### States that look alike: the updates of the state -/

namespace State.LooksLike

variable {s s' : State} (h : s.LooksLike s')
include h

theorem setPool {p p' : List Slot} (hp : PoolsAlike p p') : (s.setPool p).LooksLike (s'.setPool p') :=
  { h with pool := hp }

theorem setMsgIdCtr (v : BitVec 3) : (s.setMsgIdCtr v).LooksLike (s'.setMsgIdCtr v) := { h with msgIdCtr := rfl }

theorem setNodeAddr (v : BitVec 8) : (s.setNodeAddr v).LooksLike (s'.setNodeAddr v) := { h with nodeAddr := rfl }

theorem setErrVersionCnt (v : BitVec 8) : (s.setErrVersionCnt v).LooksLike (s'.setErrVersionCnt v) :=
  { h with errVersionCnt := rfl }

theorem setErrLengthCnt (v : BitVec 8) : (s.setErrLengthCnt v).LooksLike (s'.setErrLengthCnt v) :=
  { h with errLengthCnt := rfl }

theorem setTx {t t' : Tx} (ht : t.LooksLike t') : (s.setTx t).LooksLike (s'.setTx t') := { h with tx := ht }

theorem setTxb (v : Memory) : (s.setTxb v).LooksLike (s'.setTxb v) := { h with txb := rfl }

theorem setRxb (v : Memory) : (s.setRxb v).LooksLike (s'.setRxb v) := { h with rxb := rfl }

theorem setInputs (v : List Input) : (s.setInputs v).LooksLike (s'.setInputs v) := { h with inputs := rfl }

theorem setDriver (v : Driver) : (s.setDriver v).LooksLike (s'.setDriver v) := { h with driver := rfl }

theorem addResult (r : Result) : (s.addResult r).LooksLike (s'.addResult r) :=
  { h with results := congrArg (· ++ [r]) h.results }

theorem addPort (e : PortEvent) : (s.addPort e).LooksLike (s'.addPort e) :=
  { h with port := congrArg (· ++ [e]) h.port }

/-! The driver answers alike. -/

theorem initAnswer_eq : s.initAnswer = s'.initAnswer := by simp only [State.initAnswer, h.driver]

theorem rxAnswer_eq : s.rxAnswer = s'.rxAnswer := by simp only [State.rxAnswer, h.driver]

theorem rawInit : (rawInit s).LooksLike (rawInit s') := by
  rw [Machine.rawInit, Machine.rawInit, ← h.driver, ← h.initAnswer_eq]
  exact (h.setDriver _).addPort _

theorem rawRx : (rawRx s).LooksLike (rawRx s') := by
  rw [Machine.rawRx, Machine.rawRx, ← h.driver, ← h.rxAnswer_eq]
  split
  · exact (h.setDriver _).addPort _
  · exact ((h.setDriver _).addPort _).addPort _

theorem statusRegister_eq (c : Config) (idx : BitVec 8) : statusRegister c idx s = statusRegister c idx s' := by
  simp only [statusRegister, h.nodeAddr, h.msgIdCtr, h.errVersionCnt, h.errLengthCnt,
    PoolsAlike.slotCount_eq h.pool Slot.LooksLike.isFree_eq,
    PoolsAlike.slotCount_eq h.pool Slot.LooksLike.isFilling_eq,
    PoolsAlike.slotCount_eq h.pool Slot.LooksLike.isReady_eq]

/-- The frame now offered is alike when its chunk lies within the message. -/
theorem offered_eq (c : Config) (hb : s.tx.busy = true)
    (hin : chunkOff s.tx.idx.toNat + chunkLen s.tx.len.toNat s.tx.idx.toNat ≤ s.tx.len.toNat) :
    offered c s = offered c s' := by
  obtain ⟨-, hdest, hid, hcount, hidx, hlen, hbytes⟩ := h.tx
  rw [offered, offered, ← hdest hb, ← hid hb, ← hcount hb, ← hidx hb, ← hlen hb, ← h.nodeAddr]
  rw [Memory.readN_congr _ _ _ _ fun a ha => hbytes hb _ (by omega)]

theorem offer (c : Config) (hb : s.tx.busy = true)
    (hin : chunkOff s.tx.idx.toNat + chunkLen s.tx.len.toNat s.tx.idx.toNat ≤ s.tx.len.toNat) :
    (offer c s).LooksLike (offer c s') := by
  rw [Machine.offer, Machine.offer, ← h.offered_eq c hb hin]
  exact h.addPort _

end State.LooksLike

/-! ### Commands and inputs respect the look of a state -/

/-- States that look alike are taken to states that look alike. -/
def RespectsLook (f : State → State) : Prop := ∀ ⦃s s' : State⦄, s.LooksLike s' → (f s).LooksLike (f s')

theorem gate_respectsLook {body : State → State} (hbody : RespectsLook body) : RespectsLook (gate body) := by
  intro s s' h
  unfold gate
  rw [← h.tx.busy]
  split
  · exact h.addResult _
  · exact hbody h

theorem reply_respectsLook (r : Result) : RespectsLook (reply r) := fun _ _ h => h.addResult r

theorem hdrEncOn_respectsLook (c : Config) (id count idx dest src : BitVec 8) :
    RespectsLook (hdrEncOn c id count idx dest src) := gate_respectsLook (reply_respectsLook _)

theorem hdrDecOn_respectsLook (w : Header) : RespectsLook (hdrDecOn w) := gate_respectsLook (reply_respectsLook _)

theorem reservedOpcode_respectsLook : RespectsLook reservedOpcode := gate_respectsLook (reply_respectsLook _)

/-- The payload is latched from a TXB that is the same, and fragment 0 lies within it (41_fragmentation.md R118). -/
theorem sendAccept_respectsLook (c : Config) (dest len : BitVec 8) : RespectsLook (sendAccept c dest len) := by
  intro s s' h
  have hlatch : ∀ a, a < (len.setWidth 7).toNat →
      (s.tx.latch.writeN 0 (s.txb.readN 0 len.toNat)).read a =
        (s'.tx.latch.writeN 0 (s.txb.readN 0 len.toNat)).read a := by
    intro a ha
    have := Nat.mod_le len.toNat (2 ^ 7)
    rw [BitVec.toNat_setWidth] at ha
    rw [Memory.read_copy, Memory.read_copy, if_pos (by omega), if_pos (by omega)]
  unfold sendAccept
  rw [← h.msgIdCtr, ← h.txb]
  refine State.LooksLike.offer ((h.setMsgIdCtr _).setTx ?_) c ?_ ?_
  · exact ⟨rfl, fun _ => rfl, fun _ => rfl, fun _ => rfl, fun _ => rfl, fun _ => rfl, fun _ => hlatch⟩
  · rfl
  · show chunkOff 0 + chunkLen _ 0 ≤ _
    rw [chunkLen_zero, chunkOff_eq]
    omega

theorem sendOn_respectsLook (c : Config) (dest len : BitVec 8) (noack : Bool) :
    RespectsLook (sendOn c dest len noack) := by
  refine gate_respectsLook fun s s' h => ?_
  split
  · exact h.addResult _
  · exact sendAccept_respectsLook c dest len h

theorem pollOn_respectsLook (c : Config) : RespectsLook (pollOn c) := by
  refine gate_respectsLook fun s s' h => ?_
  rw [← h.rxAnswer_eq]
  split
  · exact h.rawRx.addResult _
  · next f _ =>
    obtain ⟨hpool, hstatus, hevicted⟩ := PoolsAlike.rxFrame_looksLike h.pool c f
    simp only [← hstatus, ← hevicted]
    exact (h.rawRx.setPool hpool).addResult _

theorem recvOn_respectsLook : RespectsLook recvOn := by
  refine gate_respectsLook fun s s' h => ?_
  obtain ⟨hn, hn'⟩ | ⟨m, p, p', hd, hd', hpool⟩ := PoolsAlike.drain_cases h.pool
  · simp only [hn, hn']
    exact h.addResult _
  · simp only [hd, hd', ← h.rxb]
    exact ((h.setPool hpool).setRxb _).addResult _

theorem halRecvOn_respectsLook (c : Config) : RespectsLook (halRecvOn c) := by
  refine gate_respectsLook fun s s' h => ?_
  obtain ⟨hn, hn'⟩ | ⟨m, p, p', hd, hd', hpool⟩ := PoolsAlike.drain_cases h.pool
  · simp only [hn, hn']
    exact h.addResult _
  · simp only [hd, hd', ← h.rxb, ← h.errVersionCnt, ← h.errLengthCnt]
    split
    · exact ((h.setPool hpool).setErrVersionCnt _).addResult _
    · exact ((h.setPool hpool).setErrLengthCnt _).addResult _
    · exact ((h.setPool hpool).setRxb _).addResult _

theorem initOn_respectsLook : RespectsLook initOn := by
  refine gate_respectsLook fun s s' h => ?_
  have hs := (((h.setPool (PoolsAlike.map_clean h.pool)).setMsgIdCtr 0).setErrVersionCnt 0).setErrLengthCnt 0
  simp only [← hs.initAnswer_eq]
  split <;> exact hs.rawInit.addResult _

theorem setAddrOn_respectsLook (addr : BitVec 8) : RespectsLook (setAddrOn addr) :=
  gate_respectsLook fun _ _ h => (h.setNodeAddr addr).addResult _

theorem getAddrOn_respectsLook : RespectsLook getAddrOn := by
  refine gate_respectsLook fun s s' h => ?_
  rw [← h.nodeAddr]
  exact h.addResult _

theorem rdStatOn_respectsLook (c : Config) (idx : BitVec 8) : RespectsLook (rdStatOn c idx) := by
  refine gate_respectsLook fun s s' h => ?_
  rw [← h.statusRegister_eq]
  split <;> exact h.addResult _

/-- Every command is a function of the state that respects its look. -/
theorem exec_respectsLook (i : Instr) : ∃ f, RespectsLook f ∧ ∀ s, exec i s = .next (f s) := by
  cases i with
  | hdrEnc id count idx dest src => exact ⟨_, hdrEncOn_respectsLook _ id count idx dest src, fun _ => rfl⟩
  | hdrDec w => exact ⟨_, hdrDecOn_respectsLook w, fun _ => rfl⟩
  | send dest len noack => exact ⟨_, sendOn_respectsLook _ dest len noack, fun _ => rfl⟩
  | poll => exact ⟨_, pollOn_respectsLook _, fun _ => rfl⟩
  | recv => exact ⟨_, recvOn_respectsLook, fun _ => rfl⟩
  | halRecv => exact ⟨_, halRecvOn_respectsLook _, fun _ => rfl⟩
  | init => exact ⟨_, initOn_respectsLook, fun _ => rfl⟩
  | setAddr addr => exact ⟨_, setAddrOn_respectsLook addr, fun _ => rfl⟩
  | getAddr => exact ⟨_, getAddrOn_respectsLook, fun _ => rfl⟩
  | rdStat idx => exact ⟨_, rdStatOn_respectsLook _ idx, fun _ => rfl⟩

/-- Every command word is a function of the state that respects its look. -/
theorem runCommand_respectsLook (cw : CmdWord) : ∃ f, RespectsLook f ∧ ∀ s, runCommand cw s = .next (f s) := by
  unfold runCommand
  cases decode cw with
  | command i => exact exec_respectsLook i
  | reservedOpcode op => exact ⟨_, reservedOpcode_respectsLook, fun _ => rfl⟩

theorem hostWriteTxb_respectsLook (a : Nat) (b : Byte) : RespectsLook (hostWriteTxb a b) := by
  intro s s' h
  rw [hostWriteTxb, hostWriteTxb, ← h.txb]
  exact h.setTxb _

theorem hardReset_respectsLook (c : Config) : RespectsLook (hardReset c) := fun _ _ h =>
  { pool := PoolsAlike.refl _, msgIdCtr := rfl, nodeAddr := rfl, errVersionCnt := rfl, errLengthCnt := rfl,
    tx := .of_idle rfl rfl, txb := h.txb, rxb := h.rxb, inputs := h.inputs, driver := h.driver,
    results := h.results, port := h.port }

/-- A sequencer in flight that has not offered its last fragment advances to one that lies within the message
(41_fragmentation.md R119). -/
theorem Tx.Inv.next_chunk_le {c : Config} {t : Tx} (hI : t.Inv c) (hb : t.busy = true)
    (hmore : t.idx.toNat + 1 ≠ t.count.toNat) :
    chunkOff (t.idx + 1).toNat + chunkLen t.len.toNat (t.idx + 1).toNat ≤ t.len.toNat := by
  have hidx := hI.idx_lt hb
  have hcount := t.count.isLt
  have hnext : (t.idx + 1).toNat = t.idx.toNat + 1 := by
    rw [BitVec.toNat_add]
    show (t.idx.toNat + 1) % 2 ^ 4 = t.idx.toNat + 1
    omega
  have hlt : t.idx.toNat + 1 < fragCount t.len.toNat := by
    rw [← hI.count_eq hb]
    omega
  rw [hnext, chunkOff_eq]
  exact (chunkLen_le hlt).2

/-- The one place where the invariant is needed: the next fragment must lie within the latched message. -/
theorem txConfirm_looksLike (c : Config) (ok : Bool) {s s' : State} (hI : s.tx.Inv c) (hb : s.tx.busy = true)
    (h : s.LooksLike s') : (txConfirm c ok s).LooksLike (txConfirm c ok s') := by
  obtain ⟨-, hdest, hid, hcount, hidx, hlen, hbytes⟩ := h.tx
  cases ok with
  | false =>
    rw [txConfirm_false, txConfirm_false, ← hidx hb]
    exact ((h.addPort _).setTx (.of_idle rfl rfl)).addResult _
  | true =>
    by_cases hl : s.tx.idx.toNat + 1 = s.tx.count.toNat
    · rw [txConfirm_true_last c hl, txConfirm_true_last c (by rw [← hidx hb, ← hcount hb]; exact hl), ← hcount hb]
      exact ((h.addPort _).setTx (.of_idle rfl rfl)).addResult _
    · rw [txConfirm_true_more c hl, txConfirm_true_more c (by rw [← hidx hb, ← hcount hb]; exact hl)]
      have htx : Tx.LooksLike { s.tx with idx := s.tx.idx + 1 } { s'.tx with idx := s'.tx.idx + 1 } :=
        { h.tx with idx := fun _ => congrArg (· + 1) (hidx hb) }
      exact State.LooksLike.offer ((h.addPort _).setTx htx) c hb (hI.next_chunk_le hb hl)

/-- States that look alike take the same input to states that look alike, or both stop. -/
theorem runInput_looksLike (i : Input) {s s' t : State} (hI : s.tx.Inv Config.mfe) (h : s.LooksLike s')
    (ht : runInput i s = .next t) : ∃ t', runInput i s' = .next t' ∧ t.LooksLike t' := by
  cases i with
  | command cw =>
    obtain ⟨f, hf, hrun⟩ := runCommand_respectsLook cw
    obtain rfl : f s = t := by simpa [runInput, hrun] using ht
    exact ⟨f s', hrun s', hf h⟩
  | txConfirm ok =>
    cases hb : s.tx.busy with
    | false => simp [runInput, runConfirm_of_idle ok hb] at ht
    | true =>
      obtain rfl : txConfirm Config.mfe ok s = t := by simpa [runInput, runConfirm_of_busy ok hb] using ht
      exact ⟨_, runConfirm_of_busy ok (h.tx.busy ▸ hb), txConfirm_looksLike _ ok hI hb h⟩
  | hostWrite a b =>
    simp only [runInput, runHostWrite] at ht ⊢
    split at ht
    · next ha =>
      cases ht
      exact ⟨_, if_pos ha, hostWriteTxb_respectsLook a b h⟩
    · cases ht
  | reset =>
    cases ht
    exact ⟨_, rfl, hardReset_respectsLook _ h⟩

/-- Settles O53: both states take the same next input, and no operation on it reads what differs. -/
theorem unspecifiedStateIsUnobservable : Obligations.UnspecifiedStateIsUnobservable := by
  intro s s' t hI _ h ht
  cases hi : s.inputs with
  | nil =>
    have hi' : s'.inputs = [] := h.inputs ▸ hi
    obtain rfl : s = t := by simpa [step, hi] using ht
    exact ⟨s', by simp [step, hi'], h⟩
  | cons i rest =>
    rw [step_of_inputs hi] at ht
    rw [step_of_inputs (h.inputs ▸ hi)]
    exact runInput_looksLike (s := s.setInputs rest) i hI.sequencer (h.setInputs rest) ht

end Sys2Proof.Machine

namespace Sys2Proof.Machine

/-! ### Who writes the byte spaces (20_memory.md R50 to R53) -/

/-- The byte spaces are the same: TXB, RXB, TXL and the slot buffers. -/
structure State.SameBytes (s t : State) : Prop where
  txb : s.txb = t.txb
  rxb : s.rxb = t.rxb
  latch : s.tx.latch = t.tx.latch
  buffers : s.pool.map Slot.buf = t.pool.map Slot.buf

/-- Which byte spaces one step may write, by its cause. `step_byteEffect` ties it to the machine. -/
inductive ByteEffect (s t : State) : Prop
  | quiet (same : s.SameBytes t)
  | txb (a : Nat) (b : Byte) (rest : List Input) (cause : s.inputs = .hostWrite a b :: rest)
      (lt : a < Config.mfe.maxMsg) (same : (s.setTxb t.txb).SameBytes t)
  | rxb (cause : Executes s .recv ∨ Executes s .halRecv) (n : BitVec 8)
      (result : t.results = s.results ++ [resultOf .ok (n := n)]) (same : (s.setRxb t.rxb).SameBytes t)
  | latch (dest len : BitVec 8) (noack : Bool) (cause : Executes s (.send dest len noack)) (busy : t.tx.busy = true)
      (same : (s.setTx t.tx).SameBytes t)
  | buffer (cause : Executes s .poll) (r : Result) (result : t.results = s.results ++ [r])
      (taken : r.status = .pending ∨ r.status = .complete) (same : (s.setPool t.pool).SameBytes t)
  | reset (cause : IsResetting s) (same : ((s.setTx t.tx).setPool t.pool).SameBytes t)

/-! The operations on the pool that write no buffer. -/

theorem buffers_modify_clean (i : Nat) (pool : List Slot) :
    (pool.modify i Slot.clean).map Slot.buf = pool.map Slot.buf := by
  refine List.ext_getElem? fun j => ?_
  rw [List.getElem?_map, List.getElem?_map, List.getElem?_modify]
  cases pool[j]? with
  | none => rfl
  | some x => by_cases hj : i = j <;> simp [hj]

theorem buffers_drain {pool p : List Slot} {m : List Byte} (h : drain pool = some (m, p)) :
    pool.map Slot.buf = p.map Slot.buf := by
  obtain ⟨i, x, -, -, -, rfl⟩ := drain_eq_some.1 h
  exact (buffers_modify_clean i pool).symm

theorem buffers_map_clean (pool : List Slot) : (pool.map Slot.clean).map Slot.buf = pool.map Slot.buf := by
  rw [List.map_map]
  rfl

theorem buffers_ageOthers_none (pool : List Slot) : (ageOthers none pool).map Slot.buf = pool.map Slot.buf := by
  refine List.ext_getElem? fun j => ?_
  rw [List.getElem?_map, List.getElem?_map, getElem?_ageOthers]
  cases pool[j]? <;> simp

/-- A round that writes a buffer returns `PENDING` or `COMPLETE`: a drop only ages (42_reassembly.md R137, R138). -/
theorem rxFrame_buffers (c : Config) (f : RawFrame) (pool : List Slot) :
    pool.map Slot.buf = (rxFrame c f pool).pool.map Slot.buf ∨
      ((rxFrame c f pool).status = .pending ∨ (rxFrame c f pool).status = .complete) := by
  cases h : select c f pool with
  | drop st =>
    rw [rxFrame_drop h]
    exact .inl (buffers_ageOthers_none pool).symm
  | take i p ev =>
    obtain ⟨-, x, hx, -⟩ := select_take h
    obtain ⟨-, -, -, hstatus⟩ := rxFrame_take h
    rw [hstatus x hx]
    by_cases hr : (slotAfter f i i x).ready = true <;> simp [hr]

/-- The byte spaces a command may write when it is executed, no send being in flight. -/
theorem exec_byteEffect {s t : State} {i : Instr} {rest : List Input} (hx : Executes s i)
    (h : exec i (s.setInputs rest) = .next t) : ByteEffect s t := by
  obtain ⟨st, v, rfl, -⟩ | ⟨dest, len, noack, rfl, -, -, rfl⟩ | ⟨rfl, -, rfl⟩ | ⟨rfl, f, -, rfl⟩ |
    ⟨rfl, m, p, hd, rfl⟩ | ⟨rfl, m, p, hd, ⟨-, rfl⟩ | ⟨-, rfl⟩ | ⟨d, -, rfl⟩⟩ | ⟨rfl, rfl⟩ | ⟨addr, rfl, rfl⟩ :=
      exec_next (s := s.setInputs rest) hx.1 h
  · exact .quiet ⟨rfl, rfl, rfl, rfl⟩
  · exact .latch dest len noack hx rfl ⟨rfl, rfl, rfl, rfl⟩
  · exact .quiet ⟨rfl, rfl, rfl, rfl⟩
  · obtain hsame | htaken := rxFrame_buffers Config.mfe f s.pool
    · exact .quiet ⟨rfl, rfl, rfl, hsame⟩
    · exact .buffer hx _ rfl htaken ⟨rfl, rfl, rfl, rfl⟩
  · exact .rxb (.inl hx) _ rfl ⟨rfl, rfl, rfl, buffers_drain hd⟩
  · exact .quiet ⟨rfl, rfl, rfl, buffers_drain hd⟩
  · exact .quiet ⟨rfl, rfl, rfl, buffers_drain hd⟩
  · exact .rxb (.inr hx) _ rfl ⟨rfl, rfl, rfl, buffers_drain hd⟩
  · exact .quiet ⟨rfl, rfl, rfl, (buffers_map_clean s.pool).symm⟩
  · exact .quiet ⟨rfl, rfl, rfl, rfl⟩

/-- A confirmation moves the sequencer and keeps every byte space, TXL too (41_fragmentation.md R119). -/
theorem txConfirm_sameBytes (c : Config) (ok : Bool) (s : State) : s.SameBytes (txConfirm c ok s) := by
  cases ok with
  | false => exact ⟨rfl, rfl, rfl, rfl⟩
  | true =>
    by_cases hl : s.tx.idx.toNat + 1 = s.tx.count.toNat
    · rw [txConfirm_true_last c hl]
      exact ⟨rfl, rfl, rfl, rfl⟩
    · rw [txConfirm_true_more c hl]
      exact ⟨rfl, rfl, rfl, rfl⟩

/-- Every step has one of the effects on the byte spaces, with its cause. -/
theorem step_byteEffect {s t : State} (h : step s = .next t) : ByteEffect s t := by
  obtain ⟨-, rfl⟩ | ⟨-, cw, rest, -, rfl⟩ | ⟨-, cw, rest, op, -, -, rfl⟩ | ⟨i, rest, hx, he⟩ |
    ⟨-, ok, rest, -, rfl⟩ | ⟨a, b, rest, hi, ha, rfl⟩ | ⟨rest, hi, rfl⟩ := step_next h
  · exact .quiet ⟨rfl, rfl, rfl, rfl⟩
  · exact .quiet ⟨rfl, rfl, rfl, rfl⟩
  · exact .quiet ⟨rfl, rfl, rfl, rfl⟩
  · exact exec_byteEffect hx he
  · obtain ⟨htxb, hrxb, hlatch, hbuffers⟩ := txConfirm_sameBytes Config.mfe ok (s.setInputs rest)
    exact .quiet ⟨htxb, hrxb, hlatch, hbuffers⟩
  · exact .txb a b rest hi ha ⟨rfl, rfl, rfl, rfl⟩
  · exact .reset ⟨rest, hi⟩ ⟨rfl, rfl, rfl, rfl⟩

/-- Settles O28: for each byte space, the effects of a step that write it carry its owner as their cause. -/
theorem byteSpacesAreWrittenOnlyByTheirOwners : Obligations.ByteSpacesAreWrittenOnlyByTheirOwners := by
  intro s t h
  have e := step_byteEffect h
  refine ⟨fun hne => ?_, fun hne => ?_, fun hne => ?_, fun hne => ?_⟩
  · cases e with
    | txb a b rest cause lt => exact ⟨a, b, rest, cause, lt⟩
    | quiet same | rxb _ _ _ same | latch _ _ _ _ _ same | buffer _ _ _ _ same | reset _ same =>
      exact absurd same.txb.symm hne
  · cases e with
    | rxb cause n result => exact ⟨cause, n, result⟩
    | quiet same | txb _ _ _ _ _ same | latch _ _ _ _ _ same | buffer _ _ _ _ same | reset _ same =>
      exact absurd same.rxb.symm hne
  · cases e with
    | latch dest len noack cause busy => exact .inl ⟨dest, len, noack, cause, busy⟩
    | reset cause => exact .inr cause
    | quiet same | txb _ _ _ _ _ same | rxb _ _ _ same | buffer _ _ _ _ same => exact absurd same.latch.symm hne
  · cases e with
    | buffer cause r result taken => exact .inl ⟨cause, r, result, taken⟩
    | reset cause => exact .inr cause
    | quiet same | txb _ _ _ _ _ same | rxb _ _ _ same | latch _ _ _ _ _ same => exact absurd same.buffers.symm hne

/-! ### TXB is not read during a send (20_memory.md R52, R63) -/

/-- A confirmation neither reads nor writes TXB and the inputs still to come. -/
theorem txConfirm_setTxb_setInputs (c : Config) (ok : Bool) (s : State) (m : Memory) (l : List Input) :
    txConfirm c ok ((s.setTxb m).setInputs l) = ((txConfirm c ok s).setTxb m).setInputs l := by
  cases ok with
  | false => rfl
  | true =>
    by_cases hl : s.tx.idx.toNat + 1 = s.tx.count.toNat
    · rw [txConfirm_true_last c hl, txConfirm_true_last (s := (s.setTxb m).setInputs l) c hl]
      rfl
    · rw [txConfirm_true_more c hl, txConfirm_true_more (s := (s.setTxb m).setInputs l) c hl]
      rfl

theorem step_txConfirm_of_busy (m : Memory) (ok : Bool) (rest : List Input) {s : State} (hb : s.tx.busy = true) :
    step ((s.setTxb m).setInputs (.txConfirm ok :: rest)) =
      .next (((txConfirm Config.mfe ok s).setTxb m).setInputs rest) := by
  rw [step_of_inputs rfl, ← txConfirm_setTxb_setInputs]
  exact runConfirm_of_busy (s := (s.setTxb m).setInputs rest) ok hb

/-- A confirmation that is answered was one of an offered frame (41_fragmentation.md R119; log 6). -/
theorem busy_of_step_txConfirm {ok : Bool} {rest : List Input} {s t : State}
    (h : step (s.setInputs (.txConfirm ok :: rest)) = .next t) : s.tx.busy = true := by
  rw [step_of_inputs rfl] at h
  cases hb : s.tx.busy with
  | true => rfl
  | false => exact nomatch (runConfirm_of_idle (s := s.setInputs rest) ok hb).symm.trans h

/-- A host write that is answered has written its byte of TXB and nothing else (20_memory.md R52). -/
theorem eq_of_step_hostWrite {a : Nat} {b : Byte} {rest : List Input} {s t : State}
    (h : step (s.setInputs (.hostWrite a b :: rest)) = .next t) :
    t = (s.setTxb (s.txb.write a b)).setInputs rest := by
  rw [step_of_inputs rfl] at h
  simp only [runInput, runHostWrite] at h
  split at h
  · exact (Host.Outcome.next.inj h).symm
  · cases h

/-- A run over confirmations and host writes, with the host writes left out and any other bytes in TXB, ends in the same
state but for TXB. -/
theorem run_without_hostWrites (m : Memory) (l : List Input) {s t : State}
    (hl : ∀ i ∈ l, i.isConfirm = true ∨ i.isHostWrite = true)
    (h : Sys2Proof.core.run l.length (s.setInputs l) = .next t) :
    Sys2Proof.core.run (l.filter Input.isConfirm).length ((s.setTxb m).setInputs (l.filter Input.isConfirm)) =
      .next (t.setTxb m) := by
  induction l generalizing s with
  | nil =>
    obtain rfl : s.setInputs [] = t := Host.Outcome.next.inj h
    rfl
  | cons i l ih =>
    obtain ⟨s', hstep, hrun⟩ := step_of_run_succ h
    obtain ⟨hi, hrest⟩ := List.forall_mem_cons.1 hl
    cases i with
    | txConfirm ok =>
      have hb := busy_of_step_txConfirm hstep
      obtain rfl := Host.Outcome.next.inj ((step_txConfirm_of_busy s.txb ok l hb).symm.trans hstep)
      rw [List.filter_cons_of_pos rfl, List.length_cons, run_succ_of_step _ (step_txConfirm_of_busy m ok _ hb)]
      exact ih (s := (txConfirm Config.mfe ok s).setTxb s.txb) hrest hrun
    | hostWrite a b =>
      obtain rfl := eq_of_step_hostWrite hstep
      rw [List.filter_cons_of_neg (by simp [Input.isConfirm])]
      exact ih (s := s.setTxb (s.txb.write a b)) hrest hrun
    | command cw => simp [Input.isConfirm, Input.isHostWrite] at hi
    | reset => simp [Input.isConfirm, Input.isHostWrite] at hi

/-- Settles O23: the run without the host's writes ends in the same state but for TXB. -/
theorem hostWritesDuringSendChangeNothingSent : Obligations.HostWritesDuringSendChangeNothingSent := by
  intro s t u l hl ht hu
  have h := run_without_hostWrites s.txb l hl ht
  obtain rfl : u = t.setTxb s.txb := Host.Outcome.next.inj (hu.symm.trans h)
  exact ⟨rfl, rfl, rfl⟩

/-! ### Commands that only read (20_memory.md R60) -/

/-- No status register depends on the results returned before (10_state.md R36). -/
theorem statusRegister_results (c : Config) (idx : BitVec 8) (s : State) (l : List Result) :
    statusRegister c idx { s with results := l } = statusRegister c idx s := rfl

theorem exec_rdStat_returns (idx : BitVec 8) {s : State} (hb : s.tx.busy = false) :
    ∃ r, ∀ l, exec (.rdStat idx) { s with results := l } = .next { s with results := l ++ [r] } := by
  cases hr : statusRegister Config.mfe idx s with
  | none =>
    refine ⟨resultOf .badCmd, fun l => ?_⟩
    rw [exec_rdStat_of_idle (s := { s with results := l }) idx hb, statusRegister_results, hr]
    rfl
  | some v =>
    refine ⟨resultOf .ok (val := v), fun l => ?_⟩
    rw [exec_rdStat_of_idle (s := { s with results := l }) idx hb, statusRegister_results, hr]
    rfl

/-- A reading command returns one result, the same whatever was returned before, and changes nothing else. -/
theorem exec_of_reading {i : Instr} (s : State)
    (hi : (∃ x, i = .rdStat x) ∨ i = .getAddr ∨ (∃ a b c d e, i = .hdrEnc a b c d e) ∨ ∃ w, i = .hdrDec w) :
    ∃ r, ∀ l, exec i { s with results := l } = .next { s with results := l ++ [r] } := by
  cases hb : s.tx.busy with
  | true => exact ⟨_, fun l => exec_of_busy i (s := { s with results := l }) hb⟩
  | false =>
    obtain ⟨x, rfl⟩ | rfl | ⟨a, b, c, d, e, rfl⟩ | ⟨w, rfl⟩ := hi
    · exact exec_rdStat_returns x hb
    · exact ⟨resultOf .ok (val := s.nodeAddr.setWidth 32), fun l =>
        exec_getAddr_of_idle (s := { s with results := l }) hb⟩
    · exact ⟨_, fun l => exec_hdrEnc_of_idle a b c d e (s := { s with results := l }) hb⟩
    · exact ⟨_, fun l => exec_hdrDec_of_idle w (s := { s with results := l }) hb⟩

/-- Settles O46: the result does not depend on the results before it, so the second run returns it again. -/
theorem readingCommandsHaveNoSideEffect : Obligations.ReadingCommandsHaveNoSideEffect := by
  intro i s hi
  obtain ⟨r, hr⟩ := exec_of_reading s hi
  refine ⟨r, hr s.results, ?_⟩
  rw [hr, List.append_assoc]
  rfl

/-! ### The step that takes a command word (20_memory.md R59, R63) -/

theorem step_of_command {s : State} {cw : CmdWord} {rest : List Input} {i : Instr} (h : s.inputs = .command cw :: rest)
    (hd : decode cw = .command i) : step s = exec i (s.setInputs rest) := by
  rw [step_of_inputs h]
  simp only [runInput, runCommand, hd]

/-- A command word is the table word of its own 48 bits (log 14). -/
theorem tableWord_toNat (cw : CmdWord) : tableWord 48 cw.toNat = cw := by
  rw [tableWord, Nat.mod_eq_of_lt cw.isLt, BitVec.ofNat_toNat, BitVec.setWidth_eq]

/-- Settles O5: the step takes the presented word, and the canonical word of a command decodes to it. -/
theorem stepRunsTheDecodedCommand : Obligations.StepRunsTheDecodedCommand := by
  refine ⟨fun s cw rest i h hd => step_of_command h hd, fun s i => ?_⟩
  have hd : decode (tableWord 48 (encode i).toNat) = .command i := by
    rw [tableWord_toNat]
    exact decode_encode i
  exact step_of_command (s := s.withFetchWord 48 (encode i).toNat) rfl hd

end Sys2Proof.Machine

namespace Sys2Proof.Machine

/-! ### The rows of the command table (30_encoding.md R80 to R83) -/

/-- A command word is made of its six byte fields (30_encoding.md R80). -/
theorem ofFields_fields (cw : CmdWord) :
    CmdWord.ofFields (CmdWord.op cw) (CmdWord.a4 cw) (CmdWord.a3 cw) (CmdWord.a2 cw) (CmdWord.a1 cw) (CmdWord.a0 cw) =
      cw := by
  ext i hi
  simp only [CmdWord.ofFields, CmdWord.op, CmdWord.a4, CmdWord.a3, CmdWord.a2, CmdWord.a1, CmdWord.a0,
    BitVec.getElem_or, BitVec.getElem_shiftLeft, BitVec.getElem_setWidth, BitVec.getLsbD_extractLsb']
  interval_cases i <;> simp

/-- Two command words are equal when their fields are. -/
theorem eq_iff_fields {cw cw' : CmdWord} : cw = cw' ↔
    CmdWord.op cw = CmdWord.op cw' ∧ CmdWord.a4 cw = CmdWord.a4 cw' ∧ CmdWord.a3 cw = CmdWord.a3 cw' ∧
      CmdWord.a2 cw = CmdWord.a2 cw' ∧ CmdWord.a1 cw = CmdWord.a1 cw' ∧ CmdWord.a0 cw = CmdWord.a0 cw' := by
  constructor
  · rintro rfl
    exact ⟨rfl, rfl, rfl, rfl, rfl, rfl⟩
  · rintro ⟨h5, h4, h3, h2, h1, h0⟩
    rw [← ofFields_fields cw, h5, h4, h3, h2, h1, h0, ofFields_fields]

section
variable (x y : CmdWord)

@[simp] theorem op_and : CmdWord.op (x &&& y) = CmdWord.op x &&& CmdWord.op y := BitVec.extractLsb'_and
@[simp] theorem a4_and : CmdWord.a4 (x &&& y) = CmdWord.a4 x &&& CmdWord.a4 y := BitVec.extractLsb'_and
@[simp] theorem a3_and : CmdWord.a3 (x &&& y) = CmdWord.a3 x &&& CmdWord.a3 y := BitVec.extractLsb'_and
@[simp] theorem a2_and : CmdWord.a2 (x &&& y) = CmdWord.a2 x &&& CmdWord.a2 y := BitVec.extractLsb'_and
@[simp] theorem a1_and : CmdWord.a1 (x &&& y) = CmdWord.a1 x &&& CmdWord.a1 y := BitVec.extractLsb'_and
@[simp] theorem a0_and : CmdWord.a0 (x &&& y) = CmdWord.a0 x &&& CmdWord.a0 y := BitVec.extractLsb'_and

end

/-- Masking a command word masks each of its fields. -/
theorem and_ofFields_eq_iff {cw : CmdWord} {m5 m4 m3 m2 m1 m0 v5 v4 v3 v2 v1 v0 : BitVec 8} :
    cw &&& CmdWord.ofFields m5 m4 m3 m2 m1 m0 = CmdWord.ofFields v5 v4 v3 v2 v1 v0 ↔
      CmdWord.op cw &&& m5 = v5 ∧ CmdWord.a4 cw &&& m4 = v4 ∧ CmdWord.a3 cw &&& m3 = v3 ∧
        CmdWord.a2 cw &&& m2 = v2 ∧ CmdWord.a1 cw &&& m1 = v1 ∧ CmdWord.a0 cw &&& m0 = v0 := by
  rw [eq_iff_fields]
  simp only [op_and, a4_and, a3_and, a2_and, a1_and, a0_and, op_ofFields, a4_ofFields, a3_ofFields, a2_ofFields,
    a1_ofFields, a0_ofFields]

/-- The 32-bit operand of `HDR_DEC` is operands 3 to 0 (30_encoding.md R81). -/
theorem word_eq_iff_fields {cw : CmdWord} {w : Header} : cw.extractLsb' 0 32 = w ↔
    CmdWord.a3 cw = w.extractLsb' 24 8 ∧ CmdWord.a2 cw = w.extractLsb' 16 8 ∧ CmdWord.a1 cw = w.extractLsb' 8 8 ∧
      CmdWord.a0 cw = w.extractLsb' 0 8 := by
  constructor
  · rintro rfl
    simp [CmdWord.a3, CmdWord.a2, CmdWord.a1, CmdWord.a0, BitVec.extractLsb'_extractLsb'_of_le]
  · rintro ⟨h3, h2, h1, h0⟩
    rw [← ofFields_fields cw, h3, h2, h1, h0, word_ofFields]

/-- `noack` is bit 0 of operand 2 (30_encoding.md R81). -/
theorem noack_eq_iff {cw : CmdWord} {noack : Bool} :
    cw.getLsbD 16 = noack ↔ CmdWord.a2 cw &&& 1 = if noack then 1 else 0 := by
  have h : CmdWord.a2 cw &&& 1 = if cw.getLsbD 16 then 1 else 0 := by
    refine BitVec.and_one_eq_setWidth_ofBool_getLsbD.trans ?_
    have h0 : (CmdWord.a2 cw).getLsbD 0 = cw.getLsbD 16 := by simp [CmdWord.a2]
    rw [h0]
    cases cw.getLsbD 16 <;> rfl
  rw [h]
  cases cw.getLsbD 16 <;> cases noack <;> decide

/-- What a command's row of 30_encoding.md R81 says of its command words: the opcode, and where each operand is.
`decode_eq_command_iff` and `and_namedBits_eq_encode_iff` tie it to the model. -/
def IsRowOf (cw : CmdWord) : Instr → Prop
  | .hdrEnc id count idx dest src => CmdWord.op cw = 0x01 ∧ CmdWord.a4 cw = id ∧ CmdWord.a3 cw = count ∧
      CmdWord.a2 cw = idx ∧ CmdWord.a1 cw = dest ∧ CmdWord.a0 cw = src
  | .hdrDec word => CmdWord.op cw = 0x02 ∧ cw.extractLsb' 0 32 = word
  | .send dest len noack => CmdWord.op cw = 0x03 ∧ cw.getLsbD 16 = noack ∧ CmdWord.a1 cw = len ∧ CmdWord.a0 cw = dest
  | .poll => CmdWord.op cw = 0x04
  | .recv => CmdWord.op cw = 0x05
  | .halRecv => CmdWord.op cw = 0x06
  | .init => CmdWord.op cw = 0x07
  | .setAddr addr => CmdWord.op cw = 0x08 ∧ CmdWord.a0 cw = addr
  | .getAddr => CmdWord.op cw = 0x09
  | .rdStat idx => CmdWord.op cw = 0x0A ∧ CmdWord.a0 cw = idx

theorem isRowOf_of_decode {cw : CmdWord} {i : Instr} (h : decode cw = .command i) : IsRowOf cw i := by
  simp only [decode] at h
  split_ifs at h with h1 h2 h3 h4 h5 h6 h7 h8 h9 hA
  · cases h; exact ⟨h1, rfl, rfl, rfl, rfl, rfl⟩
  · cases h; exact ⟨h2, rfl⟩
  · cases h; exact ⟨h3, rfl, rfl, rfl⟩
  · cases h; exact h4
  · cases h; exact h5
  · cases h; exact h6
  · cases h; exact h7
  · cases h; exact ⟨h8, rfl⟩
  · cases h; exact h9
  · cases h; exact ⟨hA, rfl⟩

theorem decode_of_isRowOf {cw : CmdWord} {i : Instr} (h : IsRowOf cw i) : decode cw = .command i := by
  cases i with
  | hdrEnc => obtain ⟨hop, rfl, rfl, rfl, rfl, rfl⟩ := h; simp [decode, hop]
  | hdrDec => obtain ⟨hop, rfl⟩ := h; simp [decode, hop]
  | send => obtain ⟨hop, rfl, rfl, rfl⟩ := h; simp [decode, hop]
  | poll | recv | halRecv | init | getAddr =>
    have hop : CmdWord.op cw = _ := h
    simp [decode, hop]
  | setAddr => obtain ⟨hop, rfl⟩ := h; simp [decode, hop]
  | rdStat => obtain ⟨hop, rfl⟩ := h; simp [decode, hop]

/-- The decoder reads the table of 30_encoding.md R81. -/
theorem decode_eq_command_iff {cw : CmdWord} {i : Instr} : decode cw = .command i ↔ IsRowOf cw i :=
  ⟨isRowOf_of_decode, decode_of_isRowOf⟩

/-- The named bits of a command, byte by byte (30_encoding.md R80, R81). -/
theorem namedBits_eq_ofFields (i : Instr) : namedBits i =
    match i with
    | .hdrEnc .. => CmdWord.ofFields 0xFF 0xFF 0xFF 0xFF 0xFF 0xFF
    | .hdrDec _ => CmdWord.ofFields 0xFF 0 0xFF 0xFF 0xFF 0xFF
    | .send .. => CmdWord.ofFields 0xFF 0 0 1 0xFF 0xFF
    | .setAddr _ | .rdStat _ => CmdWord.ofFields 0xFF 0 0 0 0 0xFF
    | .poll | .recv | .halRecv | .init | .getAddr => CmdWord.ofFields 0xFF 0 0 0 0 0 := by
  cases i <;> rfl

/-- A word is a command's, by the table, exactly when its named bits are those of the canonical word
(30_encoding.md R83). -/
theorem and_namedBits_eq_encode_iff {cw : CmdWord} {i : Instr} : cw &&& namedBits i = encode i ↔ IsRowOf cw i := by
  have hFF (x : BitVec 8) : x &&& 0xFF = x := BitVec.and_allOnes
  have h00 (x : BitVec 8) : x &&& 0 = 0 := BitVec.and_zero
  rw [namedBits_eq_ofFields]
  cases i with
  | hdrDec => simp only [encode, and_ofFields_eq_iff, IsRowOf, hFF, h00, word_eq_iff_fields, true_and]
  | send => simp only [encode, and_ofFields_eq_iff, IsRowOf, hFF, h00, noack_eq_iff, true_and]
  | hdrEnc | poll | recv | halRecv | init | setAddr | getAddr | rdStat =>
    simp only [encode, and_ofFields_eq_iff, IsRowOf, hFF, h00, true_and, and_true]

/-- Settles O1: eleven closed words. -/
theorem commandWordsDecodeAsWritten : Obligations.CommandWordsDecodeAsWritten := by
  unfold Obligations.CommandWordsDecodeAsWritten
  decide

/-- Settles O2: one round trip per row of the table. -/
theorem decodeAfterEncodeIsIdentity : Obligations.DecodeAfterEncodeIsIdentity := decode_encode

/-- Settles O3: decoding to a command and agreeing with its canonical word on its named bits are both membership in its
row of the table. -/
theorem onlyNamedBitsOfCommandWordMatter : Obligations.OnlyNamedBitsOfCommandWordMatter := by
  intro cw cw' i h
  have hcw : cw &&& namedBits i = encode i := and_namedBits_eq_encode_iff.2 (decode_eq_command_iff.1 h)
  refine ⟨hcw.symm, fun hsame => ?_⟩
  exact decode_eq_command_iff.2 (and_namedBits_eq_encode_iff.1 (hsame.trans hcw))

/-! ### The header (30_encoding.md R71 to R75) -/

section
variable (c : Config) (id count idx dest src : BitVec 8)

/-- The header is its fields one after the other, the most significant first (30_encoding.md R71, R72). -/
theorem hdrEnc_eq_append : hdrEnc c id count idx dest src =
    c.framing ++ (0 : BitVec 3) ++ id.setWidth 3 ++ count.setWidth 4 ++ idx.setWidth 4 ++ dest ++ src := by
  refine BitVec.eq_of_getLsbD_eq fun i hi => ?_
  iterate 6 rw [BitVec.getLsbD_append]
  simp only [hdrEnc, BitVec.getLsbD_or, BitVec.getLsbD_shiftLeft, BitVec.getLsbD_setWidth, BitVec.getLsbD_and]
  interval_cases i <;> simp

/-! The fields of the packed header: what lies below a field is dropped, and the field is what is then lowest. -/

theorem hdrEnc_src : (hdrEnc c id count idx dest src).extractLsb' 0 8 = src := by
  rw [hdrEnc_eq_append]
  exact BitVec.extractLsb'_append_eq_right

theorem hdrEnc_dest : (hdrEnc c id count idx dest src).extractLsb' 8 8 = dest := by
  rw [hdrEnc_eq_append, BitVec.extractLsb'_append_eq_of_le (by decide)]
  exact BitVec.extractLsb'_append_eq_right

theorem hdrEnc_idx : (hdrEnc c id count idx dest src).extractLsb' 16 4 = idx.setWidth 4 := by
  rw [hdrEnc_eq_append]
  iterate 2 rw [BitVec.extractLsb'_append_eq_of_le (by decide)]
  exact BitVec.extractLsb'_append_eq_right

theorem hdrEnc_count : (hdrEnc c id count idx dest src).extractLsb' 20 4 = count.setWidth 4 := by
  rw [hdrEnc_eq_append]
  iterate 3 rw [BitVec.extractLsb'_append_eq_of_le (by decide)]
  exact BitVec.extractLsb'_append_eq_right

theorem hdrEnc_id : (hdrEnc c id count idx dest src).extractLsb' 24 3 = id.setWidth 3 := by
  rw [hdrEnc_eq_append]
  iterate 4 rw [BitVec.extractLsb'_append_eq_of_le (by decide)]
  exact BitVec.extractLsb'_append_eq_right

theorem hdrEnc_reserved : (hdrEnc c id count idx dest src).extractLsb' 27 3 = 0 := by
  rw [hdrEnc_eq_append]
  iterate 5 rw [BitVec.extractLsb'_append_eq_of_le (by decide)]
  exact BitVec.extractLsb'_append_eq_right

theorem hdrEnc_framing : (hdrEnc c id count idx dest src).extractLsb' 30 2 = c.framing := by
  rw [hdrEnc_eq_append]
  iterate 6 rw [BitVec.extractLsb'_append_eq_of_le (by decide)]
  exact BitVec.extractLsb'_eq_self

end

/-- Settles O11: each field of the header holds its operand cut to the field's width. -/
theorem hdrEncPacksTheHeader : Obligations.HdrEncPacksTheHeader := by
  intro id count idx dest src s
  refine ⟨fun hb => ⟨hdrEnc Config.mfe id count idx dest src, exec_hdrEnc_of_idle id count idx dest src hb,
    hdrEnc_src .., hdrEnc_dest .., ?_, ?_, ?_, hdrEnc_reserved .., hdrEnc_framing ..⟩, exec_of_busy _⟩
  · rw [hdrEnc_idx, BitVec.toNat_setWidth]
  · rw [hdrEnc_count, BitVec.toNat_setWidth]
  · rw [hdrEnc_id, BitVec.toNat_setWidth]

/-! ### The chunks of a message (30_encoding.md R78) -/

/-- The last chunk has the rest of the message, or a full chunk. -/
theorem chunkLen_last_mod {len : Nat} (h : 1 ≤ len) :
    chunkLen len (fragCount len - 1) = if len % 8 = 0 then 8 else len % 8 := by
  have e := fragCount_eq len
  rw [chunkLen_last (by omega)]
  split <;> omega

/-- The chunks in order are the message. -/
theorem flatMap_all_chunks (m : Memory) {len : Nat} (h : 1 ≤ len) :
    (List.range (fragCount len)).flatMap (fun k => m.readN (chunkOff k) (chunkLen len k)) = m.readN 0 len := by
  obtain ⟨n, hn⟩ : ∃ n, fragCount len = n + 1 := ⟨fragCount len - 1, by have := fragCount_eq len; omega⟩
  have hlen : 8 * n + chunkLen len n = len := by
    have := fragCount_eq len
    rw [chunkLen_last hn]
    omega
  calc (List.range (fragCount len)).flatMap (fun k => m.readN (chunkOff k) (chunkLen len k))
      = m.readN 0 (8 * n) ++ m.readN (8 * n) (chunkLen len n) := by
        rw [hn, List.range_succ, List.flatMap_append, flatMap_chunks m (by omega)]
        simp [chunkOff_eq]
    _ = m.readN 0 (8 * n + chunkLen len n) := by rw [Memory.readN_append, Nat.zero_add]
    _ = m.readN 0 len := by rw [hlen]

/-- Settles O19: the bounds on the number of chunks, the length of each, and that nothing is lost between them. -/
theorem chunksAreExactlyTheMessage : Obligations.ChunksAreExactlyTheMessage := by
  intro c len h1 h2
  obtain ⟨hpos, hmax, hcover, hneed⟩ := fragCount_bounds h1 h2
  exact ⟨hpos, hmax, hcover, hneed, fun _ => rfl, fun _ => chunkLen_of_lt, chunkLen_last_mod h1,
    fun m => flatMap_all_chunks m h1⟩

end Sys2Proof.Machine


namespace Sys2Proof.Machine

/-! ### The header's fields and the word (40_header_codec.md R101 to R103) -/

/-- Every operand comes back cut to its field's width (40_header_codec.md R102). -/
theorem hdrDec_hdrEnc (c : Config) (id count idx dest src : BitVec 8) :
    hdrDec (hdrEnc c id count idx dest src) = ⟨src, dest, idx.setWidth 4, count.setWidth 4, id.setWidth 3⟩ := by
  rw [hdrDec, hdrEnc_src, hdrEnc_dest, hdrEnc_idx, hdrEnc_count, hdrEnc_id]

/-- A header is its framing, its reserved bits and the fields that the unpacker reads, one after the other. -/
theorem header_eq_append (h : Header) :
    h = h.extractLsb' 30 2 ++ h.extractLsb' 27 3 ++ (hdrDec h).id ++ (hdrDec h).count ++ (hdrDec h).idx ++
      (hdrDec h).dest ++ (hdrDec h).src := by
  simp only [hdrDec]
  iterate 6 rw [BitVec.extractLsb'_append_extractLsb'_eq_extractLsb' (by decide)]
  exact BitVec.extractLsb'_eq_self.symm

/-- The unpacker forgets bits 31:27 and nothing else (40_header_codec.md R103). -/
theorem header_eq_iff_fields {h h' : Header} : h = h' ↔
    h.extractLsb' 30 2 = h'.extractLsb' 30 2 ∧ h.extractLsb' 27 3 = h'.extractLsb' 27 3 ∧ hdrDec h = hdrDec h' := by
  constructor
  · rintro rfl
    exact ⟨rfl, rfl, rfl⟩
  · rintro ⟨hframing, hreserved, hfields⟩
    rw [header_eq_append h, hframing, hreserved, hfields, ← header_eq_append h']

/-- The word of 40_header_codec.md R103: a framing over bits 31:30, 0 over bits 29:27, the other bits kept.
`hdrEnc_hdrDec` ties it to the packer, `reframed_zero` to the value that `HDR_DEC` returns. -/
def reframed (framing : BitVec 2) (h : Header) : Header := (framing.setWidth 32 <<< 30) ||| (h &&& 0x07FFFFFF)

section
variable (framing : BitVec 2) (h : Header)

theorem reframed_zero : reframed 0 h = h &&& 0x07FFFFFF := BitVec.zero_or

theorem reframed_eq_append : reframed framing h = framing ++ (0 : BitVec 3) ++ h.extractLsb' 0 27 := by
  refine BitVec.eq_of_getLsbD_eq fun i hi => ?_
  iterate 2 rw [BitVec.getLsbD_append]
  simp only [reframed, BitVec.getLsbD_or, BitVec.getLsbD_shiftLeft, BitVec.getLsbD_setWidth, BitVec.getLsbD_and,
    BitVec.getLsbD_extractLsb']
  interval_cases i <;> simp

@[simp] theorem reframed_framing : (reframed framing h).extractLsb' 30 2 = framing := by
  rw [reframed_eq_append]
  iterate 2 rw [BitVec.extractLsb'_append_eq_of_le (by decide)]
  exact BitVec.extractLsb'_eq_self

@[simp] theorem reframed_reserved : (reframed framing h).extractLsb' 27 3 = 0 := by
  rw [reframed_eq_append, BitVec.extractLsb'_append_eq_of_le (by decide)]
  exact BitVec.extractLsb'_append_eq_right

/-- Bits 26:0 are kept. -/
theorem extractLsb'_reframed {start len : Nat} (hle : start + len ≤ 27) :
    (reframed framing h).extractLsb' start len = h.extractLsb' start len := by
  rw [reframed_eq_append, BitVec.extractLsb'_append_eq_of_add_le hle, BitVec.extractLsb'_extractLsb'_of_le hle]

@[simp] theorem hdrDec_reframed : hdrDec (reframed framing h) = hdrDec h := by
  simp only [hdrDec, extractLsb'_reframed, Nat.reduceAdd, Nat.reduceLeDiff]

end

/-- Encoding a decoded word writes the framing over it (40_header_codec.md R103). -/
theorem hdrEnc_hdrDec (c : Config) (h : Header) :
    hdrEnc c ((hdrDec h).id.setWidth 8) ((hdrDec h).count.setWidth 8) ((hdrDec h).idx.setWidth 8) (hdrDec h).dest
      (hdrDec h).src = reframed c.framing h := by
  refine header_eq_iff_fields.2 ⟨?_, ?_, ?_⟩
  · rw [hdrEnc_framing, reframed_framing]
  · rw [hdrEnc_reserved, reframed_reserved]
  · have fits {v : Nat} (hv : v ≤ 8) (x : BitVec v) : (x.setWidth 8).setWidth v = x := by
      rw [BitVec.setWidth_setWidth_of_le x hv, BitVec.setWidth_eq]
    rw [hdrDec_hdrEnc, fits (by decide), fits (by decide), fits (by decide), hdrDec_reframed]

/-- Settles O12: the returned word has the fields of the given one and nothing above them. -/
theorem hdrDecUnpacksTheHeader : Obligations.HdrDecUnpacksTheHeader := by
  intro h s
  refine ⟨fun hb => ⟨reframed 0 h, ?_, ?_⟩, exec_of_busy _⟩
  · rw [reframed_zero]
    exact exec_hdrDec_of_idle h hb
  · obtain ⟨hsrc, hdest, hidx, hcount, hid⟩ := HeaderFields.mk.inj (hdrDec_reframed 0 h)
    refine ⟨hsrc, hdest, hidx, hcount, hid, ?_⟩
    rw [reframed_eq_append, BitVec.extractLsb'_append_eq_of_le (by decide)]
    rfl

/-- Settles O13: each field of the decoded header is the operand modulo two to the field's width. -/
theorem headerDecodeAfterEncodeTruncates : Obligations.HeaderDecodeAfterEncodeTruncates := by
  intro c id count idx dest src
  rw [hdrDec_hdrEnc]
  exact ⟨rfl, rfl, BitVec.toNat_setWidth .., BitVec.toNat_setWidth .., BitVec.toNat_setWidth ..⟩

/-- Settles O14: two words are equal when their framing, reserved bits and fields are, and reframing changes only the
first two. -/
theorem headerEncodeAfterDecodeReframes : Obligations.HeaderEncodeAfterDecodeReframes := by
  intro c h h'
  refine ⟨hdrEnc_hdrDec c h, ?_, ?_⟩
  · rw [hdrEnc_hdrDec, header_eq_iff_fields, reframed_framing, reframed_reserved, hdrDec_reframed]
    simp only [and_true, eq_comm]
  · rw [← reframed_zero, ← reframed_zero, header_eq_iff_fields]
    simp only [reframed_framing, reframed_reserved, hdrDec_reframed, true_and]

end Sys2Proof.Machine

namespace Sys2Proof.Machine

/-! ### The inputs that are no command (41_fragmentation.md R119, 20_memory.md R50, R52) -/

theorem step_of_no_inputs {s : State} (h : s.inputs = []) : step s = .next s := by
  simp only [step, h]

/-- A byte of TXB that exists is written (20_memory.md R52). -/
theorem runHostWrite_of_lt {a : Nat} (b : Byte) (s : State) (h : a < Config.mfe.maxMsg) :
    runHostWrite a b s = .next (hostWriteTxb a b s) := if_pos h

/-- There is no byte of TXB at or beyond `MAX_MSG` (20_memory.md R50; log 7). -/
theorem runHostWrite_of_le {a : Nat} (b : Byte) (s : State) (h : Config.mfe.maxMsg ≤ a) :
    runHostWrite a b s = .fault .txbAddress := if_neg (Nat.not_lt.2 h)

/-- Settles O6: one clause for each input that is no command, and one for none. -/
theorem idleStepsMisplacedInputsAndHostWrites : Obligations.IdleStepsMisplacedInputsAndHostWrites := by
  refine ⟨fun s h => step_of_no_inputs h, fun s ok rest hi hb => ?_, fun s a b rest hi ha => ?_,
    fun s a b rest hi ha => ?_⟩
  · rw [step_of_inputs hi]
    exact runConfirm_of_idle (s := s.setInputs rest) ok hb
  · refine ⟨s.txb.write a b, ?_, fun k => Memory.read_write ..⟩
    rw [step_of_inputs hi]
    exact runHostWrite_of_lt b _ ha
  · rw [step_of_inputs hi]
    exact runHostWrite_of_le b _ ha

/-! ### SEND: acceptance and refusal (41_fragmentation.md R111, R118, R122) -/

/-- The two acknowledge flags lie in the reserved bits 29:27, which are packed 0 (30_encoding.md R72). -/
theorem hdrEnc_getLsbD_reserved (c : Config) (id count idx dest src : BitVec 8) {i : Nat} (hi : i < 3) :
    (hdrEnc c id count idx dest src).getLsbD (27 + i) = false := by
  have h := congrArg (·.getLsbD i) (hdrEnc_reserved c id count idx dest src)
  simpa [hi] using h

/-- Settles O22: the meaning of `SEND` does not look at `noack`, and both flags are reserved bits. -/
theorem noAckOperandIsIgnored : Obligations.NoAckOperandIsIgnored :=
  ⟨fun _ _ _ => rfl, fun c id count idx dest src =>
    ⟨hdrEnc_getLsbD_reserved c id count idx dest src (i := 0) (by decide),
      hdrEnc_getLsbD_reserved c id count idx dest src (i := 1) (by decide)⟩⟩

/-- Settles O16: busy is tested first, then the length. -/
theorem sendIsAcceptedExactlyForLegalLengths : Obligations.SendIsAcceptedExactlyForLegalLengths := by
  intro dest len noack s
  refine ⟨exec_of_busy _, exec_send_of_idle_illegal dest len noack, fun hb h1 h2 => ?_⟩
  exact ⟨_, exec_send_of_idle_legal dest len noack hb h1 h2, rfl, rfl⟩

/-- A legal length fits the seven bits of `tx.len` (10_state.md R32). -/
theorem toNat_setWidth_of_legal {c : Config} {len : BitVec 8} (h : len.toNat ≤ c.maxMsg) :
    (len.setWidth 7).toNat = len.toNat := by
  have hmax : c.maxMsg ≤ 15 * 8 := c.maxMsg_le
  rw [BitVec.toNat_setWidth, Nat.mod_eq_of_lt (by omega)]

/-- The number of fragments of a legal message fits the four bits of `tx.count` (10_state.md R32). -/
theorem toNat_ofNat_fragCount {c : Config} {len : Nat} (h1 : 1 ≤ len) (h2 : len ≤ c.maxMsg) :
    (BitVec.ofNat 4 (fragCount len)).toNat = fragCount len := by
  obtain ⟨-, hle, -⟩ := fragCount_bounds h1 h2
  rw [BitVec.toNat_ofNat, Nat.mod_eq_of_lt (by omega)]

/-- The frames of the message that the sequencer holds, by index (41_fragmentation.md R121). -/
def State.frames (c : Config) (s : State) : Nat → RawFrame :=
  fragment c s.tx.id s.tx.dest s.nodeAddr s.tx.latch s.tx.len.toNat

/-- The frame now offered is the message's fragment at `tx.idx` (41_fragmentation.md R115). -/
theorem offered_eq_frames {c : Config} {s : State} (h : s.tx.count.toNat = fragCount s.tx.len.toNat) :
    offered c s = s.frames c s.tx.idx.toNat := by
  simp only [offered, State.frames, fragment, ← h, BitVec.ofNat_toNat]

/-- What the sequencer latches on acceptance (41_fragmentation.md R118): the first bytes of TXB over what TXL held. -/
def State.latched (s : State) (len : BitVec 8) : Memory := s.tx.latch.writeN 0 (s.txb.readN 0 len.toNat)

/-- The frames of a legal `SEND` that is accepted now (41_fragmentation.md R112, R121). `sendAccept_frames` ties them to
the accepting step. -/
def State.framesToSend (c : Config) (dest len : BitVec 8) (s : State) : Nat → RawFrame :=
  fragment c (s.msgIdCtr + 1) dest s.nodeAddr (s.latched len) len.toNat

/-- The whole next state of an accepted `SEND` (41_fragmentation.md R118). -/
theorem sendAccept_eq {c : Config} (dest : BitVec 8) {len : BitVec 8} (s : State) (h1 : 1 ≤ len.toNat)
    (h2 : len.toNat ≤ c.maxMsg) :
    sendAccept c dest len s = { s with
      msgIdCtr := s.msgIdCtr + 1
      tx := ⟨true, dest, s.msgIdCtr + 1, BitVec.ofNat 4 (fragCount len.toNat), 0, len.setWidth 7, s.latched len⟩
      port := s.port ++ [.rawSend (s.framesToSend c dest len 0)] } := by
  have hlen := toNat_setWidth_of_legal h2
  have hcount := toNat_ofNat_fragCount h1 h2
  rw [sendAccept, offer, offered_eq_frames (by simp only [State.setTx_tx, hcount, hlen])]
  simp only [State.frames, State.setTx_tx, hlen]
  rfl

theorem sendAccept_frames {c : Config} (dest : BitVec 8) {len : BitVec 8} (s : State) (h : len.toNat ≤ c.maxMsg) :
    (sendAccept c dest len s).frames c = s.framesToSend c dest len :=
  congrArg (fragment c (s.msgIdCtr + 1) dest s.nodeAddr (s.latched len)) (toNat_setWidth_of_legal h)

/-- The frames carry the bytes that TXB holds at acceptance (41_fragmentation.md R118). -/
theorem framesToSend_eq (c : Config) (dest len : BitVec 8) (s : State) {k : Nat} (hk : k < fragCount len.toNat) :
    s.framesToSend c dest len k =
      .ofBytes (hdrEnc c ((s.msgIdCtr + 1).setWidth 8) (BitVec.ofNat 8 (fragCount len.toNat)) (BitVec.ofNat 8 k) dest
        s.nodeAddr) (s.txb.readN (8 * k) (chunkLen len.toNat k)) := by
  rw [State.framesToSend, fragment, chunkOff_eq, State.latched, Memory.readN_copy _ _ _ _ _ (chunkLen_le hk).2]

/-- Settles O17: the accepted state, with fragment 0 read from TXB; the two refusals. -/
theorem sendAcceptLatchesAndOffersFragmentZero : Obligations.SendAcceptLatchesAndOffersFragmentZero := by
  intro dest len noack s
  refine ⟨fun hb h1 h2 => ⟨s.latched len, ?_, fun a => Memory.read_copy ..⟩, fun h => ?_⟩
  · obtain ⟨hpos, -⟩ := fragCount_bounds h1 h2
    rw [exec_send_of_idle_legal dest len noack hb h1 h2, sendAccept_eq dest s h1 h2, framesToSend_eq _ _ _ _ hpos,
      chunkLen_zero, fragCount_eq]
    rfl
  · cases hb : s.tx.busy with
    | true => exact exec_of_busy _ hb
    | false => exact exec_send_of_idle_illegal dest len noack hb (by simpa [hb] using h)

/-! ### The driver's answer to the offered frame (41_fragmentation.md R119) -/

theorem step_of_txConfirm {s : State} {ok : Bool} {rest : List Input} (hi : s.inputs = .txConfirm ok :: rest)
    (hb : s.tx.busy = true) : step s = .next (txConfirm Config.mfe ok (s.setInputs rest)) := by
  rw [step_of_inputs hi]
  exact runConfirm_of_busy (s := s.setInputs rest) ok hb

/-- The index of a fragment that is not the last does not wrap. -/
theorem toNat_idx_succ {t : Tx} (h : t.idx.toNat + 1 < t.count.toNat) : (t.idx + 1).toNat = t.idx.toNat + 1 := by
  have := t.count.isLt
  rw [BitVec.toNat_add]
  exact Nat.mod_eq_of_lt (show t.idx.toNat + 1 < 2 ^ 4 by omega)

/-- The sequencer that offers the next fragment (41_fragmentation.md R119). -/
def Tx.next (t : Tx) : Tx := { t with idx := t.idx + 1 }

/-! The whole next state of each answer. -/

section
variable {s : State} {rest : List Input}

theorem step_txConfirm_false (hi : s.inputs = .txConfirm false :: rest) (hb : s.tx.busy = true) :
    step s = .next { s with
      inputs := rest
      tx := s.tx.ended
      port := s.port ++ [.sendAnswer false]
      results := s.results ++ [resultOf .sendFail (n := s.tx.idx.setWidth 8)] } :=
  step_of_txConfirm hi hb

theorem step_txConfirm_true_last (hi : s.inputs = .txConfirm true :: rest) (hb : s.tx.busy = true)
    (hlast : s.tx.idx.toNat + 1 = s.tx.count.toNat) :
    step s = .next { s with
      inputs := rest
      tx := s.tx.ended
      port := s.port ++ [.sendAnswer true]
      results := s.results ++ [resultOf .ok (n := s.tx.count.setWidth 8)] } := by
  rw [step_of_txConfirm hi hb, txConfirm_true_last (s := s.setInputs rest) _ hlast]
  rfl

theorem step_txConfirm_true_more (hi : s.inputs = .txConfirm true :: rest) (hb : s.tx.busy = true)
    (hmore : s.tx.idx.toNat + 1 < s.tx.count.toNat) :
    step s = .next { s with
      inputs := rest
      tx := s.tx.next
      port := s.port ++ [.sendAnswer true, .rawSend (offered Config.mfe (s.setTx s.tx.next))] } := by
  rw [step_of_txConfirm hi hb, txConfirm_true_more (s := s.setInputs rest) _ (Nat.ne_of_lt hmore), offer, State.addPort,
    State.setTx_port, State.addPort_port, List.append_assoc]
  rfl

end

/-- Settles O18: the driver refuses the frame, takes the last one, or takes one that is not the last. -/
theorem txConfirmAdvancesOrEndsTheSend : Obligations.TxConfirmAdvancesOrEndsTheSend := by
  intro s ok rest hi hb
  refine ⟨?_, ?_, ?_⟩
  · rintro rfl
    exact ⟨s.tx.ended, rfl, step_txConfirm_false hi hb⟩
  · rintro rfl hlast
    exact ⟨s.tx.ended, rfl, step_txConfirm_true_last hi hb hlast⟩
  · rintro rfl hmore
    rw [step_txConfirm_true_more hi hb hmore, ← toNat_idx_succ hmore, BitVec.ofNat_toNat, ← chunkOff_eq]
    rfl

/-! ### The driver's answers to one message (41_fragmentation.md R116) -/

theorem completeAnswers_zero {answers : List Bool} : completeAnswers 0 answers ↔ answers = [] := by
  simp [completeAnswers]

theorem not_completeAnswers_nil {n : Nat} : ¬ completeAnswers (n + 1) [] := by
  simp [completeAnswers, List.replicate_succ]

/-- A refusal is the last answer. -/
theorem completeAnswers_false_cons {n : Nat} {answers : List Bool} :
    completeAnswers (n + 1) (false :: answers) ↔ answers = [] := by
  constructor
  · rintro (h | ⟨k, -, h⟩)
    · simp [List.replicate_succ] at h
    · cases k with
      | zero => simpa using h
      | succ k => simp [List.replicate_succ] at h
  · rintro rfl
    exact .inr ⟨0, by omega, rfl⟩

/-- After an accepted frame the rest of the message is answered. -/
theorem completeAnswers_true_cons {n : Nat} {answers : List Bool} :
    completeAnswers (n + 1) (true :: answers) ↔ completeAnswers n answers := by
  constructor
  · rintro (h | ⟨k, hk, h⟩)
    · exact .inl (by simpa [List.replicate_succ] using h)
    · cases k with
      | zero => simp at h
      | succ k => exact .inr ⟨k, by omega, by simpa [List.replicate_succ] using h⟩
  · rintro (rfl | ⟨k, hk, rfl⟩)
    · exact .inl rfl
    · exact .inr ⟨k + 1, by omega, rfl⟩

theorem completeAnswers_length_le {n : Nat} {answers : List Bool} (h : completeAnswers n answers) :
    answers.length ≤ n := by
  obtain rfl | ⟨k, hk, rfl⟩ := h
  · simp
  · simpa using hk

/-! ### The step form and the loop of the atomic form (41_fragmentation.md R110, R120) -/

/-- A send in flight that has offered a fragment and has `left` more to offer: what an accepted `SEND` sets up
(`sendAccept_offering`) and an accepted frame keeps (`Tx.Offering.next`). -/
structure Tx.Offering (left : Nat) (t : Tx) : Prop where
  busy : t.busy = true
  count_eq : t.count.toNat = fragCount t.len.toNat
  left_eq : t.idx.toNat + 1 + left = t.count.toNat

theorem Tx.Offering.next {left : Nat} {t : Tx} (h : t.Offering (left + 1)) : t.next.Offering left := by
  obtain ⟨hbusy, hcount, hleft⟩ := h
  refine ⟨hbusy, hcount, ?_⟩
  show (t.idx + 1).toNat + 1 + left = t.count.toNat
  rw [toNat_idx_succ (by omega)]
  omega

theorem sendAccept_offering {c : Config} (dest : BitVec 8) {len : BitVec 8} (s : State) (h1 : 1 ≤ len.toNat)
    (h2 : len.toNat ≤ c.maxMsg) : (sendAccept c dest len s).tx.Offering (fragCount len.toNat - 1) := by
  obtain ⟨hpos, -⟩ := fragCount_bounds h1 h2
  have hcount := toNat_ofNat_fragCount h1 h2
  rw [sendAccept_eq dest s h1 h2]
  refine ⟨rfl, ?_, ?_⟩
  · rw [toNat_setWidth_of_legal h2, hcount]
  · show 0 + 1 + _ = _
    rw [hcount]
    omega

theorem sendLoop_false_cons (frame : Nat → RawFrame) (left idx : Nat) (answers : List Bool) :
    sendLoop frame (left + 1) idx (false :: answers) =
      ([.rawSend (frame idx), .sendAnswer false], some (.sendFail, idx)) := rfl

theorem sendLoop_true_cons (frame : Nat → RawFrame) (left idx : Nat) (answers : List Bool) :
    sendLoop frame (left + 1) idx (true :: answers) =
      (.rawSend (frame idx) :: .sendAnswer true :: (sendLoop frame left (idx + 1) answers).1,
        (sendLoop frame left (idx + 1) answers).2) := rfl

/-- The steps that take the driver's answers to a send in flight leave what the loop of the atomic form says of the
fragments from the offered one on. -/
theorem run_answers {left : Nat} {answers : List Bool} {rest : List Input} {p : List PortEvent} {s : State}
    (ho : s.tx.Offering left) (ha : completeAnswers (left + 1) answers)
    (hi : s.inputs = answers.map .txConfirm ++ rest)
    (hp : s.port = p ++ [.rawSend (s.frames Config.mfe s.tx.idx.toNat)]) :
    ∃ st n tx, (sendLoop (s.frames Config.mfe) (left + 1) s.tx.idx.toNat answers).2 = some (st, n) ∧
      tx.busy = false ∧
      Sys2Proof.core.run answers.length s = .next { s with
        inputs := rest
        tx := tx
        port := p ++ (sendLoop (s.frames Config.mfe) (left + 1) s.tx.idx.toNat answers).1
        results := s.results ++ [resultOf st (n := BitVec.ofNat 8 n)] } := by
  induction answers generalizing left p s with
  | nil => exact absurd ha not_completeAnswers_nil
  | cons ok answers ih =>
    have hport (l : List PortEvent) : p ++ (.rawSend (s.frames Config.mfe s.tx.idx.toNat) :: l) = s.port ++ l := by
      rw [hp, List.append_assoc]
      rfl
    cases ok with
    | false =>
      obtain rfl := completeAnswers_false_cons.1 ha
      refine ⟨.sendFail, s.tx.idx.toNat, s.tx.ended, rfl, rfl, ?_⟩
      rw [List.length_cons, run_succ_of_step _ (step_txConfirm_false hi ho.busy), sendLoop_false_cons, hport,
        BitVec.ofNat_toNat]
      rfl
    | true =>
      have hcount := ho.left_eq
      rw [List.length_cons, sendLoop_true_cons, hport]
      rw [completeAnswers_true_cons] at ha
      cases left with
      | zero =>
        obtain rfl := completeAnswers_zero.1 ha
        refine ⟨.ok, s.tx.idx.toNat + 1, s.tx.ended, rfl, rfl, ?_⟩
        rw [run_succ_of_step _ (step_txConfirm_true_last hi ho.busy hcount), hcount, BitVec.ofNat_toNat]
        rfl
      | succ left =>
        have hmore : s.tx.idx.toNat + 1 < s.tx.count.toNat := by omega
        rw [run_succ_of_step _ (step_txConfirm_true_more hi ho.busy hmore), ← toNat_idx_succ hmore]
        have hoffered : offered Config.mfe (s.setTx s.tx.next) = s.frames Config.mfe (s.tx.idx + 1).toNat :=
          offered_eq_frames ho.count_eq
        obtain ⟨st, n, tx, hend, hbusy, hrun⟩ := ih (p := s.port ++ [.sendAnswer true]) (s := { s with
          inputs := answers.map .txConfirm ++ rest
          tx := s.tx.next
          port := s.port ++ [.sendAnswer true, .rawSend (offered Config.mfe (s.setTx s.tx.next))] })
          ho.next ha rfl (by rw [hoffered, List.append_assoc]; rfl)
        refine ⟨st, n, tx, hend, hbusy, hrun.trans ?_⟩
        rw [List.append_assoc]
        rfl

/-- What the loop of the atomic form puts out and how it ends, when the driver's answers are complete
(41_fragmentation.md R116, R117). -/
theorem sendLoop_of_complete (frame : Nat → RawFrame) {left : Nat} {answers : List Bool} (idx : Nat)
    (ha : completeAnswers left answers) :
    sendLoop frame left idx answers =
      ((List.range answers.length).flatMap fun k =>
          [.rawSend (frame (idx + k)), .sendAnswer (answers.getD k false)],
        some (if answers.all id then (.ok, idx + left) else (.sendFail, idx + answers.length - 1))) := by
  induction answers generalizing left idx with
  | nil =>
    cases left with
    | zero => rfl
    | succ left => exact absurd ha not_completeAnswers_nil
  | cons ok answers ih =>
    cases left with
    | zero => exact absurd (completeAnswers_zero.1 ha) (List.cons_ne_nil _ _)
    | succ left =>
      cases ok with
      | false =>
        obtain rfl := completeAnswers_false_cons.1 ha
        rfl
      | true =>
        rw [sendLoop_true_cons, ih (idx + 1) (completeAnswers_true_cons.1 ha), List.length_cons,
          List.range_succ_eq_map, List.flatMap_cons, List.flatMap_map]
        simp only [List.getD_cons_succ, List.all_cons, id, Bool.true_and, Nat.succ_eq_add_one,
          Nat.add_right_comm idx 1, Nat.add_assoc]
        rfl

/-! ### A whole send (41_fragmentation.md R120, R121) -/

section
variable {s : State} {dest len : BitVec 8} {noack : Bool} {answers : List Bool} {rest : List Input}

/-- The step that accepts a legal `SEND`. -/
theorem step_send_of_idle (hb : s.tx.busy = false) (h1 : 1 ≤ len.toNat) (h2 : len.toNat ≤ Config.mfe.maxMsg)
    (hi : s.inputs = .command (encode (.send dest len noack)) :: rest) :
    step s = .next (sendAccept Config.mfe dest len (s.setInputs rest)) := by
  rw [step_of_command hi (decode_encode (.send dest len noack))]
  exact exec_send_of_idle_legal (s := s.setInputs rest) dest len noack hb h1 h2

/-- The steps of a whole send, with the transactions and the end that the loop of the atomic form gives. -/
theorem run_send (hb : s.tx.busy = false) (h1 : 1 ≤ len.toNat) (h2 : len.toNat ≤ Config.mfe.maxMsg)
    (ha : completeAnswers (fragCount len.toNat) answers)
    (hi : s.inputs = .command (encode (.send dest len noack)) :: (answers.map .txConfirm ++ rest)) :
    ∃ st n tx, (sendLoop (s.framesToSend Config.mfe dest len) (fragCount len.toNat) 0 answers).2 = some (st, n) ∧
      tx.busy = false ∧
      Sys2Proof.core.run (answers.length + 1) s = .next { s with
        msgIdCtr := s.msgIdCtr + 1
        inputs := rest
        tx := tx
        port := s.port ++ (sendLoop (s.framesToSend Config.mfe dest len) (fragCount len.toNat) 0 answers).1
        results := s.results ++ [resultOf st (n := BitVec.ofNat 8 n)] } := by
  obtain ⟨hpos, -⟩ := fragCount_bounds h1 h2
  have hcount : fragCount len.toNat - 1 + 1 = fragCount len.toNat := Nat.sub_add_cancel hpos
  let u := s.setInputs (answers.map .txConfirm ++ rest)
  have hframes := sendAccept_frames dest u h2
  have hport := congrArg State.port (sendAccept_eq dest u h1 h2)
  rw [← hframes] at hport
  obtain ⟨st, n, tx, hend, hbusy, hrun⟩ :=
    run_answers (sendAccept_offering dest u h1 h2) (hcount ▸ ha) rfl hport
  rw [hframes, hcount] at hend hrun
  rw [run_succ_of_step _ (step_send_of_idle hb h1 h2 hi)]
  exact ⟨st, n, tx, hend, hbusy, hrun⟩

/-- The atomic form when the driver has answered every frame it was offered (41_fragmentation.md R110). -/
theorem sendAtomic_of_idle_legal (c : Config) (hb : s.tx.busy = false) (h1 : 1 ≤ len.toNat)
    (h2 : len.toNat ≤ c.maxMsg) {st : Status} {n : Nat}
    (hend : (sendLoop (s.framesToSend c dest len) (fragCount len.toNat) 0 answers).2 = some (st, n)) :
    sendAtomic c dest len answers s = { s with
      msgIdCtr := s.msgIdCtr + 1
      tx := { s.tx with latch := s.latched len, busy := false }
      port := s.port ++ (sendLoop (s.framesToSend c dest len) (fragCount len.toNat) 0 answers).1
      results := s.results ++ [resultOf st (n := BitVec.ofNat 8 n)] } := by
  rw [State.framesToSend, State.latched] at hend
  have hlegal : ¬ (len.toNat = 0 ∨ c.maxMsg < len.toNat) := by omega
  simp only [sendAtomic, gate_of_idle _ hb, if_neg hlegal, hend]
  rfl

end

/-- Settles O20: both forms end as the loop of the atomic form does. -/
theorem sendStepFormAgreesWithAtomicForm : Obligations.SendStepFormAgreesWithAtomicForm := by
  intro s dest len noack answers rest hb h1 h2 ha hi
  obtain ⟨st, n, tx, hend, hbusy, hrun⟩ := run_send hb h1 h2 ha hi
  rw [sendAtomic_of_idle_legal (s := { s with inputs := rest }) Config.mfe hb h1 h2 hend]
  exact ⟨_, hrun, hbusy, rfl⟩

/-- Settles O21: the transactions are those of the loop, with the latched bytes read from TXB. -/
theorem sendOffersItsWireImage : Obligations.SendOffersItsWireImage := by
  intro s dest len noack answers rest hb h1 h2 ha hi
  obtain ⟨st, n, tx, hend, hbusy, hrun⟩ := run_send hb h1 h2 ha hi
  rw [sendLoop_of_complete _ _ ha] at hend hrun
  refine ⟨_, hrun, ?_, ?_, rfl, hbusy, rfl, rfl, rfl, rfl, rfl, rfl⟩
  · refine congrArg (s.port ++ ·) (List.flatMap_congr fun k hk => ?_)
    have hlt : k < fragCount len.toNat := (List.mem_range.1 hk).trans_le (completeAnswers_length_le ha)
    rw [Nat.zero_add, framesToSend_eq _ _ _ _ hlt]
  · refine congrArg (fun r => s.results ++ [r]) ?_
    by_cases hall : answers.all id = true
    · rw [if_pos hall] at hend
      cases hend
      rw [if_pos hall, Nat.zero_add]
      rfl
    · rw [if_neg hall] at hend
      cases hend
      rw [if_neg hall, Nat.zero_add]
      rfl

end Sys2Proof.Machine

namespace Sys2Proof.Machine

/-! ### The slot functions of a round, in numbers (42_reassembly.md R132, R134, R136, R138) -/

section
variable {x : Slot} {f : HeaderFields} {count : BitVec 4} {data : List Byte}

/-- No 5-bit expected index that a frame can ask for, or that a count can equal, wraps when it advances. -/
theorem Slot.toNat_advance_nextIdx (h : x.nextIdx.toNat ≤ 15) :
    (x.advance count data).nextIdx.toNat = x.nextIdx.toNat + 1 := by
  rw [Slot.advance_nextIdx, BitVec.toNat_add]
  exact Nat.mod_eq_of_lt (show x.nextIdx.toNat + 1 < 2 ^ 5 by omega)

/-- A length that fits `MAX_MSG` fits the 7 bits of `len`. -/
theorem Slot.toNat_advance_len {c : Config} (h : x.len.toNat + data.length ≤ c.maxMsg) :
    (x.advance count data).len.toNat = x.len.toNat + data.length := by
  have hmax : c.maxMsg ≤ 15 * 8 := c.maxMsg_le
  rw [Slot.advance_len, BitVec.toNat_add, BitVec.toNat_ofNat]
  omega

/-- Completion is by the count of the very frame that advances the slot (42_reassembly.md R137). -/
theorem Slot.advance_ready_iff (hr : x.ready = false) (h : x.nextIdx.toNat ≤ 15) :
    (x.advance count data).ready = true ↔ x.nextIdx.toNat + 1 = count.toNat := by
  rw [← toNat_advance_nextIdx (count := count) (data := data) h, Slot.advance_ready, hr, Bool.false_or, beq_iff_eq,
    ← BitVec.toNat_inj, BitVec.toNat_setWidth_of_le (by decide), Slot.advance_nextIdx]

/-- A slot matches when it is FILLING, for the frame's message, and expects the frame's index. -/
theorem Slot.matches_iff_toNat : x.matches f = true ↔
    x.isFilling = true ∧ x.src = f.src ∧ x.msgId = f.id ∧ x.nextIdx.toNat = f.idx.toNat := by
  rw [Slot.matches_iff, ← BitVec.toNat_inj (x := x.nextIdx), BitVec.toNat_setWidth_of_le (by decide)]

theorem Slot.isFree_of_unlocked (h : x.locked = false) : x.isFree = true := by
  rw [Slot.isFree, h]
  rfl

theorem Slot.isFree_of_locked (h : x.locked = true) : x.isFree = false := by
  rw [Slot.isFree, h]
  rfl

theorem Slot.nextIdx_le_of_matches (h : x.matches f = true) : x.nextIdx.toNat ≤ 15 := by
  obtain ⟨-, -, -, hidx⟩ := Slot.matches_iff_toNat.1 h
  have := f.idx.isLt
  omega

theorem Slot.toNat_advance_nextIdx_claim : ((x.claim f).advance count data).nextIdx.toNat = 1 :=
  toNat_advance_nextIdx (x := x.claim f) (Nat.zero_le 15)

theorem Slot.advance_claim_ready_iff : ((x.claim f).advance count data).ready = true ↔ count = 1 := by
  rw [advance_ready_iff (x := x.claim f) rfl (Nat.zero_le 15), ← BitVec.toNat_inj, eq_comm]
  rfl

end

/-! ### What a round does to one slot -/

/-- What the round of frame `f` does to slot `j`, which was `x`: it ages it, or the slot takes the frame for one of
three reasons. `rxFrame_slot` ties it to the round. -/
inductive RoundStep (c : Config) (f : RawFrame) (pool : List Slot) (j : Nat) (x : Slot) : Slot → Prop
  | ages : RoundStep c f pool j x x.aged
  | claims (zero : (hdrDec f.h).idx = 0) (fits : f.dlc.toNat ≤ 8) (first : IsFirst Slot.isFree pool j x) :
      RoundStep c f pool j x ((x.claim (hdrDec f.h)).advance (hdrDec f.h).count f.data)
  | evicts (zero : (hdrDec f.h).idx = 0) (fits : f.dlc.toNat ≤ 8) (full : firstSlot Slot.isFree pool = none)
      (oldest : evictCandidate pool = some j) :
      RoundStep c f pool j x ((x.claim (hdrDec f.h)).advance (hdrDec f.h).count f.data)
  | continues (nonzero : (hdrDec f.h).idx ≠ 0) (fits : f.dlc.toNat ≤ 8)
      (first : IsFirst (Slot.matches (hdrDec f.h)) pool j x) (room : x.len.toNat + f.dlc.toNat ≤ c.maxMsg) :
      RoundStep c f pool j x (x.advance (hdrDec f.h).count f.data)

theorem isFirst_of_firstSlot {p : Slot → Bool} {pool : List Slot} {i : Nat} {x : Slot} (h : firstSlot p pool = some i)
    (hx : pool[i]? = some x) : IsFirst p pool i x := by
  obtain ⟨y, hy, hp, hlow⟩ := firstSlot_eq_some.1 h
  obtain rfl : x = y := Option.some.inj (hx.symm.trans hy)
  exact ⟨hx, hp, hlow⟩

theorem firstSlot_of_isFirst {p : Slot → Bool} {pool : List Slot} {i : Nat} {x : Slot} (h : IsFirst p pool i x) :
    firstSlot p pool = some i := firstSlot_eq_some.2 ⟨x, h⟩

/-- The allocator finds no slot exactly when every slot is locked (42_reassembly.md R132, R133). -/
theorem firstSlot_isFree_eq_none {pool : List Slot} :
    firstSlot Slot.isFree pool = none ↔ ∀ x ∈ pool, x.locked = true := by
  simp only [firstSlot_eq_none, Slot.isFree, Bool.not_eq_false']

theorem length_rxFrame (c : Config) (f : RawFrame) (pool : List Slot) :
    (rxFrame c f pool).pool.length = pool.length := by
  cases h : select c f pool with
  | drop st => rw [rxFrame_drop h, length_ageOthers]
  | take i p ev => exact (rxFrame_take h).2.1

/-- A slot that the round does not select ages (42_reassembly.md R138). -/
theorem rxFrame_unselected {c : Config} {f : RawFrame} {pool : List Slot} {j : Nat}
    (h : ∀ p ev, select c f pool ≠ .take j p ev) : (rxFrame c f pool).pool[j]? = (pool[j]?).map Slot.aged := by
  cases hs : select c f pool with
  | drop st =>
    rw [rxFrame_drop hs, getElem?_ageOthers]
    rfl
  | take i p ev =>
    have hj : j ≠ i := fun hj => h p ev (hj ▸ hs)
    obtain ⟨-, -, hslots, -⟩ := rxFrame_take hs
    rw [hslots]
    exact congrArg (Option.map · _) (funext fun x => if_neg hj)

/-- The slot that a round selects takes the frame, a fragment 0 into an emptied slot (42_reassembly.md R132, R136). -/
theorem rxFrame_selected {c : Config} {f : RawFrame} {pool p : List Slot} {i : Nat} {ev : Bool} {x : Slot}
    (h : select c f pool = .take i p ev) (hx : pool[i]? = some x) :
    (rxFrame c f pool).pool[i]? = some
      ((if (hdrDec f.h).idx = 0 then x.claim (hdrDec f.h) else x).advance (hdrDec f.h).count f.data) := by
  obtain ⟨-, -, hslots, -⟩ := rxFrame_take h
  rw [hslots, hx, Option.map_some, slotAfter, if_pos rfl]

/-- Every slot takes one of the steps of a round, for its reason. -/
theorem rxFrame_slot (c : Config) (f : RawFrame) {pool : List Slot} {j : Nat} {x : Slot} (hx : pool[j]? = some x) :
    ∃ y, (rxFrame c f pool).pool[j]? = some y ∧ RoundStep c f pool j x y := by
  by_cases hsel : ∃ p ev, select c f pool = .take j p ev
  · obtain ⟨p, ev, hsel⟩ := hsel
    refine ⟨_, rxFrame_selected hsel hx, ?_⟩
    obtain ⟨hd, z, hz, h⟩ := select_take hsel
    obtain rfl : z = x := Option.some.inj (hz.symm.trans hx)
    obtain ⟨h0, -, hf, -⟩ | ⟨h0, -, hn, hv, -⟩ | ⟨h0, -, hm, hroom, -⟩ := h
    · rw [if_pos h0]
      exact .claims h0 hd (isFirst_of_firstSlot hf hx)
    · rw [if_pos h0]
      exact .evicts h0 hd hn hv
    · rw [if_neg h0]
      exact .continues h0 hd (isFirst_of_firstSlot hm hx) hroom
  · exact ⟨x.aged, by rw [rxFrame_unselected fun p ev h => hsel ⟨p, ev, h⟩, hx, Option.map_some], .ages⟩

/-- A slot after a round was a slot before it. -/
theorem exists_roundStep {c : Config} {f : RawFrame} {pool : List Slot} {j : Nat} {y : Slot}
    (hy : (rxFrame c f pool).pool[j]? = some y) : ∃ x, pool[j]? = some x ∧ RoundStep c f pool j x y := by
  cases hx : pool[j]? with
  | none =>
    have hlen := List.getElem?_eq_none_iff.1 hx
    rw [List.getElem?_eq_none (by rwa [length_rxFrame])] at hy
    cases hy
  | some x =>
    obtain ⟨z, hz, hstep⟩ := rxFrame_slot c f hx
    exact ⟨x, rfl, Option.some.inj (hz.symm.trans hy) ▸ hstep⟩

/-! ### Every operation on a slot keeps its invariant (10_state.md R24, 42_reassembly.md R149) -/

theorem Memory.Sized.writeN {c : Config} {m : Memory} (h : m.Sized c) {a : Nat} {l : List Byte}
    (hl : a + l.length ≤ c.maxMsg) : (m.writeN a l).Sized c :=
  ⟨Memory.wf_writeN _ _ _ h.canonical, Memory.within_writeN _ _ _ _ h.inside hl⟩

namespace Slot.Inv

variable {c : Config} {x : Slot}

theorem clean (h : x.Inv c) : x.clean.Inv c where
  locked_of_ready := fun hr => absurd hr Bool.false_ne_true
  zero_of_unlocked := fun _ => ⟨rfl, rfl, rfl, rfl, rfl, rfl⟩
  len_le_max := Nat.zero_le _
  len_le_chunks := Nat.zero_le _
  next_le := Nat.zero_le _
  next_pos := fun hl => absurd hl Bool.false_ne_true
  next_of_ready := fun hr => absurd hr Bool.false_ne_true
  buffer := h.buffer

theorem aged (h : x.Inv c) : x.aged.Inv c := by
  cases hf : x.isFilling with
  | false => rwa [Slot.aged_of_not_isFilling _ hf]
  | true =>
    obtain ⟨hl, hr⟩ := x.isFilling_iff.1 hf
    rw [Slot.aged_of_isFilling _ hf]
    exact { h with
      zero_of_unlocked := fun hl' => absurd (hl'.symm.trans hl) Bool.false_ne_true
      next_of_ready := fun hr' => absurd (hr.symm.trans hr') Bool.false_ne_true }

/-- A locked slot that is not READY, with room for the frame's bytes and an expected index below 16, may advance. The
invariant before is needed of its length and buffer only, so that a slot just claimed, whose expected index is 0, may
too. -/
theorem advance {count : BitVec 4} {data : List Byte} (hl : x.locked = true) (hr : x.ready = false)
    (hn : x.nextIdx.toNat ≤ 15) (hchunks : x.len.toNat ≤ x.nextIdx.toNat * 8) (hb : x.buf.Sized c)
    (hd : data.length ≤ 8) (hroom : x.len.toNat + data.length ≤ c.maxMsg) : (x.advance count data).Inv c where
  locked_of_ready := fun _ => hl
  zero_of_unlocked := fun hl' => absurd (hl'.symm.trans hl) Bool.false_ne_true
  len_le_max := by rwa [Slot.toNat_advance_len hroom]
  len_le_chunks := by
    rw [Slot.toNat_advance_len hroom, Slot.toNat_advance_nextIdx hn, Config.chunk]
    omega
  next_le := by
    rw [Slot.toNat_advance_nextIdx hn]
    omega
  next_pos := by
    rw [Slot.toNat_advance_nextIdx hn]
    omega
  next_of_ready := fun hr' => by
    rw [Slot.toNat_advance_nextIdx hn, (Slot.advance_ready_iff hr hn).1 hr']
    exact ⟨Nat.le_of_lt_succ count.isLt, rfl⟩
  buffer := hb.writeN hroom

theorem advance_claim {hdr : HeaderFields} {count : BitVec 4} {data : List Byte} (h : x.Inv c) (hd : data.length ≤ 8) :
    ((x.claim hdr).advance count data).Inv c := by
  have hchunk : 8 ≤ c.maxMsg := c.chunk_le_maxMsg
  refine advance rfl rfl (Nat.zero_le _) (Nat.zero_le _) h.buffer hd ?_
  show 0 + data.length ≤ c.maxMsg
  omega

theorem roundStep {f : RawFrame} {pool : List Slot} {j : Nat} {y : Slot} (h : x.Inv c)
    (hstep : RoundStep c f pool j x y) : y.Inv c := by
  cases hstep with
  | ages => exact h.aged
  | claims _ fits _ => exact h.advance_claim fits
  | evicts _ fits _ _ => exact h.advance_claim fits
  | continues _ fits first room =>
    obtain ⟨-, hm, -⟩ := first
    obtain ⟨hl, hr⟩ := x.isFilling_iff.1 (x.matches_iff _ |>.1 hm).1
    exact advance hl hr (Slot.nextIdx_le_of_matches hm) h.len_le_chunks h.buffer fits room

end Slot.Inv

theorem rxFrame_inv {c : Config} {f : RawFrame} {pool : List Slot} (h : ∀ x ∈ pool, x.Inv c) :
    ∀ y ∈ (rxFrame c f pool).pool, y.Inv c := by
  intro y hy
  obtain ⟨j, hj⟩ := List.getElem?_of_mem hy
  obtain ⟨x, hx, hstep⟩ := exists_roundStep hj
  exact (h x (List.mem_of_getElem? hx)).roundStep hstep

/-- What draining leaves of the pool, and that the message comes from a slot of it. -/
theorem drain_inv {c : Config} {pool p : List Slot} {m : List Byte} (hd : drain pool = some (m, p))
    (h : ∀ x ∈ pool, x.Inv c) : p.length = pool.length ∧ (∀ x ∈ p, x.Inv c) ∧ m.length ≤ c.maxMsg := by
  obtain ⟨i, x, -, hx, rfl, rfl⟩ := drain_eq_some.1 hd
  refine ⟨List.length_modify .., fun y hy => ?_, ?_⟩
  · obtain ⟨j, hj⟩ := List.getElem?_of_mem hy
    rw [List.getElem?_modify, Option.map_eq_map, Option.map_eq_some_iff] at hj
    obtain ⟨z, hz, rfl⟩ := hj
    have hzi := h z (List.mem_of_getElem? hz)
    split
    · exact hzi.clean
    · exact hzi
  · rw [Slot.length_message]
    exact (h x (List.mem_of_getElem? hx)).len_le_max

/-! ### Every update of the state keeps the invariant, under its condition -/

namespace State.Inv

variable {s : State} (h : s.Inv)
include h

theorem addResult (r : Result) : (s.addResult r).Inv := { h with }

theorem addPort (e : PortEvent) : (s.addPort e).Inv := { h with }

theorem setInputs (v : List Input) : (s.setInputs v).Inv := { h with }

theorem setDriver (v : Driver) : (s.setDriver v).Inv := { h with }

theorem setNodeAddr (v : BitVec 8) : (s.setNodeAddr v).Inv := { h with }

theorem setErrVersionCnt (v : BitVec 8) : (s.setErrVersionCnt v).Inv := { h with }

theorem setErrLengthCnt (v : BitVec 8) : (s.setErrLengthCnt v).Inv := { h with }

/-- The counter moves only while no send is in flight (10_state.md R28). -/
theorem setMsgIdCtr (hb : s.tx.busy = false) (v : BitVec 3) : (s.setMsgIdCtr v).Inv :=
  { h with id_of_busy := fun hb' => absurd (hb.symm.trans hb') Bool.false_ne_true }

theorem setPool {p : List Slot} (hl : p.length = s.pool.length) (hp : ∀ x ∈ p, x.Inv Config.mfe) : (s.setPool p).Inv :=
  { h with pool_length := hl.trans h.pool_length, slots := hp }

theorem setRxb {m : Memory} (hm : m.Sized Config.mfe) : (s.setRxb m).Inv := { h with rxb := hm }

theorem setTxb {m : Memory} (hm : m.Sized Config.mfe) : (s.setTxb m).Inv := { h with txb := hm }

theorem setTx {t : Tx} (ht : t.Inv Config.mfe) (hid : t.busy = true → t.id = s.msgIdCtr) : (s.setTx t).Inv :=
  { h with sequencer := ht, id_of_busy := hid }

end State.Inv

/-! ### The sequencer's invariant (10_state.md R32, R33) -/

theorem Tx.Inv.of_idle {c : Config} {t : Tx} (hb : t.busy = false) (hl : t.latch.Sized c) : t.Inv c := by
  have absurd_busy {P : Prop} (h : t.busy = true) : P := absurd (hb.symm.trans h) Bool.false_ne_true
  exact ⟨absurd_busy, absurd_busy, absurd_busy, absurd_busy, hl⟩

/-- A sequencer in flight that has not offered its last fragment may offer the next (41_fragmentation.md R119). -/
theorem Tx.Inv.next {c : Config} {t : Tx} (h : t.Inv c) (hmore : t.busy = true → t.idx.toNat + 1 ≠ t.count.toNat) :
    t.next.Inv c :=
  { h with
    idx_lt := fun hb => by
      have hlt := h.idx_lt hb
      have hne := hmore hb
      show (t.idx + 1).toNat < t.count.toNat
      rw [toNat_idx_succ (by omega)]
      omega }

/-! ### O51: every step keeps the invariant -/

theorem sendAccept_inv {s : State} {dest len : BitVec 8} (h : s.Inv) (h1 : 1 ≤ len.toNat)
    (h2 : len.toNat ≤ Config.mfe.maxMsg) : (sendAccept Config.mfe dest len s).Inv := by
  have hlen := toNat_setWidth_of_legal h2
  have hcount := toNat_ofNat_fragCount h1 h2
  obtain ⟨hpos, -⟩ := fragCount_bounds h1 h2
  rw [sendAccept_eq dest s h1 h2]
  exact { h with
    sequencer := {
      len_pos := fun _ => by rwa [hlen]
      len_le_max := fun _ => by rwa [hlen]
      count_eq := fun _ => by rw [hlen, hcount]
      idx_lt := fun _ => by rw [hcount]; exact hpos
      buffer := h.sequencer.buffer.writeN (by rw [Memory.length_readN]; omega) }
    id_of_busy := fun _ => rfl }

theorem txConfirm_inv {s : State} (ok : Bool) (h : s.Inv) : (txConfirm Config.mfe ok s).Inv := by
  have hended : s.tx.ended.Inv Config.mfe := .of_idle rfl h.sequencer.buffer
  cases ok with
  | false =>
    rw [txConfirm_false]
    exact ((h.addPort _).setTx hended fun hb => absurd hb Bool.false_ne_true).addResult _
  | true =>
    by_cases hl : s.tx.idx.toNat + 1 = s.tx.count.toNat
    · rw [txConfirm_true_last _ hl]
      exact ((h.addPort _).setTx hended fun hb => absurd hb Bool.false_ne_true).addResult _
    · rw [txConfirm_true_more _ hl]
      exact ((h.addPort _).setTx (h.sequencer.next fun _ => hl) h.id_of_busy).addPort _

/-- Every command that is executed keeps the invariant. -/
theorem exec_inv {s t : State} {i : Instr} (h : s.Inv) (hb : s.tx.busy = false) (ht : exec i s = .next t) : t.Inv := by
  obtain ⟨st, v, rfl, -⟩ | ⟨dest, len, noack, rfl, hpos, hle, rfl⟩ | ⟨rfl, -, rfl⟩ | ⟨rfl, f, -, rfl⟩ |
    ⟨rfl, m, p, hd, rfl⟩ | ⟨rfl, m, p, hd, hverdict⟩ | ⟨rfl, rfl⟩ | ⟨addr, rfl, rfl⟩ := exec_next hb ht
  · exact h.addResult _
  · exact sendAccept_inv h hpos hle
  · exact ((h.setDriver _).addPort _).addResult _
  · have hasked := ((h.setDriver s.driver.afterRx).addPort (.rawAvail true)).addPort (.rawRecv f)
    exact (hasked.setPool (length_rxFrame _ f s.pool) (rxFrame_inv h.slots)).addResult _
  · obtain ⟨hlen, hslots, hm⟩ := drain_inv hd h.slots
    exact ((h.setPool hlen hslots).setRxb (h.rxb.writeN (by omega))).addResult _
  · obtain ⟨hlen, hslots, hm⟩ := drain_inv hd h.slots
    have hpool := h.setPool hlen hslots
    obtain ⟨-, rfl⟩ | ⟨-, rfl⟩ | ⟨d, -, rfl⟩ := hverdict
    · exact (hpool.setErrVersionCnt _).addResult _
    · exact (hpool.setErrLengthCnt _).addResult _
    · have hcut := List.length_take_le' d m
      exact (hpool.setRxb (h.rxb.writeN (by omega))).addResult _
  · have hclean : ∀ x ∈ s.pool.map Slot.clean, x.Inv Config.mfe := by
      intro x hx
      obtain ⟨y, hy, rfl⟩ := List.mem_map.1 hx
      exact (h.slots y hy).clean
    exact ((((((h.setPool (List.length_map _) hclean).setMsgIdCtr hb _).setErrVersionCnt _).setErrLengthCnt
      _).setDriver _).addPort _).addResult _
  · exact (h.setNodeAddr _).addResult _

/-- The reset input puts the MFE's own state to the reset state, which meets the invariant; TXB and RXB stay. -/
theorem hardReset_inv {s : State} (h : s.Inv) : (hardReset Config.mfe s).Inv :=
  { resetMeetsTheInvariant with txb := h.txb, rxb := h.rxb }

/-- Settles O51: a step is one of the inputs, and each is made of updates that keep the invariant. -/
theorem everyStepKeepsTheInvariant : Obligations.EveryStepKeepsTheInvariant := by
  intro s t h ht
  obtain ⟨-, rfl⟩ | ⟨-, cw, rest, -, rfl⟩ | ⟨-, cw, rest, op, -, -, rfl⟩ | ⟨i, rest, hx, he⟩ |
    ⟨-, ok, rest, -, rfl⟩ | ⟨a, b, rest, -, ha, rfl⟩ | ⟨rest, -, rfl⟩ := step_next ht
  · exact h
  · exact (h.setInputs rest).addResult _
  · exact (h.setInputs rest).addResult _
  · exact exec_inv (h.setInputs rest) hx.1 he
  · exact txConfirm_inv ok (h.setInputs rest)
  · exact (h.setInputs rest).setTxb
      ⟨Memory.wf_write _ _ _ h.txb.canonical, Memory.within_write _ _ _ _ h.txb.inside ha⟩
  · exact hardReset_inv (h.setInputs rest)

end Sys2Proof.Machine

namespace Sys2Proof.Machine

/-! ### What a step does to the pool (10_state.md R26) -/

/-- What one step does to the pool, by its cause. `step_poolEffect` ties it to the machine. -/
inductive PoolEffect (s t : State) : Prop
  | same (eq : t.pool = s.pool)
  | round (cause : Executes s .poll) (f : RawFrame) (answer : s.rxAnswer = some f)
      (eq : t.pool = (rxFrame Config.mfe f s.pool).pool)
  | drained (cause : Executes s .recv ∨ Executes s .halRecv) (i : Nat) (x : Slot)
      (first : IsFirst Slot.isReady s.pool i x) (eq : t.pool = s.pool.modify i Slot.clean)
  | cleaned (cause : Executes s .init) (eq : t.pool = s.pool.map Slot.clean)
  | reset (cause : IsResetting s) (eq : t.pool = State.reset.pool)

theorem PoolEffect.of_drain {s t : State} {m : List Byte} (hx : Executes s .recv ∨ Executes s .halRecv)
    (hd : drain s.pool = some (m, t.pool)) : PoolEffect s t := by
  obtain ⟨i, x, hi, hxi, -, hp⟩ := drain_eq_some.1 hd
  exact .drained hx i x (isFirst_of_firstSlot hi hxi) hp

/-- The effect on the pool of a command that is executed, no send being in flight. -/
theorem exec_poolEffect {s t : State} {i : Instr} {rest : List Input} (hx : Executes s i)
    (h : exec i (s.setInputs rest) = .next t) : PoolEffect s t := by
  obtain ⟨st, v, rfl, -⟩ | ⟨dest, len, noack, rfl, -, -, rfl⟩ | ⟨rfl, -, rfl⟩ | ⟨rfl, f, hf, rfl⟩ |
    ⟨rfl, m, p, hd, rfl⟩ | ⟨rfl, m, p, hd, ⟨-, rfl⟩ | ⟨-, rfl⟩ | ⟨d, -, rfl⟩⟩ | ⟨rfl, rfl⟩ | ⟨addr, rfl, rfl⟩ :=
      exec_next (s := s.setInputs rest) hx.1 h
  · exact .same rfl
  · exact .same rfl
  · exact .same rfl
  · exact .round hx f hf rfl
  · exact .of_drain (.inl hx) hd
  · exact .of_drain (.inr hx) hd
  · exact .of_drain (.inr hx) hd
  · exact .of_drain (.inr hx) hd
  · exact .cleaned hx rfl
  · exact .same rfl

theorem txConfirm_pool (c : Config) (ok : Bool) (s : State) : (txConfirm c ok s).pool = s.pool := by
  cases ok with
  | false => rfl
  | true =>
    by_cases hl : s.tx.idx.toNat + 1 = s.tx.count.toNat
    · rw [txConfirm_true_last c hl]
      rfl
    · rw [txConfirm_true_more c hl]
      rfl

/-- Every step has one of the effects on the pool, with its cause. -/
theorem step_poolEffect {s t : State} (h : step s = .next t) : PoolEffect s t := by
  obtain ⟨-, rfl⟩ | ⟨-, cw, rest, -, rfl⟩ | ⟨-, cw, rest, op, -, -, rfl⟩ | ⟨i, rest, hx, he⟩ |
    ⟨-, ok, rest, -, rfl⟩ | ⟨a, b, rest, -, -, rfl⟩ | ⟨rest, hi, rfl⟩ := step_next h
  · exact .same rfl
  · exact .same rfl
  · exact .same rfl
  · exact exec_poolEffect hx he
  · exact .same (txConfirm_pool _ ok (s.setInputs rest))
  · exact .same rfl
  · exact .reset ⟨rest, hi⟩ rfl

/-! ### The phases of a slot (10_state.md R23) -/

theorem Slot.phase_eq_free {x : Slot} (hl : x.locked = false) (hr : x.ready = false) : x.phase = .free := by
  rw [Slot.phase, hl, hr]

theorem Slot.phase_eq_filling {x : Slot} (hl : x.locked = true) (hr : x.ready = false) : x.phase = .filling := by
  rw [Slot.phase, hl, hr]

theorem Slot.phase_eq_ready {x : Slot} (hl : x.locked = true) (hr : x.ready = true) : x.phase = .ready := by
  rw [Slot.phase, hl, hr]

theorem Slot.phase_clean (x : Slot) : x.clean.phase = .free := rfl

theorem Slot.isClean_clean (x : Slot) : x.clean.isClean := ⟨rfl, rfl, rfl, rfl, rfl, rfl, rfl⟩

/-- A slot that meets the invariant is FREE and clean, FILLING, or READY (10_state.md R24 (1), (2)). -/
theorem Slot.Inv.phase_cases {c : Config} {x : Slot} (h : x.Inv c) :
    (x.phase = .free ∧ x.isClean) ∨ (x.phase = .filling ∧ x.isFilling = true) ∨
      (x.phase = .ready ∧ x.isReady = true) := by
  cases hl : x.locked with
  | false =>
    obtain ⟨hsrc, hid, hnext, hlen, hage, hr⟩ := h.zero_of_unlocked hl
    exact .inl ⟨x.phase_eq_free hl hr, hl, hr, hsrc, hid, hnext, hlen, hage⟩
  | true =>
    cases hr : x.ready with
    | false => exact .inr (.inl ⟨x.phase_eq_filling hl hr, x.isFilling_iff.2 ⟨hl, hr⟩⟩)
    | true => exact .inr (.inr ⟨x.phase_eq_ready hl hr, hr⟩)

/-! ### The transitions of a slot, by cause (42_reassembly.md R141) -/

section
variable {s : State} {i : Nat} {x : Slot}

theorem slotTransition_same (h : x.Inv Config.mfe) : SlotTransition s i x x := by
  obtain ⟨hp, hclean⟩ | ⟨hp, -⟩ | ⟨hp, -⟩ := h.phase_cases
  · simpa only [SlotTransition, hp] using hclean
  · simp only [SlotTransition, hp, true_or]
  · simp only [SlotTransition, hp]

/-- `INIT` and reset clean every slot, whatever its phase. -/
theorem slotTransition_clean {y : Slot} (h : x.Inv Config.mfe) (hy : y.isClean)
    (hcause : Executes s .init ∨ IsResetting s) : SlotTransition s i x y := by
  have hpy : y.phase = .free := y.phase_eq_free hy.1 hy.2.1
  obtain ⟨hp, -⟩ | ⟨hp, -⟩ | ⟨hp, -⟩ := h.phase_cases
  · simpa only [SlotTransition, hp, hpy] using hy
  · simpa only [SlotTransition, hp, hpy] using hcause
  · simpa only [SlotTransition, hp, hpy] using .inr hcause

theorem slotTransition_drain (h : x.Inv Config.mfe) (hcause : Executes s .recv ∨ Executes s .halRecv)
    (hi : IsFirst Slot.isReady s.pool i x) : SlotTransition s i x x.clean := by
  have hr : x.ready = true := hi.2.1
  have hp : x.phase = .ready := x.phase_eq_ready (h.locked_of_ready hr) hr
  simp only [SlotTransition, hp, Slot.phase_clean]
  exact .inl ⟨hcause, hi⟩

/-- A FILLING slot that ages stays FILLING; no other slot ages. -/
theorem slotTransition_aged {f : RawFrame} (h : x.Inv Config.mfe) (hcause : Executes s .poll)
    (hf : s.rxAnswer = some f) : SlotTransition s i x x.aged := by
  cases hfill : x.isFilling with
  | false =>
    rw [Slot.aged_of_not_isFilling x hfill]
    exact slotTransition_same h
  | true =>
    obtain ⟨hl, hr⟩ := x.isFilling_iff.1 hfill
    have hp : x.phase = .filling := x.phase_eq_filling hl hr
    have hpa : x.aged.phase = .filling := x.aged.phase_eq_filling (x.aged_locked.trans hl) (x.aged_ready.trans hr)
    simp only [SlotTransition, hp, hpa]
    exact .inr ⟨hcause, f, hf, .inl trivial⟩

/-- The phase a slot advances to. -/
theorem Slot.phase_advance {count : BitVec 4} {data : List Byte} (hl : x.locked = true) (hr : x.ready = false)
    (hn : x.nextIdx.toNat ≤ 15) :
    (x.nextIdx.toNat + 1 = count.toNat ∧ (x.advance count data).phase = .ready) ∨
      (x.nextIdx.toNat + 1 ≠ count.toNat ∧ (x.advance count data).phase = .filling) := by
  cases hy : (x.advance count data).ready with
  | true => exact .inl ⟨(Slot.advance_ready_iff hr hn).1 hy, Slot.phase_eq_ready hl hy⟩
  | false =>
    refine .inr ⟨fun he => ?_, Slot.phase_eq_filling hl hy⟩
    exact absurd (hy.symm.trans ((Slot.advance_ready_iff hr hn).2 he)) Bool.false_ne_true

theorem slotTransition_continue {f : RawFrame} (hcause : Executes s .poll) (hf : s.rxAnswer = some f)
    (h0 : (hdrDec f.h).idx ≠ 0) (hi : IsFirst (Slot.matches (hdrDec f.h)) s.pool i x) :
    SlotTransition s i x (x.advance (hdrDec f.h).count f.data) := by
  have hn := Slot.nextIdx_le_of_matches hi.2.1
  obtain ⟨hl, hr⟩ := x.isFilling_iff.1 ((x.matches_iff _).1 hi.2.1).1
  have hp : x.phase = .filling := x.phase_eq_filling hl hr
  obtain ⟨hcount, hpy⟩ | ⟨hcount, hpy⟩ := Slot.phase_advance (count := (hdrDec f.h).count) (data := f.data) hl hr hn
  · simp only [SlotTransition, hp, hpy]
    exact ⟨hcause, f, hf, .inl ⟨hi, h0, hcount.symm⟩⟩
  · simp only [SlotTransition, hp, hpy]
    exact .inr ⟨hcause, f, hf, .inr (.inl ⟨hi, h0, Slot.toNat_advance_nextIdx hn, hcount.symm⟩)⟩

/-- The phase of a slot that has just taken a fragment 0. -/
theorem Slot.phase_advance_claim (x : Slot) (hdr : HeaderFields) (count : BitVec 4) (data : List Byte) :
    (count = 1 ∧ ((x.claim hdr).advance count data).phase = .ready) ∨
      (count ≠ 1 ∧ ((x.claim hdr).advance count data).phase = .filling) := by
  cases hy : ((x.claim hdr).advance count data).ready with
  | true => exact .inl ⟨Slot.advance_claim_ready_iff.1 hy, Slot.phase_eq_ready rfl hy⟩
  | false =>
    refine .inr ⟨fun he => ?_, Slot.phase_eq_filling rfl hy⟩
    exact absurd (hy.symm.trans (Slot.advance_claim_ready_iff.2 he)) Bool.false_ne_true

theorem slotTransition_claim {f : RawFrame} (h : x.Inv Config.mfe) (hcause : Executes s .poll)
    (hf : s.rxAnswer = some f) (h0 : (hdrDec f.h).idx = 0) (hi : IsFirst Slot.isFree s.pool i x) :
    SlotTransition s i x ((x.claim (hdrDec f.h)).advance (hdrDec f.h).count f.data) := by
  have hl : x.locked = false := by simpa [Slot.isFree] using hi.2.1
  obtain ⟨-, -, -, -, -, hr⟩ := h.zero_of_unlocked hl
  have hp : x.phase = .free := x.phase_eq_free hl hr
  obtain ⟨hcount, hpy⟩ | ⟨hcount, hpy⟩ := x.phase_advance_claim (hdrDec f.h) (hdrDec f.h).count f.data
  · simp only [SlotTransition, hp, hpy]
    exact ⟨hcause, f, hf, h0, hcount, hi⟩
  · simp only [SlotTransition, hp, hpy]
    exact ⟨hcause, f, hf, h0, hcount, hi⟩

/-- Only a FILLING slot is evicted, and only when no slot is FREE (42_reassembly.md R133). -/
theorem slotTransition_evict {f : RawFrame} (hx : s.pool[i]? = some x) (hcause : Executes s .poll)
    (hf : s.rxAnswer = some f) (h0 : (hdrDec f.h).idx = 0) (hfull : firstSlot Slot.isFree s.pool = none)
    (hold : evictCandidate s.pool = some i) :
    SlotTransition s i x ((x.claim (hdrDec f.h)).advance (hdrDec f.h).count f.data) := by
  obtain ⟨z, hz, hfill, -⟩ := evictCandidate_eq_some.1 hold
  obtain rfl : x = z := Option.some.inj (hx.symm.trans hz)
  obtain ⟨hl, hr⟩ := x.isFilling_iff.1 hfill
  have hp : x.phase = .filling := x.phase_eq_filling hl hr
  have hlocked := firstSlot_isFree_eq_none.1 hfull
  obtain ⟨hcount, hpy⟩ | ⟨hcount, hpy⟩ := x.phase_advance_claim (hdrDec f.h) (hdrDec f.h).count f.data
  · simp only [SlotTransition, hp, hpy]
    exact ⟨hcause, f, hf, .inr ⟨h0, hcount, hold, hlocked, rfl, rfl, rfl⟩⟩
  · simp only [SlotTransition, hp, hpy]
    exact .inr ⟨hcause, f, hf, .inr (.inr ⟨h0, hcount, hold, hlocked, rfl, rfl, rfl⟩)⟩

end

/-- Settles O52: each effect of a step on the pool makes of a slot what the table allows, with its cause. -/
theorem slotsFollowTheStateMachine : Obligations.SlotsFollowTheStateMachine := by
  intro s t i x y hs ht hx hy
  have hI : x.Inv Config.mfe := hs.slots x (List.mem_of_getElem? hx)
  cases step_poolEffect ht with
  | same eq =>
    rw [eq, hx] at hy
    cases hy
    exact slotTransition_same hI
  | round cause f answer eq =>
    obtain ⟨z, hz, hstep⟩ := rxFrame_slot Config.mfe f hx
    rw [eq, hz] at hy
    cases hy
    cases hstep with
    | ages => exact slotTransition_aged hI cause answer
    | claims zero _ first => exact slotTransition_claim hI cause answer zero first
    | evicts zero _ full oldest => exact slotTransition_evict hx cause answer zero full oldest
    | continues nonzero _ first _ => exact slotTransition_continue cause answer nonzero first
  | drained cause j z first eq =>
    rw [eq, List.getElem?_modify, hx] at hy
    by_cases hj : j = i
    · subst hj
      obtain rfl : z = x := Option.some.inj (first.1.symm.trans hx)
      obtain rfl : z.clean = y := by simpa using hy
      exact slotTransition_drain hI cause first
    · obtain rfl : x = y := by simpa [hj] using hy
      exact slotTransition_same hI
  | cleaned cause eq =>
    rw [eq, List.getElem?_map, hx] at hy
    cases hy
    exact slotTransition_clean hI x.isClean_clean (.inl cause)
  | reset cause eq =>
    rw [eq] at hy
    obtain rfl : y = Slot.free := List.eq_of_mem_replicate (List.mem_of_getElem? hy)
    exact slotTransition_clean hI ⟨rfl, rfl, rfl, rfl, rfl, rfl, rfl⟩ (.inr cause)

end Sys2Proof.Machine

namespace Sys2Proof.Machine

/-! ### The fields a round reads (42_reassembly.md R144, 30_encoding.md R74, R75) -/

/-- The mask of O15 keeps every field but the destination. -/
theorem hdrDec_and_mask (h : Header) : hdrDec (h &&& 0x07FF00FF) = { hdrDec h with dest := 0 } := by
  simp only [hdrDec, BitVec.extractLsb'_and]
  congr 1
  · exact BitVec.and_allOnes
  · exact BitVec.and_zero
  · exact BitVec.and_allOnes
  · exact BitVec.and_allOnes
  · exact BitVec.and_allOnes

/-- A round reads the fields of the header, without the destination, and the data. -/
theorem rxFrame_congr (c : Config) (pool : List Slot) {f f' : RawFrame}
    (hh : { hdrDec f.h with dest := 0 } = { hdrDec f'.h with dest := 0 }) (hd : f.data = f'.data) :
    rxFrame c f pool = rxFrame c f' pool := by
  obtain ⟨h, data, fits⟩ := f
  obtain ⟨h', data', fits'⟩ := f'
  obtain rfl : data = data' := hd
  unfold rxFrame select
  generalize hdrDec h = hdr, hdrDec h' = hdr' at hh
  obtain ⟨src, dest, idx, count, id⟩ := hdr
  obtain ⟨src', dest', idx', count', id'⟩ := hdr'
  cases hh
  rfl

/-- Settles O15. -/
theorem roundIgnoresDestinationAndReservedBits : Obligations.RoundIgnoresDestinationAndReservedBits := by
  intro c pool f f' hh hd
  refine rxFrame_congr c pool ?_ hd
  rw [← hdrDec_and_mask, ← hdrDec_and_mask, hh]

/-! ### One round, by the slot it selects -/

/-- Aging in numbers (42_reassembly.md R138). -/
theorem Slot.aged_eq (x : Slot) : x.aged =
    if x.locked && !x.ready then { x with age := BitVec.ofNat 8 (min (x.age.toNat + 1) 255) } else x := by
  rw [Slot.aged, satInc8_eq]
  rfl

/-- A round that selects a slot returns `PENDING` or `COMPLETE`, by whether the slot became READY (42_reassembly.md
R137). -/
theorem status_rxFrame_selected {c : Config} {f : RawFrame} {pool p : List Slot} {i : Nat} {ev : Bool} {y : Slot}
    (h : select c f pool = .take i p ev) (hy : (rxFrame c f pool).pool[i]? = some y) :
    (rxFrame c f pool).status = if y.ready then .complete else .pending := by
  obtain ⟨-, x, hx, -⟩ := select_take h
  obtain ⟨-, -, hslots, hstatus⟩ := rxFrame_take h
  rw [hslots, hx] at hy
  obtain rfl := Option.some.inj hy
  exact hstatus x hx

theorem rxFrame_other {c : Config} {f : RawFrame} {pool p : List Slot} {i j : Nat} {ev : Bool}
    (h : select c f pool = .take i p ev) (hj : j ≠ i) : (rxFrame c f pool).pool[j]? = (pool[j]?).map Slot.aged := by
  refine rxFrame_unselected fun p' ev' h' => hj ?_
  cases h.symm.trans h'
  rfl

theorem Slot.matches_claim (x : Slot) {hdr : HeaderFields} (h : hdr.idx = 0) : (x.claim hdr).matches hdr = true :=
  Slot.matches_iff_toNat.2 ⟨rfl, rfl, rfl, by rw [h]; rfl⟩

/-- The selected slot, emptied for a fragment 0, waits for the frame when it takes it (42_reassembly.md R132, R134). -/
theorem exists_matching_of_select {c : Config} {f : RawFrame} {pool p : List Slot} {i : Nat} {ev : Bool}
    (h : select c f pool = .take i p ev) :
    ∃ x z : Slot, pool[i]? = some x ∧ z.matches (hdrDec f.h) = true ∧ ((hdrDec f.h).idx ≠ 0 → z = x) ∧
      (rxFrame c f pool).pool[i]? = some (z.advance (hdrDec f.h).count f.data) := by
  obtain ⟨-, x, hx, hcase⟩ := select_take h
  have hy := rxFrame_selected h hx
  by_cases h0 : (hdrDec f.h).idx = 0
  · rw [if_pos h0] at hy
    exact ⟨x, x.claim (hdrDec f.h), hx, x.matches_claim h0, fun hne => absurd h0 hne, hy⟩
  · rw [if_neg h0] at hy
    obtain ⟨h0', -⟩ | ⟨h0', -⟩ | ⟨-, -, hm, -⟩ := hcase
    · exact absurd h0' h0
    · exact absurd h0' h0
    · exact ⟨x, x, hx, (isFirst_of_firstSlot hm hx).2.1, fun _ => rfl, hy⟩

/-- What the selected slot was and what it has become: it holds the frame's message and expects the next fragment. -/
theorem selected_slot {c : Config} {f : RawFrame} {pool p : List Slot} {i : Nat} {ev : Bool}
    (h : select c f pool = .take i p ev) :
    ∃ x y : Slot, pool[i]? = some x ∧ ((hdrDec f.h).idx ≠ 0 → x.nextIdx.toNat = (hdrDec f.h).idx.toNat) ∧
      (rxFrame c f pool).pool[i]? = some y ∧ y.nextIdx.toNat = (hdrDec f.h).idx.toNat + 1 ∧ y.age = 0 ∧
      y.locked = true ∧ y.src = (hdrDec f.h).src ∧ y.msgId = (hdrDec f.h).id := by
  obtain ⟨x, z, hx, hm, hzx, hy⟩ := exists_matching_of_select h
  obtain ⟨hfill, hsrc, hid, hidx⟩ := Slot.matches_iff_toNat.1 hm
  refine ⟨x, _, hx, fun h0 => hzx h0 ▸ hidx, hy, ?_, rfl, (z.isFilling_iff.1 hfill).1, hsrc, hid⟩
  rw [Slot.toNat_advance_nextIdx (Slot.nextIdx_le_of_matches hm), hidx]

/-- The status of a drop is none of a frame that is taken, nor `OK`. -/
theorem drop_status_ne {c : Config} {f : RawFrame} {pool : List Slot} {st : Status} (h : select c f pool = .drop st) :
    st ≠ .pending ∧ st ≠ .complete ∧ st ≠ .ok := by
  obtain ⟨-, rfl⟩ | ⟨-, -, -, -, rfl⟩ | ⟨-, -, -, rfl⟩ | ⟨-, -, i, x, -, -, -, rfl⟩ := select_drop h
  all_goals decide

/-- Settles O32: the slots that `select` does not give age, and the one it gives is advanced. -/
theorem everyRoundAgesTheOtherFillingSlots : Obligations.EveryRoundAgesTheOtherFillingSlots := by
  intro c f pool
  refine ⟨length_rxFrame c f pool, fun j x hx hsel => ?_, fun st h => ?_, fun i p ev h => ⟨?_, selected_slot h⟩⟩
  · rw [rxFrame_unselected hsel, hx, ← Slot.aged_eq]
    rfl
  · obtain ⟨hpending, hcomplete, -⟩ := drop_status_ne h
    rw [rxFrame_drop h]
    exact ⟨rfl, hpending, hcomplete⟩
  · obtain ⟨-, y, -, -, hy, -⟩ := selected_slot h
    rw [status_rxFrame_selected h hy]
    cases y.ready
    · exact .inl rfl
    · exact .inr rfl

end Sys2Proof.Machine

namespace Sys2Proof.Machine

/-! ### Which slot a frame is given (42_reassembly.md R132 to R134) -/

section
variable {c : Config} {f : RawFrame} {pool : List Slot} {i : Nat} {x : Slot}

/-- A frame of legal length goes to the allocator or to the matcher, by its index (42_reassembly.md R131). -/
theorem select_of_fits (hd : f.dlc.toNat ≤ 8) : select c f pool =
    if (hdrDec f.h).idx = 0 then allocate (hdrDec f.h) pool else continuation c (hdrDec f.h) f.dlc pool :=
  if_neg (Nat.not_lt.2 hd)

theorem select_of_free (hd : f.dlc.toNat ≤ 8) (h0 : (hdrDec f.h).idx = 0) (hi : IsFirst Slot.isFree pool i x) :
    select c f pool = .take i (pool.modify i (Slot.claim (hdrDec f.h))) false := by
  rw [select_of_fits hd, if_pos h0, allocate, firstSlot_of_isFirst hi]

theorem select_of_evicted (hd : f.dlc.toNat ≤ 8) (h0 : (hdrDec f.h).idx = 0)
    (hfull : firstSlot Slot.isFree pool = none) (hi : evictCandidate pool = some i) :
    select c f pool = .take i ((pool.modify i Slot.clean).modify i (Slot.claim (hdrDec f.h))) true := by
  simp only [select_of_fits hd, if_pos h0, allocate, hfull, hi]

theorem select_of_no_slot (hd : f.dlc.toNat ≤ 8) (h0 : (hdrDec f.h).idx = 0)
    (hfull : firstSlot Slot.isFree pool = none) (hi : evictCandidate pool = none) :
    select c f pool = .drop .dropNoSlot := by
  simp only [select_of_fits hd, if_pos h0, allocate, hfull, hi]

theorem select_of_matching (hd : f.dlc.toNat ≤ 8) (h0 : (hdrDec f.h).idx ≠ 0)
    (hi : IsFirst (Slot.matches (hdrDec f.h)) pool i x) (hroom : x.len.toNat + f.dlc.toNat ≤ c.maxMsg) :
    select c f pool = .take i pool false := by
  simp only [select_of_fits hd, if_neg h0, continuation, firstSlot_of_isFirst hi, hi.1, if_neg (Nat.not_lt.2 hroom)]

/-- A locked slot that a round does not evict ages, or takes the continuation it waits for. -/
theorem RoundStep.of_locked {y : Slot} (hstep : RoundStep c f pool i x y) (hl : x.locked = true)
    (hev : evictedBy c f pool ≠ some i) : y = x.aged ∨ x.matches (hdrDec f.h) = true := by
  cases hstep with
  | ages => exact .inl rfl
  | claims _ _ first => exact absurd (first.2.1.symm.trans (x.isFree_of_locked hl)) (by decide)
  | evicts zero fits full oldest =>
    refine absurd ?_ hev
    rw [evictedBy, select_of_evicted fits zero full oldest]
  | continues _ _ first _ => exact .inr first.2.1

end

/-! ### A fragment 0 that a slot takes (42_reassembly.md R132, R133, R136, R137) -/

/-- The slot a fragment 0 leaves, register by register. -/
theorem Slot.advance_claim_eq (x : Slot) (hdr : HeaderFields) (count : BitVec 4) (data : List Byte) :
    (x.claim hdr).advance count data =
      ⟨true, decide (count = 1), hdr.src, hdr.id, 1, BitVec.ofNat 7 data.length, 0, x.buf.writeN 0 data⟩ := by
  have hready : ((x.claim hdr).advance count data).ready = decide (count = 1) :=
    Bool.eq_iff_iff.2 (by rw [Slot.advance_claim_ready_iff, decide_eq_true_iff])
  have hlen : ((x.claim hdr).advance count data).len = BitVec.ofNat 7 data.length := BitVec.zero_add _
  rw [← hready, ← hlen]
  rfl

/-- The whole round, whether the slot was FREE or evicted. -/
theorem rxFrame_fragmentZero {c : Config} {f : RawFrame} {pool p : List Slot} {i : Nat} {x : Slot} {ev : Bool}
    (h0 : (hdrDec f.h).idx = 0) (h : select c f pool = .take i p ev) (hx : pool[i]? = some x) :
    (rxFrame c f pool).status = (if (hdrDec f.h).count = 1 then .complete else .pending) ∧
    (rxFrame c f pool).evicted = ev ∧
    (∃ b : Memory, (rxFrame c f pool).pool[i]? = some ⟨true, decide ((hdrDec f.h).count = 1), (hdrDec f.h).src,
        (hdrDec f.h).id, 1, BitVec.ofNat 7 f.dlc.toNat, 0, b⟩ ∧
      ∀ a, b.read a = if a < f.dlc.toNat then f.data.getD a 0 else x.buf.read a) ∧
    ∀ j, j ≠ i → (rxFrame c f pool).pool[j]? = (pool[j]?).map Slot.aged := by
  have hy := rxFrame_selected h hx
  rw [if_pos h0, Slot.advance_claim_eq] at hy
  refine ⟨?_, (rxFrame_take h).1, ⟨_, hy, fun a => ?_⟩, fun j hj => rxFrame_other h hj⟩
  · rw [status_rxFrame_selected h hy]
    exact if_congr decide_eq_true_iff rfl rfl
  · rw [Memory.read_writeN, dlc_toNat, Nat.zero_add, Nat.sub_zero]
    exact if_congr (and_iff_right (Nat.zero_le a)) rfl rfl

/-- Settles O33: the scan gives the lowest FREE slot. -/
theorem fragmentZeroTakesLowestFreeSlot : Obligations.FragmentZeroTakesLowestFreeSlot := by
  intro c f pool i x hd h0 hx hl hlow
  have hi : IsFirst Slot.isFree pool i x :=
    ⟨hx, x.isFree_of_unlocked hl, fun j y hj hy => y.isFree_of_locked (hlow j y hj hy)⟩
  exact rxFrame_fragmentZero h0 (select_of_free hd h0 hi) hx

/-- Settles O34: with every slot locked, the allocator asks the eviction controller. -/
theorem evictionTakesOldestFillingSlot : Obligations.EvictionTakesOldestFillingSlot := by
  intro c f pool hd h0 hlocked
  have hfull := firstSlot_isFree_eq_none.2 hlocked
  have hfilling : ∀ x ∈ pool, (x.isFilling = true ↔ x.ready = false) := fun x hx => by
    rw [Slot.isFilling_iff, and_iff_right (hlocked x hx)]
  refine ⟨fun hready => ?_, fun i x hx hr hle hlt => ?_⟩
  · have hnone : ∀ x ∈ pool, x.isFilling = false := fun x hx => by
      rw [Slot.isFilling, hready x hx, Bool.not_true, Bool.and_false]
    have hsel := select_of_no_slot (c := c) hd h0 hfull (evictCandidate_eq_none.2 hnone)
    rw [rxFrame_drop hsel, ageOthers_of_none_filling _ _ hnone]
  · have hi : evictCandidate pool = some i := by
      refine evictCandidate_eq_some.2 ⟨x, hx, (hfilling x (List.mem_of_getElem? hx)).2 hr, fun j y hy hf => ?_,
        fun j y hj hy hf => ?_⟩
      · exact hle j y hy ((hfilling y (List.mem_of_getElem? hy)).1 hf)
      · exact hlt j y hj hy ((hfilling y (List.mem_of_getElem? hy)).1 hf)
    exact rxFrame_fragmentZero h0 (select_of_evicted hd h0 hfull hi) hx

/-! ### A continuation that a slot takes (42_reassembly.md R134, R136, R137) -/

/-- The test of O35 is the matcher's. -/
theorem Slot.matches_eq (hdr : HeaderFields) : (fun y : Slot => y.locked && !y.ready && y.src == hdr.src &&
    y.msgId == hdr.id && y.nextIdx.toNat == hdr.idx.toNat) = Slot.matches hdr := by
  funext y
  refine Bool.eq_iff_iff.2 ?_
  simp only [Slot.matches_iff_toNat, Slot.isFilling_iff, Bool.and_eq_true, Bool.not_eq_true', beq_iff_eq, and_assoc]

/-- The bytes of a slot that has advanced: the frame's after those it had (42_reassembly.md R136). -/
theorem Slot.read_advance (x : Slot) (count : BitVec 4) (data : List Byte) (a : Nat) :
    (x.advance count data).buf.read a =
      if x.len.toNat ≤ a ∧ a < x.len.toNat + data.length then data.getD (a - x.len.toNat) 0 else x.buf.read a :=
  Memory.read_writeN ..

/-- Settles O35: the scan gives the lowest match, and the slot it gives advances. -/
theorem continuationAdvancesLowestMatch : Obligations.ContinuationAdvancesLowestMatch := by
  intro c f pool i x hd h0 hi hroom
  rw [Slot.matches_eq] at hi
  have hsel := select_of_matching hd h0 hi hroom
  have hx := hi.1
  have hm := hi.2.1
  have hn := Slot.nextIdx_le_of_matches hm
  obtain ⟨hl, hr⟩ := x.isFilling_iff.1 ((x.matches_iff _).1 hm).1
  have hready := Slot.advance_ready_iff (count := (hdrDec f.h).count) (data := f.data) hr hn
  have hy := rxFrame_selected hsel hx
  rw [if_neg h0] at hy
  refine ⟨?_, (rxFrame_take hsel).1, ⟨_, hy, hl, hready, rfl, rfl, Slot.toNat_advance_nextIdx hn,
    Slot.toNat_advance_len hroom, rfl, x.read_advance _ _⟩, fun j hj => rxFrame_other hsel hj⟩
  rw [status_rxFrame_selected hsel hy]
  exact if_congr hready rfl rfl

/-- Settles O37: such a slot is FILLING, so it is not allocated, and no frame's 4-bit index is 16. -/
theorem slotWithSixteenFragmentsIsStuck : Obligations.SlotWithSixteenFragmentsIsStuck := by
  intro c f pool i x hx hfill hn hev
  obtain ⟨y, hy, hstep⟩ := rxFrame_slot c f hx
  obtain rfl | hm := hstep.of_locked (x.isFilling_iff.1 hfill).1 hev
  · exact hy
  · have := Slot.nextIdx_le_of_matches hm
    omega

/-! ### The two commands (42_reassembly.md R130, R139, R140) -/

/-- What a drain gives, and the pool it leaves. -/
theorem drain_of_isFirst {pool : List Slot} {i : Nat} {x : Slot} (h : IsFirst Slot.ready pool i x) :
    drain pool = some (x.message, pool.set i x.clean) := by
  refine drain_eq_some.2 ⟨i, x, firstSlot_of_isFirst (p := Slot.isReady) h, h.1, rfl, ?_⟩
  rw [List.modify_eq_set_getElem?, h.1]
  rfl

/-- Settles O38: the drain gives the message of the lowest READY slot, or there is none. -/
theorem recvDrainsLowestReadySlot : Obligations.RecvDrainsLowestReadySlot := by
  refine ⟨fun s i x hb hi => ⟨s.rxb.writeN 0 x.message, ?_, fun a => ?_⟩, fun s hb hn => ?_, fun s => exec_of_busy _⟩
  · rw [exec_recv_of_idle_some hb (drain_of_isFirst hi), Slot.length_message, BitVec.ofNat_toNat]
    rfl
  · exact Memory.read_copy ..
  · exact exec_recv_of_idle_none hb (drain_eq_none.2 hn)

/-- `flag` tells `COMPLETE` from the other statuses of a round (42_reassembly.md R130). -/
theorem flagOf_rxFrame (c : Config) (f : RawFrame) (pool : List Slot) :
    flagOf (rxFrame c f pool).status = decide ((rxFrame c f pool).status = .complete) := by
  have hne : (rxFrame c f pool).status ≠ .ok := by
    cases h : select c f pool with
    | drop st =>
      rw [rxFrame_drop h]
      exact (drop_status_ne h).2.2
    | take i p ev =>
      obtain ⟨-, y, -, -, hy, -⟩ := selected_slot h
      rw [status_rxFrame_selected h hy]
      split <;> decide
  rw [flagOf, beq_false_of_ne hne]
  rfl

/-- Settles O30: with a frame, without one, and during a send. -/
theorem pollRunsOneRoundOnOneFrame : Obligations.PollRunsOneRoundOnOneFrame := by
  intro s
  refine ⟨fun f hb hf => ?_, fun hb hn => exec_poll_of_idle_none hb hn, fun hb => exec_of_busy _ hb⟩
  rw [exec_poll_of_idle_some hb hf, resultOf, flagOf_rxFrame, State.addResult, State.setPool, State.addPort,
    State.addPort_port, List.append_assoc]
  rfl

end Sys2Proof.Machine

namespace Sys2Proof.Machine

/-! ### Runs of frames -/

theorem deliver_append (c : Config) (gs hs : List RawFrame) (pool : List Slot) :
    deliver c (gs ++ hs) pool = deliver c hs (deliver c gs pool) := by
  induction gs generalizing pool with
  | nil => rfl
  | cons g gs ih => exact ih _

theorem length_deliver (c : Config) (gs : List RawFrame) (pool : List Slot) :
    (deliver c gs pool).length = pool.length := by
  induction gs generalizing pool with
  | nil => rfl
  | cons g gs ih => exact (ih _).trans (length_rxFrame c g pool)

/-! ### Messages begun under pressure (42_reassembly.md R148) -/

/-- A fragment 0 of legal length, of a message of two or more fragments. -/
def Begins (g : RawFrame) : Prop :=
  g.dlc.toNat ≤ 8 ∧ (hdrDec g.h).idx = 0 ∧ 2 ≤ (hdrDec g.h).count.toNat

/-- A slot that waits for the second fragment of the message that frame `g` began. -/
structure Slot.Began (g : RawFrame) (x : Slot) : Prop where
  filling : x.isFilling = true
  src : x.src = (hdrDec g.h).src
  msgId : x.msgId = (hdrDec g.h).id
  nextIdx : x.nextIdx = 1
  len : x.len.toNat = g.dlc.toNat

theorem Slot.Began.aged {g : RawFrame} {x : Slot} (h : x.Began g) : x.aged.Began g where
  filling := x.aged_isFilling.trans h.filling
  src := x.aged_src.trans h.src
  msgId := x.aged_msgId.trans h.msgId
  nextIdx := x.aged_nextIdx.trans h.nextIdx
  len := (congrArg _ x.aged_len).trans h.len

theorem Slot.Began.toNat_aged_age {g : RawFrame} {x : Slot} (h : x.Began g) :
    x.aged.age.toNat = min (x.age.toNat + 1) 255 := by
  rw [x.aged_of_isFilling h.filling, toNat_satInc8]

theorem Slot.began_advance_claim {g : RawFrame} (x : Slot) (hg : Begins g) :
    ((x.claim (hdrDec g.h)).advance (hdrDec g.h).count g.data).Began g := by
  obtain ⟨hd, -, hcount⟩ := hg
  have hone : (hdrDec g.h).count ≠ 1 := fun h => by simp [h] at hcount
  rw [Slot.advance_claim_eq, decide_eq_false hone]
  refine ⟨rfl, rfl, rfl, rfl, ?_⟩
  rw [dlc_toNat] at hd
  rw [BitVec.toNat_ofNat, dlc_toNat]
  omega

/-- The first slots hold the messages that the frames `gs` began, the youngest last, and the others are FREE. -/
structure FilledBy (gs : List RawFrame) (pool : List Slot) : Prop where
  began : ∀ (i : Nat) (g : RawFrame), gs[i]? = some g →
    ∃ x, pool[i]? = some x ∧ x.Began g ∧ x.age.toNat = gs.length - 1 - i
  free : ∀ (i : Nat) (x : Slot), gs.length ≤ i → pool[i]? = some x → x.locked = false

namespace FilledBy

variable {c : Config} {gs : List RawFrame} {pool : List Slot}

/-- The slots below the number of frames are those of `began`. -/
theorem began_of_lt (h : FilledBy gs pool) {i : Nat} {x : Slot} (hi : i < gs.length) (hx : pool[i]? = some x) :
    x.isFilling = true ∧ x.age.toNat = gs.length - 1 - i := by
  obtain ⟨y, hy, hb, hage⟩ := h.began i _ (List.getElem?_eq_getElem hi)
  obtain rfl : x = y := Option.some.inj (hx.symm.trans hy)
  exact ⟨hb.filling, hage⟩

theorem isFirst_free (h : FilledBy gs pool) {x : Slot} (hx : pool[gs.length]? = some x) :
    IsFirst Slot.isFree pool gs.length x := by
  refine ⟨hx, x.isFree_of_unlocked (h.free _ x (Nat.le_refl _) hx), fun j y hj hy => ?_⟩
  exact y.isFree_of_locked (y.isFilling_iff.1 (h.began_of_lt hj hy).1).1

/-- The next fragment 0 takes the next slot; the others age, and no age has come to 255 yet. -/
theorem after_round {g : RawFrame} (h : FilledBy gs pool) (hg : Begins g) (hlen : gs.length < pool.length)
    (hmax : gs.length < 255) : FilledBy (gs ++ [g]) (rxFrame c g pool).pool := by
  have hx := List.getElem?_eq_getElem hlen
  have hsel := select_of_free (c := c) hg.1 hg.2.1 (h.isFirst_free hx)
  constructor
  · intro i g' hi
    by_cases hlt : i < gs.length
    · rw [List.getElem?_append_left hlt] at hi
      obtain ⟨x, hx, hb, hage⟩ := h.began i g' hi
      refine ⟨x.aged, by rw [rxFrame_other hsel (Nat.ne_of_lt hlt), hx, Option.map_some], hb.aged, ?_⟩
      rw [hb.toNat_aged_age, hage, List.length_append, List.length_singleton]
      omega
    · obtain ⟨rfl, rfl⟩ : i = gs.length ∧ g = g' := by
        rw [List.getElem?_append_right (Nat.le_of_not_lt hlt), List.getElem?_singleton] at hi
        split at hi
        · exact ⟨by omega, Option.some.inj hi⟩
        · cases hi
      refine ⟨_, rxFrame_selected hsel hx, ?_, ?_⟩
      · rw [if_pos hg.2.1]
        exact Slot.began_advance_claim _ hg
      · rw [Slot.advance_age, List.length_append, List.length_singleton]
        simp
  · intro i y hi hy
    rw [List.length_append, List.length_singleton] at hi
    rw [rxFrame_other hsel (by omega), Option.map_eq_some_iff] at hy
    obtain ⟨x, hx, rfl⟩ := hy
    exact x.aged_locked.trans (h.free i x (by omega) hx)

theorem of_deliver (hfree : ∀ x ∈ pool, x.locked = false) (hbegins : ∀ g ∈ gs, Begins g)
    (hlen : gs.length ≤ pool.length) (hmax : gs.length ≤ 255) : FilledBy gs (deliver c gs pool) := by
  induction gs using List.reverseRecOn with
  | nil => exact ⟨fun i g hi => by simp at hi, fun i x _ hx => hfree x (List.mem_of_getElem? hx)⟩
  | append_singleton gs g ih =>
    rw [List.length_append, List.length_singleton] at hlen hmax
    have hfilled := ih (fun g' hg' => hbegins g' (List.mem_append_left _ hg')) (by omega) (by omega)
    rw [deliver_append]
    exact hfilled.after_round (hbegins g (by simp)) (by rw [length_deliver]; omega) (by omega)

/-! A full pool. -/

variable (h : FilledBy gs pool) (hfull : pool.length = gs.length)
include h hfull

theorem no_free : firstSlot Slot.isFree pool = none := by
  refine firstSlot_isFree_eq_none.2 fun x hx => ?_
  obtain ⟨i, hi⟩ := List.getElem?_of_mem hx
  obtain ⟨hlt, -⟩ := List.getElem?_eq_some_iff.1 hi
  exact (x.isFilling_iff.1 (h.began_of_lt (hfull ▸ hlt) hi).1).1

/-- Slot 0 is the oldest. -/
theorem evictCandidate_eq_zero (hpos : 0 < gs.length) : evictCandidate pool = some 0 := by
  have hx := List.getElem?_eq_getElem (hfull ▸ hpos)
  obtain ⟨hfill, hage⟩ := h.began_of_lt hpos hx
  refine evictCandidate_eq_some.2 ⟨_, hx, hfill, fun j y hy _ => ?_, fun j y hj => absurd hj (Nat.not_lt_zero j)⟩
  obtain ⟨hlt, -⟩ := List.getElem?_eq_some_iff.1 hy
  rw [hage, (h.began_of_lt (hfull ▸ hlt) hy).2]
  omega

end FilledBy

/-- Below 255 an age grows by exactly one (30_encoding.md R90). -/
theorem satInc8_of_lt {v : BitVec 8} (h : v.toNat < 255) : satInc8 v = v + 1 :=
  if_neg fun hv => absurd h (by rw [hv]; decide)

/-- Settles O54: the frames fill the slots in order, slot 0 is then the oldest, and no age has saturated. -/
theorem evictionUnderPressure : Obligations.EvictionUnderPressure := by
  intro c pool fs f hpool hclean hlen hbegins
  have hmax := c.poolN_le
  have hpos := c.poolN_pos
  obtain ⟨hf, hfs⟩ := List.forall_mem_cons.1 hbegins
  have hf : Begins f := hf
  have hfilled : FilledBy fs (deliver c fs pool) :=
    .of_deliver (fun x hx => (hclean x hx).1) hfs (by omega) (by omega)
  have hfull : (deliver c fs pool).length = fs.length := by rw [length_deliver, hpool, hlen]
  have hsel := select_of_evicted (c := c) hf.1 hf.2.1 (hfilled.no_free hfull)
    (hfilled.evictCandidate_eq_zero hfull (by omega))
  refine ⟨fun i g hi => ?_, (rxFrame_take hsel).1, ?_, fun i x hi hx => ?_⟩
  · obtain ⟨x, hx, ⟨hfill, hsrc, hid, hnext, hxlen⟩, hage⟩ := hfilled.began i g hi
    exact ⟨x, hx, hfill, hsrc, hid, hnext, hxlen, hlen ▸ hage⟩
  · have hx := List.getElem?_eq_getElem (show 0 < (deliver c fs pool).length by omega)
    obtain ⟨hfill, hsrc, hid, hnext, -⟩ := Slot.began_advance_claim (deliver c fs pool)[0] hf
    have hy := rxFrame_selected hsel hx
    rw [if_pos hf.2.1] at hy
    exact ⟨_, hy, hfill, hsrc, hid, hnext, rfl⟩
  · obtain ⟨hlt, -⟩ := List.getElem?_eq_some_iff.1 hx
    obtain ⟨hfill, hage⟩ := hfilled.began_of_lt (hfull ▸ hlt) hx
    rw [rxFrame_other hsel (by omega), hx, Option.map_some, x.aged_of_isFilling hfill, satInc8_of_lt (by omega)]

end Sys2Proof.Machine

namespace Sys2Proof.Machine

/-! ### The frames of one message (41_fragmentation.md R121) -/

/-- A message that fits `MAX_MSG` has at most 15 chunks, the greatest 4-bit count (41_fragmentation.md R113). -/
theorem fragCount_le {c : Config} {len : Nat} (h : len ≤ c.maxMsg) : fragCount len ≤ 15 := by
  have hmax : c.maxMsg ≤ 15 * 8 := c.maxMsg_le
  rw [fragCount_eq]
  omega

/-- Frame `f` is fragment `k` of a message of `len` bytes, as a receiver reads it (41_fragmentation.md R114, R115).
`carriesFragment_fragment` ties it to the sender's frames. -/
structure CarriesFragment (src : BitVec 8) (id : BitVec 3) (payload : Memory) (len k : Nat) (f : RawFrame) : Prop where
  src_eq : (hdrDec f.h).src = src
  id_eq : (hdrDec f.h).id = id
  idx_eq : (hdrDec f.h).idx.toNat = k
  count_eq : (hdrDec f.h).count.toNat = fragCount len
  data_eq : f.data = payload.readN (8 * k) (chunkLen len k)

theorem carriesFragment_fragment {c : Config} (id : BitVec 3) (dest src : BitVec 8) (payload : Memory) {len k : Nat}
    (hmax : len ≤ c.maxMsg) (hk : k < fragCount len) :
    CarriesFragment src id payload len k (fragment c id dest src payload len k) := by
  have hn := fragCount_le hmax
  have fits {n : Nat} (h : n ≤ 15) : ((BitVec.ofNat 8 n).setWidth 4).toNat = n := by
    rw [BitVec.toNat_setWidth, BitVec.toNat_ofNat]
    omega
  constructor
  case data_eq => rw [fragment_data, chunkOff_eq]
  all_goals rw [fragment_h, hdrDec_hdrEnc]
  case id_eq => rw [BitVec.setWidth_setWidth_of_le id (by decide), BitVec.setWidth_eq]
  case idx_eq => exact fits (by omega)
  case count_eq => exact fits hn

theorem CarriesFragment.length_data {src : BitVec 8} {id : BitVec 3} {payload : Memory} {len k : Nat} {f : RawFrame}
    (h : CarriesFragment src id payload len k f) : f.data.length = chunkLen len k := by
  rw [h.data_eq, Memory.length_readN]

theorem isOf_iff {src : BitVec 8} {id : BitVec 3} {g : RawFrame} :
    RawFrame.isOf src id g = true ↔ (hdrDec g.h).src = src ∧ (hdrDec g.h).id = id := by
  rw [RawFrame.isOf, Bool.and_eq_true, beq_iff_eq, beq_iff_eq]

theorem CarriesFragment.isOf {src : BitVec 8} {id : BitVec 3} {payload : Memory} {len k : Nat} {f : RawFrame}
    (h : CarriesFragment src id payload len k f) : RawFrame.isOf src id f = true := isOf_iff.2 ⟨h.src_eq, h.id_eq⟩

/-- The chunks below fragment `k + 1` are those below `k` and chunk `k` (30_encoding.md R78). -/
theorem received_succ {len k : Nat} (hk : k < fragCount len) :
    min (8 * (k + 1)) len = min (8 * k) len + chunkLen len k ∧ min (8 * k) len = 8 * k := by
  have e := fragCount_eq len
  by_cases h1 : k + 1 < fragCount len
  · rw [chunkLen_of_lt h1]
    omega
  · rw [chunkLen_last (by omega)]
    omega

/-! ### A slot that has taken the first fragments of a message (42_reassembly.md R136, R137) -/

/-- A slot that has taken the first `k` fragments of a message of `len` bytes. -/
structure Slot.Holds (src : BitVec 8) (id : BitVec 3) (payload : Memory) (len k : Nat) (x : Slot) : Prop where
  locked : x.locked = true
  ready_iff : x.ready = true ↔ k = fragCount len
  src_eq : x.src = src
  msgId_eq : x.msgId = id
  nextIdx : x.nextIdx.toNat = k
  len_eq : x.len.toNat = min (8 * k) len
  bytes : ∀ a, a < min (8 * k) len → x.buf.read a = payload.read a

/-- No FILLING slot but slot `i`, if that is one, is of the message. -/
def NoOtherFilling (src : BitVec 8) (id : BitVec 3) (i : Nat) (pool : List Slot) : Prop :=
  ∀ (j : Nat) (y : Slot), j ≠ i → pool[j]? = some y → y.isFilling = true → ¬ (y.src = src ∧ y.msgId = id)

/-- Slot `i` holds the first `k` fragments, and no other slot waits for the message. -/
structure Receiving (src : BitVec 8) (id : BitVec 3) (payload : Memory) (len i k : Nat) (pool : List Slot) : Prop where
  slot : ∃ x, pool[i]? = some x ∧ x.Holds src id payload len k
  alone : NoOtherFilling src id i pool

section
variable {c : Config} {id : BitVec 3} {dest src : BitVec 8} {payload : Memory} {len i k : Nat} {pool : List Slot}
  {f : RawFrame} {x : Slot}

theorem Slot.Holds.aged (h : x.Holds src id payload len k) : x.aged.Holds src id payload len k where
  locked := x.aged_locked.trans h.locked
  ready_iff := by rw [x.aged_ready, h.ready_iff]
  src_eq := x.aged_src.trans h.src_eq
  msgId_eq := x.aged_msgId.trans h.msgId_eq
  nextIdx := (congrArg _ x.aged_nextIdx).trans h.nextIdx
  len_eq := (congrArg _ x.aged_len).trans h.len_eq
  bytes := by simpa only [x.aged_buf] using h.bytes

/-- A slot just claimed holds no fragment yet. -/
theorem Slot.holds_claim (x : Slot) (hf : CarriesFragment src id payload len 0 f) (hpos : 0 < fragCount len) :
    (x.claim (hdrDec f.h)).Holds src id payload len 0 where
  locked := rfl
  ready_iff := iff_of_false Bool.false_ne_true (Nat.ne_of_lt hpos)
  src_eq := hf.src_eq
  msgId_eq := hf.id_eq
  nextIdx := rfl
  len_eq := (Nat.zero_min len).symm
  bytes := fun a ha => absurd ha (by omega)

/-- A slot of a message that is not complete is FILLING. -/
theorem Slot.Holds.ready_eq_false (h : x.Holds src id payload len k) (hk : k < fragCount len) : x.ready = false := by
  rw [← Bool.not_eq_true, h.ready_iff]
  omega

/-- The slot takes the next fragment: its bytes come right after those held (42_reassembly.md R136). -/
theorem Slot.Holds.advance (h : x.Holds src id payload len k) (hf : CarriesFragment src id payload len k f)
    (hmax : len ≤ c.maxMsg) (hk : k < fragCount len) :
    (x.advance (hdrDec f.h).count f.data).Holds src id payload len (k + 1) := by
  obtain ⟨hsum, hlen⟩ := received_succ hk
  have hx : x.len.toNat = 8 * k := h.len_eq.trans hlen
  have hnext : x.nextIdx.toNat ≤ 15 := by
    rw [h.nextIdx]
    exact hk.le.trans (fragCount_le hmax)
  have hdata := hf.length_data
  refine ⟨h.locked, ?_, h.src_eq, h.msgId_eq, ?_, ?_, fun a ha => ?_⟩
  · rw [Slot.advance_ready_iff (h.ready_eq_false hk) hnext, h.nextIdx, hf.count_eq]
  · rw [Slot.toNat_advance_nextIdx hnext, h.nextIdx]
  · rw [Slot.toNat_advance_len (c := c) (by omega), hdata]
    omega
  · rw [Slot.read_advance, hx, hdata]
    split
    · next hin =>
      have ha : 8 * k + (a - 8 * k) = a := by omega
      rw [hf.data_eq, List.getD_eq_getElem?_getD, Memory.getElem?_readN, if_pos (by omega), ha, Option.getD_some]
    · next hout => exact h.bytes a (by omega)

/-- The whole message (42_reassembly.md R147). -/
theorem Slot.Holds.message_eq (h : x.Holds src id payload len (fragCount len)) :
    x.len.toNat = len ∧ x.message = payload.readN 0 len := by
  have e := fragCount_eq len
  have hlen : x.len.toNat = len := by
    rw [h.len_eq]
    omega
  refine ⟨hlen, ?_⟩
  rw [Slot.message, hlen]
  exact Memory.readN_congr _ _ _ _ fun a ha => h.bytes _ (by omega)

/-! ### The rounds while a message is received -/

/-- The round of a frame of another message leaves the slot as it is, or ages it, if it does not evict it. -/
theorem Slot.Holds.foreign {y : Slot} (h : x.Holds src id payload len k) (hf : RawFrame.isOf src id f = false)
    (hev : evictedBy c f pool ≠ some i) (hstep : RoundStep c f pool i x y) : y.Holds src id payload len k := by
  obtain rfl | hm := hstep.of_locked h.locked hev
  · exact h.aged
  · obtain ⟨-, hsrc, hid, -⟩ := (x.matches_iff _).1 hm
    have hof : RawFrame.isOf src id f = true := isOf_iff.2 ⟨hsrc.symm.trans h.src_eq, hid.symm.trans h.msgId_eq⟩
    exact absurd (hf.symm.trans hof) Bool.false_ne_true

/-- The round of a frame of another message makes no slot wait for this one. -/
theorem NoOtherFilling.foreign (h : NoOtherFilling src id i pool) (hf : RawFrame.isOf src id f = false) :
    NoOtherFilling src id i (rxFrame c f pool).pool := by
  intro j y hj hy hfill hof
  obtain ⟨x, hx, hstep⟩ := exists_roundStep hy
  cases hstep with
  | ages =>
    rw [x.aged_isFilling] at hfill
    rw [x.aged_src, x.aged_msgId] at hof
    exact h j x hj hx hfill hof
  | claims | evicts => exact absurd (hf.symm.trans (isOf_iff.2 hof)) Bool.false_ne_true
  | continues _ _ first _ =>
    obtain ⟨hfill, -⟩ := (x.matches_iff _).1 first.2.1
    exact h j x hj hx hfill hof

theorem Receiving.foreign (h : Receiving src id payload len i k pool) (hf : RawFrame.isOf src id f = false)
    (hev : evictedBy c f pool ≠ some i) : Receiving src id payload len i k (rxFrame c f pool).pool := by
  obtain ⟨⟨x, hx, hold⟩, halone⟩ := h
  obtain ⟨y, hy, hstep⟩ := rxFrame_slot c f hx
  exact ⟨⟨y, hy, hold.foreign hf hev hstep⟩, halone.foreign hf⟩

/-- A round in which slot `i`, `x` when it takes the frame, is given the message's next fragment. -/
theorem receiving_of_selected {p : List Slot} {ev : Bool} (hf : CarriesFragment src id payload len k f)
    (hmax : len ≤ c.maxMsg) (hk : k < fragCount len) (hsel : select c f pool = .take i p ev)
    (hy : (rxFrame c f pool).pool[i]? = some (x.advance (hdrDec f.h).count f.data))
    (hold : x.Holds src id payload len k) (halone : NoOtherFilling src id i pool) :
    Receiving src id payload len i (k + 1) (rxFrame c f pool).pool ∧
      (k + 1 = fragCount len → (rxFrame c f pool).status = .complete) := by
  have hold' := hold.advance hf hmax hk
  refine ⟨⟨⟨_, hy, hold'⟩, fun j z hj hz hfill hof => ?_⟩, fun hlast => ?_⟩
  · rw [rxFrame_other hsel hj, Option.map_eq_some_iff] at hz
    obtain ⟨y, hy, rfl⟩ := hz
    rw [y.aged_isFilling] at hfill
    rw [y.aged_src, y.aged_msgId] at hof
    exact halone j y hj hy hfill hof
  · rw [status_rxFrame_selected hsel hy, if_pos (hold'.ready_iff.2 hlast)]

/-- The round that takes fragment 0 (42_reassembly.md R132, R133). -/
theorem receiving_first {p : List Slot} {ev : Bool} (hf : CarriesFragment src id payload len 0 f)
    (hmax : len ≤ c.maxMsg) (hk : 0 < fragCount len)
    (hpool : ∀ x ∈ pool, x.isFilling = true → ¬ (x.src = src ∧ x.msgId = id)) (hsel : select c f pool = .take i p ev) :
    Receiving src id payload len i 1 (rxFrame c f pool).pool ∧
      (1 = fragCount len → (rxFrame c f pool).status = .complete) := by
  obtain ⟨-, x, hx, -⟩ := select_take hsel
  have h0 : (hdrDec f.h).idx = 0 := BitVec.eq_of_toNat_eq hf.idx_eq
  have hy := rxFrame_selected hsel hx
  rw [if_pos h0] at hy
  exact receiving_of_selected (k := 0) hf hmax hk hsel hy (x.holds_claim hf hk)
    fun j y _ hy => hpool y (List.mem_of_getElem? hy)

/-- Slot `i` is the only one that waits for the next fragment (42_reassembly.md R134). -/
theorem Receiving.isFirst_matches (h : Receiving src id payload len i k pool)
    (hf : CarriesFragment src id payload len k f) (hk : k < fragCount len) (hx : pool[i]? = some x)
    (hold : x.Holds src id payload len k) : IsFirst (Slot.matches (hdrDec f.h)) pool i x := by
  have hfill := x.isFilling_iff.2 ⟨hold.locked, hold.ready_eq_false hk⟩
  refine ⟨hx, Slot.matches_iff_toNat.2 ⟨hfill, ?_, ?_, ?_⟩, fun j y hj hy => Bool.eq_false_iff.2 fun hm => ?_⟩
  · rw [hold.src_eq, hf.src_eq]
  · rw [hold.msgId_eq, hf.id_eq]
  · rw [hold.nextIdx, hf.idx_eq]
  · obtain ⟨hfill, hsrc, hid, -⟩ := Slot.matches_iff_toNat.1 hm
    exact h.alone j y (Nat.ne_of_lt hj) hy hfill ⟨hsrc.trans hf.src_eq, hid.trans hf.id_eq⟩

/-- The round that takes a later fragment, which fits (42_reassembly.md R134, R135). -/
theorem Receiving.next (h : Receiving src id payload len i k pool) (hf : CarriesFragment src id payload len k f)
    (hmax : len ≤ c.maxMsg) (hpos : 1 ≤ k) (hk : k < fragCount len) :
    Receiving src id payload len i (k + 1) (rxFrame c f pool).pool ∧
      (k + 1 = fragCount len → (rxFrame c f pool).status = .complete) := by
  obtain ⟨x, hx, hold⟩ := h.slot
  obtain ⟨hchunk, hin⟩ := chunkLen_le hk
  have hdata := hf.length_data
  have h0 : (hdrDec f.h).idx ≠ 0 := fun h0 => by
    have hidx := hf.idx_eq
    rw [h0] at hidx
    exact absurd (show 0 = k from hidx) (by omega)
  have hroom : x.len.toNat + f.dlc.toNat ≤ c.maxMsg := by
    rw [hold.len_eq, dlc_toNat, hdata]
    omega
  have hsel := select_of_matching (by rw [dlc_toNat, hdata]; exact hchunk) h0 (h.isFirst_matches hf hk hx hold) hroom
  have hy := rxFrame_selected hsel hx
  rw [if_neg h0] at hy
  exact receiving_of_selected hf hmax hk hsel hy hold h.alone

/-- Frames among which those of the message are the next `m` fragments in order. -/
theorem Receiving.deliver {gs : List RawFrame} {m : Nat} (h : Receiving src id payload len i k pool)
    (hmax : len ≤ c.maxMsg) (hpos : 1 ≤ k) (hm : k + m ≤ fragCount len) (hev : NotEvicted c i gs pool)
    (hgs : gs.filter (RawFrame.isOf src id) = (List.range' k m).map (fragment c id dest src payload len)) :
    Receiving src id payload len i (k + m) (deliver c gs pool) := by
  induction gs generalizing k m pool with
  | nil =>
    obtain rfl : m = 0 := by simpa using congrArg List.length hgs.symm
    exact h
  | cons g gs ih =>
    obtain ⟨hev, hevs⟩ := hev
    cases hg : RawFrame.isOf src id g with
    | false =>
      rw [List.filter_cons_of_neg (by rw [hg]; decide)] at hgs
      exact ih (h.foreign hg hev) hpos hm hevs hgs
    | true =>
      rw [List.filter_cons_of_pos hg] at hgs
      cases m with
      | zero => exact absurd hgs (List.cons_ne_nil _ _)
      | succ m =>
        rw [List.range'_succ, List.map_cons, List.cons.injEq] at hgs
        obtain ⟨rfl, hgs⟩ := hgs
        rw [← Nat.add_assoc, Nat.add_right_comm]
        have hg := carriesFragment_fragment id dest src payload hmax (show k < fragCount len by omega)
        exact ih (h.next hg hmax hpos (by omega)).1 (by omega) (by omega) hevs hgs

end

/-! ### The delivery of a whole message (42_reassembly.md R147) -/

theorem NotEvicted.of_append {c : Config} {i : Nat} {gs hs : List RawFrame} {pool : List Slot}
    (h : NotEvicted c i (gs ++ hs) pool) : NotEvicted c i gs pool := by
  induction gs generalizing pool with
  | nil => trivial
  | cons g gs ih => exact ⟨h.1, ih h.2⟩

section
variable {c : Config} {id : BitVec 3} {dest src : BitVec 8} {payload : Memory} {len i : Nat} {pool : List Slot}
  {others : List RawFrame}

/-- The wire image is its first fragment and the later ones. -/
theorem wireImage_eq_cons {n : Nat} (h : fragCount len = n + 1) : wireImage c id dest src payload len =
    fragment c id dest src payload len 0 :: (List.range' 1 n).map (fragment c id dest src payload len) := by
  rw [wireImage, h, List.range_eq_range', List.range'_succ, List.map_cons]

/-- The wire image is all fragments but the last, and the last. -/
theorem wireImage_eq_append {n : Nat} (h : fragCount len = n + 1) : wireImage c id dest src payload len =
    (List.range n).map (fragment c id dest src payload len) ++ [fragment c id dest src payload len n] := by
  rw [wireImage, h, List.range_succ, List.map_append, List.map_singleton]

/-- The frames before the last one of the message, and that frame. -/
theorem filter_before_last {before after : List RawFrame} {last : RawFrame} {n : Nat} (hn : fragCount len = n + 1)
    (hlast : RawFrame.isOf src id last = true) (hafter : ∀ g ∈ after, RawFrame.isOf src id g = false)
    (h : (before ++ last :: after).filter (RawFrame.isOf src id) = wireImage c id dest src payload len) :
    before.filter (RawFrame.isOf src id) = (List.range n).map (fragment c id dest src payload len) ∧
      last = fragment c id dest src payload len n := by
  have hnil : after.filter (RawFrame.isOf src id) = [] :=
    List.filter_eq_nil_iff.2 fun g hg => by rw [hafter g hg]; decide
  rw [wireImage_eq_append hn, List.filter_append, List.filter_cons_of_pos hlast, hnil] at h
  obtain ⟨hbefore, hlast⟩ := List.append_inj' h rfl
  exact ⟨hbefore, List.singleton_inj.1 hlast⟩

end

/-- Settles O55: slot `i` takes every fragment, the last one completes it, and the drain reads it. -/
theorem deliveredMessageIsReassembled : Obligations.DeliveredMessageIsReassembled := by
  rintro c id dest src payload len pool first others i hpos hmax hpool hframes rfl ⟨p, ev, hsel⟩ hev
  obtain ⟨n, hn⟩ : ∃ n, fragCount len = n + 1 :=
    ⟨fragCount len - 1, (Nat.sub_add_cancel (fragCount_bounds hpos hmax).1).symm⟩
  have hfrag {k : Nat} (hk : k < fragCount len) := carriesFragment_fragment (c := c) id dest src payload hmax hk
  have h0 : 0 < fragCount len := by omega
  obtain ⟨hfirst, hcomplete⟩ := receiving_first (hfrag h0) hmax h0 hpool hsel
  have hall : Receiving src id payload len i (fragCount len)
      (deliver c (fragment c id dest src payload len 0 :: others) pool) := by
    rw [wireImage_eq_cons hn, List.filter_cons_of_pos (hfrag h0).isOf, List.cons.injEq] at hframes
    rw [hn, Nat.add_comm]
    exact hfirst.deliver hmax (Nat.le_refl 1) (by omega) hev hframes.2
  obtain ⟨x, hx, hold⟩ := hall.slot
  have hready : x.ready = true := hold.ready_iff.2 rfl
  obtain ⟨hlen, hmessage⟩ := hold.message_eq
  refine ⟨⟨x, hx, hready, hold.src_eq, hold.msgId_eq, hlen, hmessage⟩, fun before after last hsplit hlast hafter => ?_,
    fun s hb hs hlow => ?_⟩
  · obtain ⟨hbefore, rfl⟩ := filter_before_last hn hlast hafter (hsplit ▸ hframes)
    cases before with
    | nil =>
      obtain ⟨hhead, -⟩ := List.cons.inj hsplit
      obtain rfl : n = 0 := by simpa using congrArg List.length hbefore.symm
      exact hcomplete hn.symm
    | cons g before =>
      obtain ⟨rfl, rfl⟩ := List.cons.inj hsplit
      rw [List.filter_cons_of_pos (hfrag h0).isOf] at hbefore
      cases n with
      | zero => exact absurd hbefore (List.cons_ne_nil _ _)
      | succ n =>
        rw [List.range_eq_range', List.range'_succ, List.map_cons, List.cons.injEq] at hbefore
        have hmost := hfirst.deliver hmax (Nat.le_refl 1) (by omega) hev.of_append hbefore.2
        rw [Nat.add_comm] at hmost
        exact (hmost.next (hfrag (by omega)) hmax (by omega) (by omega)).2 hn.symm
  · have hi : IsFirst Slot.ready s.pool i x := ⟨hs ▸ hx, hready, hlow⟩
    refine ⟨_, exec_recv_of_idle_some hb (drain_of_isFirst hi), ?_, ?_⟩
    · rw [Slot.length_message, hlen]
      rfl
    · have hcopy := Memory.readN_writeN s.rxb 0 x.message
      rw [Slot.length_message, hlen] at hcopy
      exact hcopy.trans hmessage

end Sys2Proof.Machine

namespace Sys2Proof.Machine

/-! ### The verdict, test by test (43_validator.md R161) -/

section
variable {c : Config} {m : List Byte}

/-- The first test: too short to hold the fields. -/
theorem validate_of_short (h : m.length < c.msgMinLen) : validate c m = .rejectLength := if_pos h

/-- The second test: another protocol version. -/
theorem validate_of_wrong_version (hmin : c.msgMinLen ≤ m.length) (hver : c.verOf m ≠ c.protocolVersion) :
    validate c m = .rejectVersion := by
  rw [validate, if_neg (Nat.not_lt.2 hmin), if_pos hver]

/-- The third test is all that is left: the declared length or its padding. -/
theorem validate_of_version (hmin : c.msgMinLen ≤ m.length) (hver : c.verOf m = c.protocolVersion) :
    validate c m = if m.length = c.declaredLenOf m ∨ m.length = (c.declaredLenOf m + 7) / 8 * 8
      then .accept (c.declaredLenOf m) else .rejectLength := by
  rw [validate, if_neg (Nat.not_lt.2 hmin), if_neg (not_not_intro hver), ite_or, paddedLen_eq]

end

/-- Padding to full chunks adds one amount, and none at a multiple of `CHUNK` (43_validator.md R164). -/
theorem eq_or_eq_padded_iff (n d : Nat) :
    n = d ∨ n = (d + 7) / 8 * 8 ↔ n = d ∨ (d % 8 ≠ 0 ∧ n = (d / 8 + 1) * 8) := by
  omega

/-! ### HAL_RECV, verdict by verdict (43_validator.md R160, R162, R163) -/

/-- What RXB reads after the first `d` bytes of a message are delivered. -/
theorem Memory.read_writeN_take (b : Memory) {m : List Byte} {d : Nat} (h : d ≤ m.length) (a : Nat) :
    (b.writeN 0 (m.take d)).read a = if a < d then m.getD a 0 else b.read a := by
  rw [Memory.read_writeN, List.length_take_of_le h, Nat.zero_add, Nat.sub_zero]
  simp only [Nat.zero_le, true_and]
  split
  · next ha => rw [List.getD_eq_getElem?_getD, List.getElem?_take_of_lt ha, List.getD_eq_getElem?_getD]
  · rfl

theorem Slot.take_message (x : Slot) {d : Nat} (h : d ≤ x.len.toNat) : x.message.take d = x.buf.readN 0 d :=
  Memory.take_readN _ _ _ _ h

section
variable {c : Config} {s : State} {i : Nat} {x : Slot} (hb : s.tx.busy = false) (hi : IsFirst Slot.ready s.pool i x)
include hb hi

/-- A rejected version moves its counter. -/
theorem halRecvOn_of_rejectVersion (hv : validate c x.message = .rejectVersion) :
    halRecvOn c s = { s with
      pool := s.pool.set i x.clean
      errVersionCnt := BitVec.ofNat 8 (min (s.errVersionCnt.toNat + 1) 255)
      results := s.results ++ [⟨.errVersion, false, false, 0, 0⟩] } := by
  rw [halRecvOn_of_idle_some c hb (drain_of_isFirst hi), hv, ← satInc8_eq]
  rfl

/-- A rejected length moves its counter. -/
theorem halRecvOn_of_rejectLength (hv : validate c x.message = .rejectLength) :
    halRecvOn c s = { s with
      pool := s.pool.set i x.clean
      errLengthCnt := BitVec.ofNat 8 (min (s.errLengthCnt.toNat + 1) 255)
      results := s.results ++ [⟨.errLength, false, false, 0, 0⟩] } := by
  rw [halRecvOn_of_idle_some c hb (drain_of_isFirst hi), hv, ← satInc8_eq]
  rfl

/-- An accepted message is cut to its declared length and goes to RXB. -/
theorem halRecvOn_of_accept {d : Nat} (hv : validate c x.message = .accept d) :
    halRecvOn c s = { s with
      pool := s.pool.set i x.clean
      rxb := s.rxb.writeN 0 (x.message.take d)
      results := s.results ++ [⟨.ok, true, false, BitVec.ofNat 8 d, 0⟩] } := by
  rw [halRecvOn_of_idle_some c hb (drain_of_isFirst hi), hv]
  rfl

end

/-- Settles O39: during a send, with no READY slot, and with one by the three tests in their order. -/
theorem halRecvDrainsAndValidates : Obligations.HalRecvDrainsAndValidates := by
  refine ⟨fun _ => rfl, fun c s hb => gate_of_busy _ hb,
    fun c s hb hn => halRecvOn_of_idle_none c hb (drain_eq_none.2 hn), ?_⟩
  rintro c s i x _ m _ hb hi rfl hm rfl
  obtain rfl : m = x.message := hm
  have hlen : x.message.length = x.len.toNat := x.length_message
  refine ⟨fun hshort => ?_, fun hmin hver => ?_, fun hmin hver hne hpad => ?_, fun hmin hver hfit => ?_⟩
  · exact halRecvOn_of_rejectLength hb hi (validate_of_short (hlen.trans_lt hshort))
  · exact halRecvOn_of_rejectVersion hb hi (validate_of_wrong_version (hmin.trans_eq hlen.symm) hver)
  · refine halRecvOn_of_rejectLength hb hi ?_
    rw [validate_of_version (hmin.trans_eq hlen.symm) hver, hlen]
    exact if_neg (not_or.2 ⟨hne, hpad⟩)
  · have hv : validate c x.message = .accept (c.declaredLenOf x.message) := by
      rw [validate_of_version (hmin.trans_eq hlen.symm) hver, hlen]
      exact if_pos hfit
    refine ⟨_, halRecvOn_of_accept hb hi hv, fun a => ?_⟩
    rw [x.take_message ((le_of_validate hv).trans_eq hlen)]
    exact Memory.read_copy ..

/-- Settles O40: a message that passes the first two tests gets the verdict of the third, and its delivery is a cut. -/
theorem paddingToleranceIsOneAmount : Obligations.PaddingToleranceIsOneAmount := by
  rintro c m _ hmin hver rfl
  have hv := validate_of_version hmin hver
  refine ⟨?_, fun hne => ?_, fun m' hlen hver' hd => ?_, ?_⟩
  · rw [hv, ← eq_or_eq_padded_iff]
    simp only [ite_eq_left_iff, reduceCtorEq, imp_false, not_not]
  · rw [hv] at hne ⊢
    exact if_neg fun h => hne (if_pos h)
  · rw [hv, validate_of_version (hmin.trans_eq hlen.symm) (hver'.trans hver), hlen, hd]
  · rintro s i x hb hi rfl hacc
    rw [halRecvOn_of_accept hb hi hacc]
    exact ⟨rfl, Memory.read_writeN_take _ (le_of_validate hacc)⟩

end Sys2Proof.Machine

namespace Sys2Proof.Machine

/-! ### Command words that are refused whole (44_system.md R185, R186) -/

theorem toNat_op (cw : CmdWord) : (CmdWord.op cw).toNat = cw.toNat / 2 ^ 40 := by
  have := cw.isLt
  rw [CmdWord.op, BitVec.extractLsb'_toNat, Nat.shiftRight_eq_div_pow]
  omega

/-- The opcodes of the table are 0x01 to 0x0A (30_encoding.md R81). -/
theorem IsRowOf.op_bounds {cw : CmdWord} {i : Instr} (h : IsRowOf cw i) :
    1 ≤ (CmdWord.op cw).toNat ∧ (CmdWord.op cw).toNat ≤ 0x0A := by
  cases i with
  | hdrEnc | hdrDec | send | setAddr | rdStat =>
    rw [h.1]
    decide
  | poll | recv | halRecv | init | getAddr =>
    rw [show CmdWord.op cw = _ from h]
    decide

/-- A word whose opcode is not of the table has no meaning but its refusal (30_encoding.md R82). -/
theorem runCommand_of_reserved {cw : CmdWord} (h : cw.toNat / 2 ^ 40 = 0 ∨ 0x0B ≤ cw.toNat / 2 ^ 40) (s : State) :
    runCommand cw s = .next (reservedOpcode s) := by
  unfold runCommand
  cases hd : decode cw with
  | command i =>
    have := (decode_eq_command_iff.1 hd).op_bounds
    rw [toNat_op] at this
    omega
  | reservedOpcode op => rfl

/-- The busy gate is the first test of every command word, whatever it decodes to (44_system.md R186). -/
theorem runCommand_of_busy (cw : CmdWord) {s : State} (h : s.tx.busy = true) :
    runCommand cw s = .next (s.addResult (resultOf .busy)) := by
  unfold runCommand
  cases decode cw with
  | command i => exact exec_of_busy i h
  | reservedOpcode op => exact congrArg _ (gate_of_busy _ h)

/-- Settles O8: the step runs the word, and the gate refuses it. -/
theorem busyGateRefusesEveryCommandWord : Obligations.BusyGateRefusesEveryCommandWord := by
  intro s cw rest hi hb
  rw [step_of_inputs hi]
  exact runCommand_of_busy (s := s.setInputs rest) cw hb

/-- Settles O4: during a send as any word, otherwise by its opcode. -/
theorem reservedOpcodesReturnBadCmd : Obligations.ReservedOpcodesReturnBadCmd := by
  intro s cw rest hi hop
  cases hb : s.tx.busy with
  | true => exact busyGateRefusesEveryCommandWord s cw rest hi hb
  | false =>
    rw [step_of_inputs hi]
    refine (runCommand_of_reserved hop (s.setInputs rest)).trans ?_
    rw [reservedOpcode, gate_of_idle (s := s.setInputs rest) _ hb]
    rfl

/-! ### INIT, SET_ADDR, GET_ADDR (44_system.md R180 to R182) -/

/-- Settles O41: the meaning of `INIT` is this state, whichever answer the driver gives. -/
theorem initClearsTheEngineAndAsksTheDriver : Obligations.InitClearsTheEngineAndAsksTheDriver := by
  refine fun s => ⟨fun hb => ?_, exec_of_busy .init⟩
  rw [exec_init_of_idle hb]
  cases s.initAnswer <;> rfl

/-- Settles O42. -/
theorem setAddrWritesNodeAddr : Obligations.SetAddrWritesNodeAddr :=
  fun addr _ => ⟨exec_setAddr_of_idle addr, exec_of_busy (.setAddr addr)⟩

/-- Settles O43: the address is returned zero-extended. -/
theorem getAddrReturnsNodeAddr : Obligations.GetAddrReturnsNodeAddr := by
  refine fun s => ⟨fun hb => ?_, exec_of_busy .getAddr, rfl⟩
  rw [exec_getAddr_of_idle hb, ← BitVec.ofNat_toNat]
  rfl

/-! ### RD_STAT (44_system.md R183, 10_state.md R36) -/

/-- The numbers that the status registers hold, by index; `statusRegister_of_value` ties them to the model. -/
def statusValues (c : Config) (s : State) : List Nat :=
  [s.nodeAddr.toNat, s.msgIdCtr.toNat, s.errVersionCnt.toNat, s.errLengthCnt.toNat,
    (s.pool.filter Slot.isFree).length, (s.pool.filter Slot.isFilling).length, (s.pool.filter Slot.isReady).length,
    Config.chunk, c.poolN, c.maxMsg, c.protocolVersion]

/-- A register of at most 8 bits, zero-extended, reads as its number. -/
theorem setWidth_eq_ofNat_mod {w : Nat} (hw : w ≤ 8) (x : BitVec w) :
    x.setWidth 32 = BitVec.ofNat 32 (x.toNat % 256) := by
  rw [Nat.mod_eq_of_lt (x.isLt.trans_le (Nat.pow_le_pow_right Nat.zero_lt_two hw)), BitVec.ofNat_toNat]

/-- A slot count is the number of the slots that satisfy the test, in 8 bits. -/
theorem setWidth_slotCount (p : Slot → Bool) (pool : List Slot) :
    (slotCount p pool).setWidth 32 = BitVec.ofNat 32 ((pool.filter p).length % 256) := by
  rw [← BitVec.ofNat_toNat, slotCount, BitVec.toNat_ofNat, List.countP_eq_length_filter]

/-- A parameter that fits bits 7:0 reads as itself. -/
theorem ofNat_eq_ofNat_mod {n : Nat} (h : n < 256) : BitVec.ofNat 32 n = BitVec.ofNat 32 (n % 256) := by
  rw [Nat.mod_eq_of_lt h]

/-- What an index up to 10 reads; `PROTOCOL_VERSION` has to fit its register (log 2). -/
theorem statusRegister_of_value {c : Config} {idx : BitVec 8} {s : State} {v : Nat}
    (hv : (statusValues c s)[idx.toNat]? = some v) (hfit : idx.toNat = 10 → v < 256) :
    statusRegister c idx s = some (BitVec.ofNat 32 (v % 256)) := by
  have hpool := c.poolN_le
  have hmsg : c.maxMsg ≤ 15 * 8 := c.maxMsg_le
  unfold statusRegister
  generalize idx.toNat = n at hv hfit
  match n with
  | 0 | 1 | 2 | 3 => cases hv; exact congrArg some (setWidth_eq_ofNat_mod (by decide) _)
  | 4 | 5 | 6 => cases hv; exact congrArg some (setWidth_slotCount _ _)
  | 7 => cases hv; rfl
  | 8 | 9 => cases hv; exact congrArg some (ofNat_eq_ofNat_mod (by omega))
  | 10 =>
    cases hv
    exact congrArg some ((versionRegister_of_lt (hfit rfl)).trans (ofNat_eq_ofNat_mod (hfit rfl)))
  | n + 11 => cases hv

/-- The indices above 10 are reserved. -/
theorem statusRegister_of_reserved (c : Config) {idx : BitVec 8} (s : State) (h : 10 < idx.toNat) :
    statusRegister c idx s = none := by
  obtain ⟨n, hn⟩ : ∃ n, idx.toNat = n + 11 := Nat.exists_eq_add_of_le' h
  rw [statusRegister, hn]
  rfl

/-- Index 10 has a register, whatever the version. -/
theorem statusRegister_of_eq_ten (c : Config) {idx : BitVec 8} (s : State) (h : idx.toNat = 10) :
    statusRegister c idx s = some (versionRegister c) := by
  rw [statusRegister, h]
  rfl

/-- `RD_STAT` of an index that has a register returns it. -/
theorem exec_rdStat_of_register {idx : BitVec 8} {s : State} {w : BitVec 32} (hb : s.tx.busy = false)
    (h : statusRegister Config.mfe idx s = some w) :
    exec (.rdStat idx) s = .next (s.addResult (resultOf .ok (val := w))) := by
  rw [exec_rdStat_of_idle idx hb, h]

/-- `RD_STAT` of a reserved index is refused. -/
theorem exec_rdStat_of_reserved {idx : BitVec 8} {s : State} (hb : s.tx.busy = false) (h : 10 < idx.toNat) :
    exec (.rdStat idx) s = .next (s.addResult (resultOf .badCmd)) := by
  rw [exec_rdStat_of_idle idx hb, statusRegister_of_reserved _ s h]

/-- Settles O44: during a send, for a reserved index, for a register of known value, and for index 10 alone. -/
theorem rdStatReadsTheStatusRegisters : Obligations.RdStatReadsTheStatusRegisters :=
  fun idx s _ => ⟨exec_of_busy (.rdStat idx), exec_rdStat_of_reserved,
    fun hb hv hfit => exec_rdStat_of_register hb (statusRegister_of_value hv hfit),
    fun hb h => ⟨_, exec_rdStat_of_register hb (statusRegister_of_eq_ten _ s h)⟩⟩

end Sys2Proof.Machine

namespace Sys2Proof.Machine

/-! ### The status codes (60_exceptions.md R201) -/

/-- The statuses in the order of the table; `Status.mem_table` says that none is missing. -/
def Status.table : List Status :=
  [.ok, .empty, .pending, .complete, .dropUnmatched, .dropNoSlot, .dropOverflow, .dropBadDlc, .errVersion, .errLength,
    .sendFail, .badLen, .initFail, .busy, .badCmd]

theorem Status.mem_table (st : Status) : st ∈ Status.table := by cases st <;> decide

theorem Status.nodup_map_code_table : (Status.table.map Status.code).Nodup := by decide

/-- Settles O9: the table has every status once, and no number twice. -/
theorem statusCodesAreTheTable : Obligations.StatusCodesAreTheTable :=
  ⟨rfl, fun a b h => List.inj_on_of_nodup_map Status.nodup_map_code_table a.mem_table b.mem_table h⟩

/-! ### Rounds that drop their frame (60_exceptions.md R204, R206, R207) -/

theorem ageOthers_none (pool : List Slot) : ageOthers none pool = pool.map Slot.aged := by
  refine List.ext_getElem? fun k => ?_
  rw [getElem?_ageOthers, List.getElem?_map]
  rfl

section
variable {c : Config} {f : RawFrame} {pool : List Slot}

/-- A dropped frame leaves its status and one round of ages, nothing else (42_reassembly.md R138). -/
theorem rxFrame_drop_eq_map_aged {st : Status} (h : select c f pool = .drop st) :
    rxFrame c f pool = ⟨pool.map Slot.aged, st, false⟩ := by
  rw [rxFrame_drop h, ageOthers_none]

theorem select_of_overlong (hd : 8 < f.dlc.toNat) : select c f pool = .drop .dropBadDlc := if_pos hd

theorem select_of_unmatched (hd : f.dlc.toNat ≤ 8) (h0 : (hdrDec f.h).idx ≠ 0)
    (hnone : firstSlot (Slot.matches (hdrDec f.h)) pool = none) : select c f pool = .drop .dropUnmatched := by
  simp only [select_of_fits hd, if_neg h0, continuation, hnone]

theorem select_of_overflow {i : Nat} {x : Slot} (hd : f.dlc.toNat ≤ 8) (h0 : (hdrDec f.h).idx ≠ 0)
    (hi : IsFirst (Slot.matches (hdrDec f.h)) pool i x) (hover : c.maxMsg < x.len.toNat + f.dlc.toNat) :
    select c f pool = .drop .dropOverflow := by
  simp only [select_of_fits hd, if_neg h0, continuation, firstSlot_of_isFirst hi, hi.1, if_pos hover]

/-- The scan for a waiting slot fails exactly when every slot differs from the frame in one of the registers. -/
theorem firstSlot_matches_eq_none {hdr : HeaderFields} : firstSlot (Slot.matches hdr) pool = none ↔
    ∀ y ∈ pool, y.locked = true → y.ready = false → y.src = hdr.src → y.msgId = hdr.id →
      y.nextIdx.toNat ≠ hdr.idx.toNat := by
  simp only [firstSlot_eq_none, ← Bool.not_eq_true, Slot.matches_iff_toNat, Slot.isFilling_iff, not_and, and_imp]

end

/-- Settles O31: the length is the first test of a round. -/
theorem roundDropsOverlongFrames : Obligations.RoundDropsOverlongFrames := by
  intro c f pool hd
  rw [rxFrame_drop_eq_map_aged (select_of_overlong hd)]
  exact congrArg (Round.mk · _ _) (List.map_congr_left fun x _ => x.aged_eq)

/-- Settles O36: the scan finds no waiting slot, or one without room for the frame. -/
theorem continuationIsDroppedUnmatchedOrOverflowing : Obligations.ContinuationIsDroppedUnmatchedOrOverflowing := by
  intro c f pool hd h0
  refine ⟨fun hnone => ?_, fun i x hi hover => ?_⟩
  · exact rxFrame_drop_eq_map_aged (select_of_unmatched hd h0 (firstSlot_matches_eq_none.2 hnone))
  · rw [Slot.matches_eq] at hi
    exact rxFrame_drop_eq_map_aged (select_of_overflow hd h0 hi hover)

/-! ### How a command ends (60_exceptions.md R200, R201; 30_encoding.md R84) -/

/-- The commands whose result may carry a value in `val` (30_encoding.md R84). -/
def ReturnsVal (i : Instr) : Prop :=
  (∃ a b c d e, i = .hdrEnc a b c d e) ∨ (∃ w, i = .hdrDec w) ∨ i = .getAddr ∨ ∃ x, i = .rdStat x

/-- The fields of a result record that its status and its command allow (30_encoding.md R84). -/
structure Result.FieldsOf (i : Instr) (r : Result) : Prop where
  flag : r.flag = true ↔ r.status = .ok ∨ r.status = .complete
  evicted : r.evicted = true → i = .poll ∧ (r.status = .pending ∨ r.status = .complete)
  n : r.n ≠ 0 → r.status = .ok ∧ (i = .recv ∨ i = .halRecv)
  val : r.val ≠ 0 → r.status = .ok ∧ ReturnsVal i

theorem flagOf_iff {st : Status} : flagOf st = true ↔ st = .ok ∨ st = .complete := by
  simp only [flagOf, Bool.or_eq_true, beq_iff_eq]

section
variable {i : Instr} {st : Status}

/-! A record sets one field at most beside its status and flag. -/

theorem fieldsOf_resultOf : (resultOf st).FieldsOf i :=
  ⟨flagOf_iff, nofun, fun h => absurd rfl h, fun h => absurd rfl h⟩

theorem fieldsOf_resultOf_evicted {ev : Bool} (h : ev = true → st = .pending ∨ st = .complete) :
    (resultOf st (evicted := ev)).FieldsOf .poll :=
  { fieldsOf_resultOf with evicted := fun hev => ⟨rfl, h hev⟩ }

theorem fieldsOf_resultOf_n {n : BitVec 8} (h : i = .recv ∨ i = .halRecv) : (resultOf .ok (n := n)).FieldsOf i :=
  { fieldsOf_resultOf with n := fun _ => ⟨rfl, h⟩ }

theorem fieldsOf_resultOf_val {v : BitVec 32}
    (h : v ≠ 0 → st = .ok ∧ ReturnsVal i) : (resultOf st (val := v)).FieldsOf i :=
  { fieldsOf_resultOf with val := h }

end

/-- What a round returns is a status of `POLL`, and it evicts only for a frame that is taken (42_reassembly.md R131). -/
theorem status_rxFrame (c : Config) (f : RawFrame) (pool : List Slot) :
    (rxFrame c f pool).status ∈ statusesOf .poll ∧
    ((rxFrame c f pool).evicted = true →
      (rxFrame c f pool).status = .pending ∨ (rxFrame c f pool).status = .complete) := by
  cases h : select c f pool with
  | drop st =>
    rw [rxFrame_drop h]
    refine ⟨show st ∈ statusesOf .poll from ?_, nofun⟩
    obtain ⟨-, rfl⟩ | ⟨-, -, -, -, rfl⟩ | ⟨-, -, -, rfl⟩ | ⟨-, -, i, x, -, -, -, rfl⟩ := select_drop h
    all_goals decide
  | take i p ev =>
    obtain ⟨-, y, -, -, hy, -⟩ := selected_slot h
    rw [status_rxFrame_selected h hy]
    cases y.ready
    · exact ⟨by decide, fun _ => .inl rfl⟩
    · exact ⟨by decide, fun _ => .inr rfl⟩

/-- How a command ends: with its one result record, or, if it is an accepted `SEND`, with the send in flight.
`exec_ending` ties it to the machine. -/
inductive Ending (i : Instr) (s t : State) : Prop
  | answered (r : Result) (result : t.results = s.results ++ [r]) (inputs : t.inputs = s.inputs) (tx : t.tx = s.tx)
      (status : if s.tx.busy then r.status = .busy else r.status ∈ statusesOf i) (fields : r.FieldsOf i)
  | accepted (dest len : BitVec 8) (noack : Bool) (cause : i = .send dest len noack) (idle : s.tx.busy = false)
      (busy : t.tx.busy = true) (result : t.results = s.results) (inputs : t.inputs = s.inputs)

theorem exec_ending_of_idle {i : Instr} {s t : State} (hb : s.tx.busy = false) (h : exec i s = .next t) :
    Ending i s t := by
  have hstatus : ∀ st ∈ statusesOf i, if s.tx.busy then st = .busy else st ∈ statusesOf i := fun st hst => by
    rwa [if_neg (Bool.eq_false_iff.1 hb)]
  obtain ⟨st, v, rfl, hst, hv⟩ | ⟨dest, len, noack, rfl, -, -, rfl⟩ | ⟨rfl, -, rfl⟩ | ⟨rfl, f, -, rfl⟩ |
    ⟨rfl, m, p, -, rfl⟩ | ⟨rfl, m, p, -, ⟨-, rfl⟩ | ⟨-, rfl⟩ | ⟨d, -, rfl⟩⟩ | ⟨rfl, rfl⟩ | ⟨addr, rfl, rfl⟩ :=
      exec_next hb h
  · exact .answered _ rfl rfl rfl (hstatus _ hst) (fieldsOf_resultOf_val hv)
  · exact .accepted dest len noack rfl hb rfl rfl rfl
  · exact .answered _ rfl rfl rfl (hstatus .empty (by decide)) fieldsOf_resultOf
  · obtain ⟨hst, hev⟩ := status_rxFrame Config.mfe f s.pool
    exact .answered _ rfl rfl rfl (hstatus _ hst) (fieldsOf_resultOf_evicted hev)
  · exact .answered _ rfl rfl rfl (hstatus .ok (by decide)) (fieldsOf_resultOf_n (.inl rfl))
  · exact .answered _ rfl rfl rfl (hstatus .errVersion (by decide)) fieldsOf_resultOf
  · exact .answered _ rfl rfl rfl (hstatus .errLength (by decide)) fieldsOf_resultOf
  · exact .answered _ rfl rfl rfl (hstatus .ok (by decide)) (fieldsOf_resultOf_n (.inr rfl))
  · exact .answered _ rfl rfl rfl (hstatus _ (by split <;> decide)) fieldsOf_resultOf
  · exact .answered _ rfl rfl rfl (hstatus .ok (.head _)) fieldsOf_resultOf

/-- Every command ends in one of the two ways; the busy gate answers `BUSY` (44_system.md R186). -/
theorem exec_ending {i : Instr} {s t : State} (h : exec i s = .next t) : Ending i s t := by
  cases hb : s.tx.busy with
  | true =>
    rw [exec_of_busy i hb] at h
    cases h
    exact .answered _ rfl rfl rfl (if_pos hb ▸ rfl) fieldsOf_resultOf
  | false => exact exec_ending_of_idle hb h

/-- The meaning of every command is a next state; no arm faults or refuses (60_exceptions.md R200). -/
theorem exists_exec_eq_next (i : Instr) (s : State) : ∃ t, exec i s = .next t := by
  cases i <;> exact ⟨_, rfl⟩

/-- Settles O7: every command answers a next state, and it ends in one of the two ways. -/
theorem noCommandStopsTheEngine : Obligations.NoCommandStopsTheEngine := by
  intro i s
  obtain ⟨t, ht⟩ := exists_exec_eq_next i s
  refine ⟨t, ht, ?_⟩
  cases exec_ending ht with
  | answered r result inputs tx => exact ⟨inputs, .inl ⟨congrArg Tx.busy tx, r, result⟩⟩
  | accepted dest len noack cause idle busy result inputs =>
    exact ⟨inputs, .inr ⟨dest, len, noack, cause, idle, busy, result⟩⟩

/-- Settles O10: the record returned is the one the command ended with; an accepted `SEND` has returned none. -/
theorem resultsAreOfTheCommand : Obligations.ResultsAreOfTheCommand := by
  intro i s t r h hr
  cases exec_ending h with
  | answered r' result _ _ status fields =>
    obtain rfl : r' = r := List.singleton_inj.1 (List.append_cancel_left (result.symm.trans hr))
    exact ⟨status, fields.flag, fields.evicted, fields.n, fields.val⟩
  | accepted _ _ _ _ _ _ result _ =>
    exact absurd (List.self_eq_append_right.1 (result.symm.trans hr)) (List.cons_ne_nil r [])

end Sys2Proof.Machine

namespace Sys2Proof.Machine

/-! ### The reset input and what follows reset (70_reset_and_hazards.md R230, R231) -/

theorem Slot.isClean_free : Slot.free.isClean := ⟨rfl, rfl, rfl, rfl, rfl, rfl, rfl⟩

/-- The reset pool has its slot 0, and it is FREE, since `POOL_N` is at least 1 (00_scope.md R8). -/
theorem State.reset_pool_zero : State.reset.pool[0]? = some .free :=
  List.getElem?_replicate_of_lt Config.mfe.poolN_pos

theorem step_reset {s : State} {rest : List Input} (h : s.inputs = .reset :: rest) :
    step s = .next (hardReset Config.mfe (s.setInputs rest)) := step_of_inputs h

/-- Settles O48: the registers are those of `State.resetOf`, whose slots are all `Slot.free`; the rest is the state's
own. -/
theorem resetInputRestoresResetState : Obligations.ResetInputRestoresResetState := by
  intro s rest h
  have hclean : ∀ x ∈ (hardReset Config.mfe (s.setInputs rest)).pool, x.isClean := fun x hx => by
    rw [List.eq_of_mem_replicate hx]
    exact Slot.isClean_free
  exact ⟨_, step_reset h, List.length_replicate, hclean, rfl, rfl, rfl, rfl, rfl, rfl, rfl, rfl, rfl, rfl, rfl⟩

/-- Settles O49: `SEND` takes the id after the reset value 0, and slot 0 is the lowest FREE slot (R132). -/
theorem firstMessageAfterReset : Obligations.FirstMessageAfterReset := by
  refine ⟨fun dest len noack h1 h2 => ?_, fun f hd h0 => ?_⟩
  · exact ⟨_, exec_send_of_idle_legal dest len noack rfl h1 h2, rfl, rfl⟩
  · obtain ⟨-, -, ⟨b, hslot, -⟩, -⟩ := fragmentZeroTakesLowestFreeSlot Config.mfe f State.reset.pool 0 .free hd h0
      State.reset_pool_zero rfl fun j _ hj _ => absurd hj (Nat.not_lt_zero j)
    exact ⟨_, hslot, rfl, rfl, rfl, rfl⟩

end Sys2Proof.Machine
